-- ==== Sys2Proof/Word.lean ====
section
/-! DEFINITION. The word types of DDFT: the byte, the 32-bit word of a host access, the binary64 pattern and the complex
value (spec 10_state.md, 20_memory.md, 40_numerics.md R120, 41_complex.md R150). -/

namespace Sys2Proof

/-- One byte of the register window (R60: the window is byte addressed). -/
abbrev Byte := BitVec 8

/-- The 32-bit word of a successful host access (R63) and of a command (R90). -/
abbrev Word32 := BitVec 32

/-- An IEEE 754 binary64 datum as its 64-bit pattern: bit 63 the sign, bits 62:52 the biased exponent, bits 51:0 the
fraction (R120). -/
abbrev F64 := BitVec 64

/-- A complex number: "pair (real, imaginary) of double-precision floats ... purely a value type" (R150). -/
structure Cplx where
  re : F64
  im : F64
deriving DecidableEq, Repr, Inhabited

/-- The low word of a 64-bit pattern, the one at the lower offset (R62). -/
def lowWord (x : F64) : Word32 := x.extractLsb' 0 32

/-- The high word of a 64-bit pattern (sign, exponent, top of the fraction), the one at the higher offset (R62). -/
def highWord (x : F64) : Word32 := x.extractLsb' 32 32

end Sys2Proof
end

