-- ==== Sys2Proof/Syntax.lean ====
section
/-! DEFINITION. The commands of DDFT: one constructor of `Instr` per row of spec/opcode_table.json (30_encoding.md R93; the
three legal `LOAD` words are three rows). -/

namespace Sys2Proof

/-- The complex scratch registers `Z[0]` to `Z[3]`, assembler names z0 to z3 (R21). -/
inductive ZReg where
  | z0
  | z1
  | z2
  | z3
deriving DecidableEq, Repr

/-- The window selects of `LOAD`: 0 `RECT`, 1 `HANN`, 2 `HAMM` (R92); 3 is reserved and is no window (R96). -/
inductive Window where
  | rect
  | hann
  | hamm
deriving DecidableEq, Repr

/-- The 18 rows of the opcode table. Register operands are register names; `k`, `lo` and `hi` are the unsigned numbers of
R92, whose field widths `Instr.WellFormed` checks. -/
inductive Instr where
  /-- `NOP` (R230). -/
  | nop
  /-- `SRST`, soft reset (R231). -/
  | srst
  /-- `CADD zd, za, zb` (R151). -/
  | cadd (zd za zb : ZReg)
  /-- `CMUL zd, za, zb` (R152). -/
  | cmul (zd za zb : ZReg)
  /-- `CMAG za` (R153). -/
  | cmag (za : ZReg)
  /-- `CEXP zd, za` (R154). -/
  | cexp (zd za : ZReg)
  /-- `LOAD.RECT` (R170, R173). -/
  | loadRect
  /-- `LOAD.HANN` (R170, R171). -/
  | loadHann
  /-- `LOAD.HAMM` (R170, R172). -/
  | loadHamm
  /-- `DFT` (R181). -/
  | dft
  /-- `POWER` (R190). -/
  | power
  /-- `GETPWR k` (R192). -/
  | getpwr (k : Nat)
  /-- `PEAKRE lo, hi` (R196). -/
  | peakre (lo hi : Nat)
  /-- `PEAKPW lo, hi` (R197). -/
  | peakpw (lo hi : Nat)
  /-- `MELFB` (R214). -/
  | melfb
  /-- `DCT` (R218). -/
  | dct
  /-- `FRAME` (R232). -/
  | frame
  /-- `MFCC` (R233). -/
  | mfcc
deriving DecidableEq, Repr

end Sys2Proof
end

