-- ==== Sys2Proof/WellFormed.lean ====
section
/-! DEFINITION. Well-formed commands: the operand ranges of 30_encoding.md R92, and the legality of a command word as the
match and mask columns of R93 state it (an account of legality that does not use the decoder). -/

namespace Sys2Proof

/-- The number operands fit their fields: `k` is 16 bits, `lo` and `hi` are 10 bits each (R92). Every other operand is
legal as it stands ("all four values legal, and may be equal to each other in any combination"). -/
def Instr.wellFormed : Instr → Bool
  | .nop => true
  | .srst => true
  | .cadd _ _ _ => true
  | .cmul _ _ _ => true
  | .cmag _ => true
  | .cexp _ _ => true
  | .loadRect => true
  | .loadHann => true
  | .loadHamm => true
  | .dft => true
  | .power => true
  | .getpwr k => decide (k < 65536)
  | .peakre lo hi => decide (lo < 1024) && decide (hi < 1024)
  | .peakpw lo hi => decide (lo < 1024) && decide (hi < 1024)
  | .melfb => true
  | .dct => true
  | .frame => true
  | .mfcc => true

/-- `Instr.wellFormed` as a proposition. -/
abbrev Instr.WellFormed (i : Instr) : Prop := i.wellFormed = true

/-- One row of the opcode map: a word `c` matches it exactly when `(c & mask) == match` (R93). -/
structure OpcodeRow where
  mnemonic : String
  matchBits : Word32
  mask : Word32
deriving DecidableEq, Repr

/-- The opcode map of R93, with `LOAD` as its three legal words (full masks). -/
def opcodeRows : List OpcodeRow := [
  ⟨"NOP", 0x00000000#32, 0xFFFFFFFF#32⟩,
  ⟨"SRST", 0x00000001#32, 0xFFFFFFFF#32⟩,
  ⟨"CADD", 0x00000010#32, 0xFFFFC0FF#32⟩,
  ⟨"CMUL", 0x00000011#32, 0xFFFFC0FF#32⟩,
  ⟨"CMAG", 0x00000012#32, 0xFFFFF3FF#32⟩,
  ⟨"CEXP", 0x00000013#32, 0xFFFFF0FF#32⟩,
  ⟨"LOAD.RECT", 0x00000020#32, 0xFFFFFFFF#32⟩,
  ⟨"LOAD.HANN", 0x00000120#32, 0xFFFFFFFF#32⟩,
  ⟨"LOAD.HAMM", 0x00000220#32, 0xFFFFFFFF#32⟩,
  ⟨"DFT", 0x00000021#32, 0xFFFFFFFF#32⟩,
  ⟨"POWER", 0x00000022#32, 0xFFFFFFFF#32⟩,
  ⟨"GETPWR", 0x00000023#32, 0xFF0000FF#32⟩,
  ⟨"PEAKRE", 0x00000024#32, 0xF00000FF#32⟩,
  ⟨"PEAKPW", 0x00000025#32, 0xF00000FF#32⟩,
  ⟨"MELFB", 0x00000028#32, 0xFFFFFFFF#32⟩,
  ⟨"DCT", 0x00000029#32, 0xFFFFFFFF#32⟩,
  ⟨"FRAME", 0x00000030#32, 0xFFFFFFFF#32⟩,
  ⟨"MFCC", 0x00000031#32, 0xFFFFFFFF#32⟩]

/-- The word matches the row (R93). -/
def OpcodeRow.matches (r : OpcodeRow) (c : Word32) : Bool := c &&& r.mask == r.matchBits

/-- The row a word matches, if any. -/
def rowOf (c : Word32) : Option OpcodeRow := opcodeRows.find? (·.matches c)

/-- A legal command word: it matches a row of the map; "Every word matching no row is illegal" (R93). -/
def legalWord (c : Word32) : Bool := (rowOf c).isSome

end Sys2Proof
end

