-- ==== Sys2Proof/Decode.lean ====
section
/-! DEFINITION. Decoding a command word as 30_encoding.md R100 does, total on 32-bit words and rejecting by name, and after
it the encoder of R91 and R93, the pseudo-commands of R99 and the assembler text of R98. -/

namespace Sys2Proof

/-- Why a word is illegal (R96 (a), (b) and (c)). -/
inductive IllegalReason where
  /-- R96 (a): `op` is not one of the 16 assigned values. -/
  | unassignedOpcode
  /-- R96 (b): a reserved bit is set. -/
  | reservedBit
  /-- R96 (c): `LOAD` with `wsel = 3`. -/
  | reservedWindow
deriving DecidableEq, Repr

/-- What decoding answers: a command, or the reason the word is illegal. -/
inductive Decoded where
  | command (i : Instr)
  | illegal (why : IllegalReason)
deriving DecidableEq, Repr

/-- The command of a decoded word, none where the word is illegal. -/
def Decoded.command? : Decoded → Option Instr
  | .command i => some i
  | .illegal _ => none

/-- The 16 opcodes of R93. -/
inductive Opcode where
  | nop
  | srst
  | cadd
  | cmul
  | cmag
  | cexp
  | load
  | dft
  | power
  | getpwr
  | peakre
  | peakpw
  | melfb
  | dct
  | frame
  | mfcc
deriving DecidableEq, Repr

/-- The seven formats of R91. -/
inductive Format where
  | n
  | z3
  | z2
  | z1
  | w
  | k
  | r
deriving DecidableEq, Repr

/-- The opcode's value in bits 7:0 (R93). -/
def Opcode.code : Opcode → BitVec 8
  | .nop => 0x00#8
  | .srst => 0x01#8
  | .cadd => 0x10#8
  | .cmul => 0x11#8
  | .cmag => 0x12#8
  | .cexp => 0x13#8
  | .load => 0x20#8
  | .dft => 0x21#8
  | .power => 0x22#8
  | .getpwr => 0x23#8
  | .peakre => 0x24#8
  | .peakpw => 0x25#8
  | .melfb => 0x28#8
  | .dct => 0x29#8
  | .frame => 0x30#8
  | .mfcc => 0x31#8

/-- The assigned opcodes, in the order of R93. -/
def Opcode.all : List Opcode :=
  [.nop, .srst, .cadd, .cmul, .cmag, .cexp, .load, .dft, .power, .getpwr, .peakre, .peakpw, .melfb, .dct, .frame, .mfcc]

/-- The opcode with a value, none for the 240 unassigned values (R96 (a)). -/
def Opcode.ofCode (b : BitVec 8) : Option Opcode := Opcode.all.find? (fun o => o.code == b)

/-- The format of each opcode (R91). -/
def Opcode.format : Opcode → Format
  | .nop => .n
  | .srst => .n
  | .cadd => .z3
  | .cmul => .z3
  | .cmag => .z1
  | .cexp => .z2
  | .load => .w
  | .dft => .n
  | .power => .n
  | .getpwr => .k
  | .peakre => .r
  | .peakpw => .r
  | .melfb => .n
  | .dct => .n
  | .frame => .n
  | .mfcc => .n

/-- The reserved bits of a format, those marked 0 in R91: a legal word has 0 in each of them (R95). -/
def Format.reserved : Format → Word32
  | .n => 0xFFFFFF00#32
  | .z3 => 0xFFFFC000#32
  | .z2 => 0xFFFFF000#32
  | .z1 => 0xFFFFF300#32
  | .w => 0xFFFFFC00#32
  | .k => 0xFF000000#32
  | .r => 0xF0000000#32

/-- A 2-bit register field (R92). -/
def ZReg.ofCode (b : BitVec 2) : ZReg :=
  match b.toNat with
  | 0 => .z0
  | 1 => .z1
  | 2 => .z2
  | _ => .z3

/-- A register's number (R92). -/
def ZReg.code : ZReg → BitVec 2
  | .z0 => 0#2
  | .z1 => 1#2
  | .z2 => 2#2
  | .z3 => 3#2

/-- The bits `hi` down to `lo` of a word, `w[hi:lo]` of R10, given as the lowest bit and the width. -/
def field (c : Word32) (lo width : Nat) : BitVec width := c.extractLsb' lo width

/-- The `LOAD` the window select names; 3 is reserved (R92, R96 (c)). -/
def decodeLoad (wsel : BitVec 2) : Decoded :=
  match wsel.toNat with
  | 0 => .command .loadRect
  | 1 => .command .loadHann
  | 2 => .command .loadHamm
  | _ => .illegal .reservedWindow

/-- The operands of a word whose opcode is assigned and whose reserved bits are 0 (R92, R100). -/
def decodeOperands (op : Opcode) (c : Word32) : Decoded :=
  let zd := ZReg.ofCode (field c 8 2)
  let za := ZReg.ofCode (field c 10 2)
  let zb := ZReg.ofCode (field c 12 2)
  let lo := (field c 8 10).toNat
  let hi := (field c 18 10).toNat
  match op with
  | .nop => .command .nop
  | .srst => .command .srst
  | .cadd => .command (.cadd zd za zb)
  | .cmul => .command (.cmul zd za zb)
  | .cmag => .command (.cmag za)
  | .cexp => .command (.cexp zd za)
  | .load => decodeLoad (field c 8 2)
  | .dft => .command .dft
  | .power => .command .power
  | .getpwr => .command (.getpwr (field c 8 16).toNat)
  | .peakre => .command (.peakre lo hi)
  | .peakpw => .command (.peakpw lo hi)
  | .melfb => .command .melfb
  | .dct => .command .dct
  | .frame => .command .frame
  | .mfcc => .command .mfcc

/-- R100: the opcode first, then the reserved bits of its format, then the window select of `LOAD`. -/
def decode (c : Word32) : Decoded :=
  match Opcode.ofCode (field c 0 8) with
  | none => .illegal .unassignedOpcode
  | some op => if c &&& op.format.reserved = 0#32 then decodeOperands op c else .illegal .reservedBit

/-- The instruction the decoder reads from a table word: the low `nbits` bits of `w` are the datum of the `CMD` write, every
bit above them is 0; a command has 32 bits (R90). -/
def decodeTableWord (nbits w : Nat) : Option Instr :=
  if nbits ≤ 32 then (decode (BitVec.ofNat 32 (w % 2 ^ nbits))).command? else none

/-- Format N (R91). -/
def encodeN (op : Opcode) : Word32 := 0#24 ++ op.code

/-- Format Z3 (R91). -/
def encodeZ3 (op : Opcode) (zd za zb : ZReg) : Word32 := 0#18 ++ zb.code ++ za.code ++ zd.code ++ op.code

/-- Format Z2 (R91). -/
def encodeZ2 (op : Opcode) (zd za : ZReg) : Word32 := 0#20 ++ za.code ++ zd.code ++ op.code

/-- Format Z1 (R91): bits 9:8 are 0. -/
def encodeZ1 (op : Opcode) (za : ZReg) : Word32 := 0#20 ++ za.code ++ 0#2 ++ op.code

/-- Format W (R91). -/
def encodeW (op : Opcode) (wsel : BitVec 2) : Word32 := 0#22 ++ wsel ++ op.code

/-- Format K (R91). -/
def encodeK (op : Opcode) (k : Nat) : Word32 := 0#8 ++ BitVec.ofNat 16 k ++ op.code

/-- Format R (R91). -/
def encodeR (op : Opcode) (lo hi : Nat) : Word32 := 0#4 ++ BitVec.ofNat 10 hi ++ BitVec.ofNat 10 lo ++ op.code

/-- The word of a command (R91, R93). -/
def encode : Instr → Word32
  | .nop => encodeN .nop
  | .srst => encodeN .srst
  | .cadd zd za zb => encodeZ3 .cadd zd za zb
  | .cmul zd za zb => encodeZ3 .cmul zd za zb
  | .cmag za => encodeZ1 .cmag za
  | .cexp zd za => encodeZ2 .cexp zd za
  | .loadRect => encodeW .load 0#2
  | .loadHann => encodeW .load 1#2
  | .loadHamm => encodeW .load 2#2
  | .dft => encodeN .dft
  | .power => encodeN .power
  | .getpwr k => encodeK .getpwr k
  | .peakre lo hi => encodeR .peakre lo hi
  | .peakpw lo hi => encodeR .peakpw lo hi
  | .melfb => encodeN .melfb
  | .dct => encodeN .dct
  | .frame => encodeN .frame
  | .mfcc => encodeN .mfcc

/-- The mnemonic of a command, as spec/opcode_table.json and R93 spell it. -/
def Instr.mnemonic : Instr → String
  | .nop => "NOP"
  | .srst => "SRST"
  | .cadd _ _ _ => "CADD"
  | .cmul _ _ _ => "CMUL"
  | .cmag _ => "CMAG"
  | .cexp _ _ => "CEXP"
  | .loadRect => "LOAD.RECT"
  | .loadHann => "LOAD.HANN"
  | .loadHamm => "LOAD.HAMM"
  | .dft => "DFT"
  | .power => "POWER"
  | .getpwr _ => "GETPWR"
  | .peakre _ _ => "PEAKRE"
  | .peakpw _ _ => "PEAKPW"
  | .melfb => "MELFB"
  | .dct => "DCT"
  | .frame => "FRAME"
  | .mfcc => "MFCC"

/-- The assembler name of a register (R21, R98). -/
def ZReg.name : ZReg → String
  | .z0 => "z0"
  | .z1 => "z1"
  | .z2 => "z2"
  | .z3 => "z3"

/-- The operands of a command in assembler order, destination first (R98). -/
def Instr.operands : Instr → List String
  | .cadd zd za zb => [zd.name, za.name, zb.name]
  | .cmul zd za zb => [zd.name, za.name, zb.name]
  | .cmag za => [za.name]
  | .cexp zd za => [zd.name, za.name]
  | .getpwr k => [toString k]
  | .peakre lo hi => [toString lo, toString hi]
  | .peakpw lo hi => [toString lo, toString hi]
  | .nop => []
  | .srst => []
  | .loadRect => []
  | .loadHann => []
  | .loadHamm => []
  | .dft => []
  | .power => []
  | .melfb => []
  | .dct => []
  | .frame => []
  | .mfcc => []

/-- The assembler text of a command: its mnemonic, then its operands separated by commas (R98). -/
def Instr.assembly (i : Instr) : String :=
  match i.operands with
  | [] => i.mnemonic
  | ops => i.mnemonic ++ " " ++ String.intercalate ", " ops

/-- `CACC zd, za` is `CADD zd, zd, za` (R155, R99). -/
def caccCommand (zd za : ZReg) : Instr := .cadd zd zd za

/-- `FRAME.MAXRE` is `PEAKRE 1, 256` (R99, R198). -/
def frameMaxRe : Instr := .peakre 1 256

/-- `FRAME.MAXPW` is `PEAKPW 2, 256` (R99, R198). -/
def frameMaxPw : Instr := .peakpw 2 256

/-- `SA.MAXRE` is `PEAKRE 1, 512` (R99, R198). -/
def saMaxRe : Instr := .peakre 1 512

/-- `SA.CALC.RECT` is `LOAD.RECT ; DFT` (R99). -/
def saCalcRect : List Instr := [.loadRect, .dft]

/-- `SA.CALC.HANN` is `LOAD.HANN ; DFT` (R99). -/
def saCalcHann : List Instr := [.loadHann, .dft]

/-- `SA.CALC0` is `DFT` (R99). -/
def saCalc0 : List Instr := [.dft]

end Sys2Proof
end

