-- ==== Sys2Proof/Config.lean ====
section
/-! DEFINITION. What an implementation of DDFT fixes (the parameters of spec 00_scope.md R8 and R9) and the values the spec
leaves free. A parameter the spec marks "argument" is an OPAQUE constant without a body: no proof can see its value, so
every theorem holds for every value. The guaranteed properties of a parameter are not assumed here: they are built in by the
definitions that use it (Machine/Elementary.lean, Machine/Mel.lean), each of which takes exactly the values that have the
property as they are. Log entries 7, 10 to 16. -/

namespace Sys2Proof.Config

/-- `N`, the frame length and the number of bins (R8). -/
def frameLength : Nat := 512

/-- `NMFCC`, the number of cepstral coefficients (R8). -/
def cepstraCount : Nat := 12

/-- `NFILT`, the number of Mel filters, fixed in this version (R9, R212). -/
def filterCount : Nat := 26

/-- The size of the register window in bytes (R60). -/
def windowBytes : Nat := 0x6000

/-- `BASE` divided by 4: BASE is an open parameter and a multiple of 4 (R60). Log entry 7. -/
opaque baseWords : Nat

/-- `BASE`, the byte address of the register window in the host's address space (R60). No rule depends on it. -/
def base : Nat := 4 * baseWords

/-- `MEL_PRESENT`: whether the Mel/DCT stages are implemented (R210). Log entry 16. -/
opaque melPresent : Bool

/-- The configured table `MEL_EDGE[0..27]` (R213); `Machine.melEdges` takes it when it is a legal table. Log entry 14. -/
opaque melEdgeTable : List Nat

/-- The configured `MEL_ZERO_SUBST` (R216); `Machine.melZeroSubst` takes it when it is not a zero. Log entry 15. -/
opaque melZeroSubst : F64

/-- `HAMMING_A0`, a parameter with reference value 0.54 (R172). Log entry 16. -/
opaque hammingA0 : F64

/-- `HAMMING_A1`, a parameter with reference value 0.46 (R172). Log entry 16. -/
opaque hammingA1 : F64

/-- The raw cosine unit: `Machine.cosUnit` gives it the properties R129 guarantees. Log entry 12. -/
opaque cosRaw : F64 → F64

/-- The raw sine unit: `Machine.sinUnit` gives it the properties R129 guarantees. Log entry 12. -/
opaque sinRaw : F64 → F64

/-- The raw natural-logarithm unit: `Machine.logUnit` gives it the properties R130 guarantees. Log entry 13. -/
opaque logRaw : F64 → F64

/-- The binary64 operations that can return a NaN of their own (R124). -/
inductive FloatOp where
  | add
  | mul
  | div
  | sqrt
deriving DecidableEq, Repr

/-- The draw `NAN_RESULT`: which quiet NaN an operation returns for the operands it is given (R124); `Machine.nanResult`
keeps its sign and payload and makes it a quiet NaN. `fsqrt` gives its one operand twice. Log entry 11. -/
opaque nanDraw : FloatOp → F64 → F64 → F64

/-- The unspecified contents of the buffers after the `n`-th hardware reset event: the byte at a window offset (R44, R260,
"not necessarily the same on two resets"). Log entry 10. -/
opaque resetByte : Nat → Nat → Byte

/-- The unspecified contents of the complex registers after the `n`-th hardware reset event: half `h` of register `i` is
the draw `2 * i + h` (R44, R260). Log entry 10. -/
opaque resetHalf : Nat → Nat → F64

end Sys2Proof.Config
end

