-- ==== Sys2Proof/Machine/Float.lean ====
section
/-! DEFINITION. The binary64 arithmetic of DDFT (40_numerics.md): the format (R120), the operations rounded once to nearest,
ties to even (R121, R122), NaN, infinities, subnormals and signed zeros (R124, R125, R127), `fneg` and `float` (R128), the
comparisons (R132) and the constants (R131). Every finite datum is an integer multiple of 2^-1074, so magnitudes are natural
numbers counted in that unit and one rounding function serves every operation. -/

namespace Sys2Proof.Machine

/-- Bit 63, the sign (R120). -/
def fsign (x : F64) : Bool := x.getLsbD 63

/-- Bits 62:52, the biased exponent (R120). -/
def fexp (x : F64) : Nat := (x.extractLsb' 52 11).toNat

/-- Bits 51:0, the fraction (R120). -/
def ffrac (x : F64) : Nat := (x.extractLsb' 0 52).toNat

/-- Bits 62:0, the pattern without its sign. -/
def fbody (x : F64) : Nat := (x.extractLsb' 0 63).toNat

/-- `e = 2047, f != 0` (R120). -/
def isNaN (x : F64) : Bool := fexp x == 2047 && ffrac x != 0

/-- `e = 2047, f = 0` (R120). -/
def isInf (x : F64) : Bool := fexp x == 2047 && ffrac x == 0

/-- Zero, subnormal or normal (R120). -/
def isFinite (x : F64) : Bool := fexp x != 2047

/-- `e = 0, f = 0`: `+0.0` or `-0.0` (R120). -/
def isZero (x : F64) : Bool := fexp x == 0 && ffrac x == 0

/-- A quiet NaN has bit 51 set (R120). -/
def isQuietNaN (x : F64) : Bool := isNaN x && x.getLsbD 51

/-- How many units of 2^-1074 make 1.0. -/
def unitsPerOne : Nat := 2 ^ 1074

/-- The magnitude of a finite datum in units of 2^-1074: `f` when subnormal, `(2^52 + f) * 2^(e-1)` when normal (R120). -/
def fmag (x : F64) : Nat := if fexp x = 0 then ffrac x else (2 ^ 52 + ffrac x) * 2 ^ (fexp x - 1)

/-- The value of a finite datum in units of 2^-1074. -/
def fint (x : F64) : Int := if fsign x then -(fmag x : Int) else (fmag x : Int)

/-- The body bits of an infinity (R120). -/
def infBody : Nat := 2047 * 2 ^ 52

/-- The body bits of the binary64 nearest to `num / den` units of 2^-1074, ties to even, infinity on overflow (R121, R125).
`step` is the weight of the last place at that size: 1 in the subnormal range and in the first normal binade, doubling with
every binade above it. The exponent field needs no case: a quotient of at least 2^52 steps carries into it. -/
def roundBody (num den : Nat) : Nat :=
  let places := Nat.log2 (num / den) - 52
  let step := den * 2 ^ places
  let q := num / step
  let r := num % step
  let n := if step < 2 * r ∨ (2 * r = step ∧ q % 2 = 1) then q + 1 else q
  min (places * 2 ^ 52 + n) infBody

/-- A datum from its sign and its body bits. -/
def packF64 (neg : Bool) (body : Nat) : F64 := BitVec.ofNat 64 ((if neg then 2 ^ 63 else 0) + body)

/-- `+0.0`. -/
def fzero : F64 := 0x0000000000000000#64

/-- `1.0`. -/
def fone : F64 := 0x3FF0000000000000#64

/-- An infinity of the given sign. -/
def finf (neg : Bool) : F64 := packF64 neg infBody

/-- A quiet NaN with the sign and payload of a pattern: exponent all ones and bit 51 set (R120, R124). -/
def quietNaN (x : F64) : F64 := x ||| 0x7FF8000000000000#64

/-- The NaN an operation returns: a draw among the quiet NaNs (R124). Log entry 11. -/
def nanResult (op : Config.FloatOp) (a b : F64) : F64 := quietNaN (Config.nanDraw op a b)

/-- `fneg` flips bit 63 and nothing else (R128). -/
def fneg (x : F64) : F64 := x ^^^ 0x8000000000000000#64

/-- The pattern with bit 63 cleared. -/
def fabs (x : F64) : F64 := x &&& 0x7FFFFFFFFFFFFFFF#64

/-- The sum of two finite data: exact, rounded once (R121); an exact zero is `-0.0` only for two zeros of negative sign
(R127). -/
def faddFinite (a b : F64) : F64 :=
  let s := fint a + fint b
  packF64 (if s = 0 then fsign a && fsign b else decide (s < 0)) (roundBody s.natAbs 1)

/-- `fadd` (R121, R124, R125, R127). -/
def fadd (a b : F64) : F64 :=
  if isNaN a || isNaN b then nanResult .add a b
  else if isInf a then (if isInf b && fsign a != fsign b then nanResult .add a b else a)
  else if isInf b then b
  else faddFinite a b

/-- `fsub(a,b)` is `fadd(a, fneg(b))` (R121). -/
def fsub (a b : F64) : F64 := fadd a (fneg b)

/-- `fmul` (R121, R124, R125, R127). -/
def fmul (a b : F64) : F64 :=
  let neg := fsign a != fsign b
  if isNaN a || isNaN b then nanResult .mul a b
  else if isInf a || isInf b then (if isZero a || isZero b then nanResult .mul a b else finf neg)
  else packF64 neg (roundBody (fmag a * fmag b) unitsPerOne)

/-- `fdiv` (R121, R124, R125, R127). -/
def fdiv (a b : F64) : F64 :=
  let neg := fsign a != fsign b
  if isNaN a || isNaN b then nanResult .div a b
  else if isInf a then (if isInf b then nanResult .div a b else finf neg)
  else if isInf b then packF64 neg 0
  else if isZero b then (if isZero a then nanResult .div a b else finf neg)
  else packF64 neg (roundBody (fmag a * unitsPerOne) (fmag b))

/-- The integer square root of a number below `4 ^ fuel`, one binary digit per level. -/
def natSqrt : Nat → Nat → Nat
  | 0, _ => 0
  | fuel + 1, n =>
    let r := 2 * natSqrt fuel (n / 4)
    if (r + 1) * (r + 1) ≤ n then r + 1 else r

/-- The exact square root of a positive finite datum, rounded once (R122). The datum is `m * 2^k` units of 2^-1074 with
`m < 2^53`; `m` is scaled by an odd or even power of two so that the power left over has an even exponent and the integer
root has at least 55 bits; the half step added for an inexact root stands for the digits cut off, which lie strictly
between two neighbours. -/
def fsqrtFinite (a : F64) : F64 :=
  let m := if fexp a = 0 then ffrac a else 2 ^ 52 + ffrac a
  let k := fexp a - 1
  let odd := k % 2
  let scaled := m * 2 ^ (112 + odd)
  let root := natSqrt 83 scaled
  let rest := if root * root = scaled then 0 else 1
  packF64 false (roundBody ((2 * root + rest) * 2 ^ ((k - odd) / 2 + 480)) 1)

/-- `fsqrt` (R122): a zero and `+inf` are returned as they are, a negative number is invalid. -/
def fsqrt (a : F64) : F64 :=
  if isNaN a then nanResult .sqrt a a
  else if isZero a then a
  else if fsign a then nanResult .sqrt a a
  else if isInf a then a
  else fsqrtFinite a

/-- `float(n)` (R128): exact for every integer of magnitude below 2^53; `float(0) = +0.0`. -/
def ffloat (n : Int) : F64 := packF64 (decide (n < 0)) (roundBody (n.natAbs * unitsPerOne) 1)

/-- `float` of a natural number (R128). -/
def ffloatNat (n : Nat) : F64 := ffloat (n : Int)

/-- The order of the data that are not NaN, as an integer: the body bits with their sign, both zeros at 0. -/
def fkey (x : F64) : Int := if fsign x then -(fbody x : Int) else (fbody x : Int)

/-- `a > b`: the IEEE ordered comparison, false when either is a NaN (R132). -/
def fgt (a b : F64) : Bool := !isNaN a && !isNaN b && decide (fkey b < fkey a)

/-- `a == b`: the IEEE equality; `+0.0 == -0.0` is true, any comparison with a NaN is false (R132). -/
def feq (a b : F64) : Bool := !isNaN a && !isNaN b && decide (fkey a = fkey b)

/-- `PI` (R131). -/
def fPI : F64 := 0x400921FB54442D18#64

/-- `TWO_PI` (R131). -/
def fTWO_PI : F64 := 0x401921FB54442D18#64

/-- `HALF` (R131). -/
def fHALF : F64 := 0x3FE0000000000000#64

/-- `NEG_HALF` (R131). -/
def fNEG_HALF : F64 := 0xBFE0000000000000#64

/-- `INV_N` (R131). -/
def fINV_N : F64 := 0x3F60000000000000#64

/-- `F512` (R131). -/
def fF512 : F64 := 0x4080000000000000#64

/-- `F52` (R131). -/
def fF52 : F64 := 0x404A000000000000#64

/-- The reference value of `HAMMING_A0` (R131, R172). -/
def refHammingA0 : F64 := 0x3FE147AE147AE148#64

/-- The reference value of `HAMMING_A1` (R131, R172). -/
def refHammingA1 : F64 := 0x3FDD70A3D70A3D71#64

/-- The reference value of `MEL_ZERO_SUBST`, 2^-52 (R131, R216). -/
def refMelZeroSubst : F64 := 0x3CB0000000000000#64

end Sys2Proof.Machine
end

