-- ==== Sys2Proof/Machine/Elementary.lean ====
section
/-! DEFINITION. The elementary functions `COS`, `SIN` and `LOG` (40_numerics.md R129, R130). Each is a raw parameter of
Config to which the guaranteed properties are given by construction: a raw function that has the properties is taken as it
is, so the functions defined here range over exactly the functions that have them. The accuracy properties `TRIG_ACC` and
`LOG_ACC` are stated as propositions in Machine/Accuracy.lean and assumed nowhere. Log entries 12 and 13. -/

namespace Sys2Proof.Machine

/-- A NaN: the pattern itself when it is one, else the quiet NaN with its sign and payload. -/
def asNaN (y : F64) : F64 := if isNaN y then y else quietNaN y

/-- Finite and in `[-1.0, 1.0]` (`TRIG_RANGE`). -/
def inUnitRange (y : F64) : Bool := isFinite y && decide (fmag y ≤ unitsPerOne)

/-- `COS` (R129): `TRIG_ZERO`, `TRIG_RANGE`, `TRIG_SYM` (it reads the argument without its sign) and `TRIG_NONFINITE` hold
by construction; a raw value outside the range is replaced by 1.0, which no unit with `TRIG_RANGE` is affected by. -/
def cosUnit (x : F64) : F64 :=
  let y := Config.cosRaw (fabs x)
  if isZero x then fone
  else if isFinite x then (if inUnitRange y then y else fone)
  else asNaN y

/-- The sine of an argument of positive sign that is neither a zero nor a NaN. -/
def sinPositive (x : F64) : F64 :=
  let y := Config.sinRaw x
  if isFinite x then (if inUnitRange y then y else fzero) else asNaN y

/-- `SIN` (R129): `SIN(±0.0) = ±0.0`; odd in every argument that is not a NaN; a NaN for a NaN or an infinity. -/
def sinUnit (x : F64) : F64 :=
  if isZero x then x
  else if isNaN x then asNaN (Config.sinRaw x)
  else if fsign x then fneg (sinPositive (fabs x))
  else sinPositive x

/-- `LOG` (R130): `LOG_ONE` and `LOG_SPECIAL` hold by construction; the raw unit answers for every other argument. -/
def logUnit (x : F64) : F64 :=
  if isNaN x then asNaN (Config.logRaw x)
  else if isZero x then finf true
  else if fsign x then asNaN (Config.logRaw x)
  else if isInf x then x
  else if x = fone then fzero
  else Config.logRaw x

end Sys2Proof.Machine
end

