-- ==== Sys2Proof/Machine/Complex.lean ====
section
/-! DEFINITION. The complex functions `cadd`, `cmul`, `cmag`, `cexp` that the commands of the primitive and the transform
share (41_complex.md R151 to R154, 00_scope.md R14). -/

namespace Sys2Proof.Machine

/-- Component by component (R151). -/
def cadd (a b : Cplx) : Cplx := ⟨fadd a.re b.re, fadd a.im b.im⟩

/-- The standard complex product: four rounded products, one rounded difference, one rounded sum, in this order (R152). -/
def cmul (a b : Cplx) : Cplx :=
  ⟨fsub (fmul a.re b.re) (fmul a.im b.im), fadd (fmul a.re b.im) (fmul a.im b.re)⟩

/-- The sum of the squares of the two parts, each square and the sum rounded (R153, R191). -/
def normSquared (a : Cplx) : F64 := fadd (fmul a.re a.re) (fmul a.im a.im)

/-- The magnitude, without scaling (R153). -/
def cmag (a : Cplx) : F64 := fsqrt (normSquared a)

/-- The imaginary exponential of the imaginary part; the real part is ignored (R154). -/
def cexp (a : Cplx) : Cplx := ⟨cosUnit a.im, sinUnit a.im⟩

/-- `(+0.0, +0.0)`. -/
def czero : Cplx := ⟨fzero, fzero⟩

end Sys2Proof.Machine
end

