-- ==== Sys2Proof/Machine/State.lean ====
section
/-! DEFINITION. The state of DDFT as plain data (10_state.md), the accesses its one host has issued and not yet seen
performed, the reasons a step can stop, and the state after reset. -/

namespace Sys2Proof.Machine

/-- `STATUS.STAGE`: the six values of R23; 6 and 7 cannot be written down (93_implementation_defined.md U14). -/
inductive Stage where
  | empty
  | windowed
  | dft
  | power
  | mel
  | mfcc
deriving DecidableEq, Repr

/-- `STATUS.ERRCODE`: the four codes of R25 and R242; 4 to 15 cannot be written down (U14). -/
inductive ErrCode where
  | ok
  | unimpl
  | seq
  | illcmd
deriving DecidableEq, Repr

/-- The bytes of the six buffers `SMP`, `MEL`, `MFCC`, `PWR`, `XIN`, `XOUT` at their window offsets (R34 to R39, R61), as
cells of strictly rising offset in which no cell holds what an unlisted offset reads as (`Memory.Canonical`). -/
structure Memory where
  cells : List Host.Cell
deriving DecidableEq, Repr

/-- One host access to the register window: `MemRead(offset, size)` or `MemWrite(offset, size, v)`, the offset counted from
`BASE`, the size in bytes, `v` a value of that many bytes (R12). -/
inductive HostAccess where
  | read (offset size : Nat)
  | write (offset size : Nat) (v : BitVec (8 * size))
deriving DecidableEq, Repr

/-- What can reach DDFT from outside. -/
inductive BusEvent where
  /-- An access of the one host (R63). -/
  | host (a : HostAccess)
  /-- The hardware reset the platform delivers between two accesses (R260, R261). -/
  | reset
  /-- An access of a second agent, or one that arrives while a command runs: outside the contract (R75). -/
  | foreign (a : HostAccess)
deriving DecidableEq, Repr

/-- The result of a completed host access, as the host sees it (R63 to R67, R246). -/
inductive BusResponse where
  /-- A successful read: the word. -/
  | data (v : Word32)
  /-- A successful write, the ignored ones of R67 among them. -/
  | written
  /-- `BusError`: no data, no change of state (R246). -/
  | busError
deriving DecidableEq, Repr

/-- The machine. The first eleven fields are the architectural state of R20; the last three are the model's own (log entries
1, 4 and 10). `ID`, `CAP` and `CMD` hold nothing (R27 to R29), `BUSY` is always 0 (R45) and `MFCCCNT` is a function of
`STAGE` (R26). -/
structure State where
  /-- `Z[0]` (R21). -/
  z0 : Cplx
  /-- `Z[1]` (R21). -/
  z1 : Cplx
  /-- `Z[2]` (R21). -/
  z2 : Cplx
  /-- `Z[3]` (R21). -/
  z3 : Cplx
  /-- `STATUS.FAIL` (R25). -/
  fail : Bool
  /-- `STATUS.ERRCODE` (R25). -/
  errcode : ErrCode
  /-- `STATUS.STAGE` (R23). -/
  stage : Stage
  /-- `SILENCE`, a signed 16-bit integer (R30). -/
  silence : BitVec 16
  /-- `PEAKIDX`, 10 bits (R31). -/
  peakidx : BitVec 10
  /-- `PEAKVAL` (R32). -/
  peakval : F64
  /-- `RESULT` (R33). -/
  result : F64
  /-- The buffers (R34 to R39). -/
  mem : Memory
  /-- The model's own: what the outside has issued and DDFT has not yet performed, oldest first (R72). -/
  pending : List BusEvent
  /-- The model's own: the result of the most recent completed access. -/
  response : Option BusResponse
  /-- The model's own: how many hardware reset events have drawn unspecified contents (R44). -/
  draws : Nat
deriving DecidableEq, Repr

/-- Why the machine stops with a fault. No command ever faults. -/
inductive Fault where
  /-- Raised by the bus for an access at an offset of 0x6000 or above: it is "outside the window and ... not DDFT's to answer"
  (R61), so the spec gives DDFT no effect. Safe: the model stops where the platform would route the access elsewhere. -/
  | outsideWindow
deriving DecidableEq, Repr

/-- Why the machine refuses. -/
inductive Refusal where
  /-- Raised by an arm of `exec` that has no meaning yet. Safe. No arm of this model raises it. -/
  | notModelled (mnemonic : String)
  /-- Raised by the bus for an access of a second agent: "a model must refuse it (have no move for it)" (R75, U7). Safe. -/
  | concurrentAccess
deriving DecidableEq, Repr

/-- The machine right after a hardware reset (R44, R260): the stated registers at their stated values. `Z` and the buffers,
which the spec leaves unspecified, are zero (log entries 8 and 9); nothing is pending, nothing has been answered and nothing
has been drawn (log entry 17). -/
def State.reset : State where
  z0 := ⟨0#64, 0#64⟩
  z1 := ⟨0#64, 0#64⟩
  z2 := ⟨0#64, 0#64⟩
  z3 := ⟨0#64, 0#64⟩
  fail := false
  errcode := .ok
  stage := .empty
  silence := 0#16
  peakidx := 0#10
  peakval := 0#64
  result := 0#64
  mem := ⟨[]⟩
  pending := []
  response := none
  draws := 0

end Sys2Proof.Machine
end

