-- ==== Sys2Proof/Machine/Flags.lean ====
section
/-! DEFINITION. The STATUS register: the codes of its fields, the word a read returns (10_state.md R23 to R26, R45), and how a
command reports its end (60_exceptions.md R241). DDFT has no arithmetic flags (R126). -/

namespace Sys2Proof.Machine

/-- The value of `STAGE` (R23). -/
def Stage.code : Stage → Nat
  | .empty => 0
  | .windowed => 1
  | .dft => 2
  | .power => 3
  | .mel => 4
  | .mfcc => 5

/-- The value of `ERRCODE` (R25). -/
def ErrCode.code : ErrCode → Nat
  | .ok => 0
  | .unimpl => 1
  | .seq => 2
  | .illcmd => 3

/-- `MFCCCNT` reads 12 when `STAGE` is 5 and 0 otherwise (R26). -/
def mfccCount (g : Stage) : Nat := if g.code = 5 then Config.cepstraCount else 0

/-- The word a read of `STATUS` returns (R24): 31:16 zero, 15:12 `MFCCCNT`, 11 zero, 10:8 `STAGE`, 7:4 `ERRCODE`, 3:2 zero,
1 `BUSY` (always 0, R45), 0 `FAIL`. -/
def statusWord (s : State) : Word32 :=
  0#16 ++ BitVec.ofNat 4 (mfccCount s.stage) ++ 0#1 ++ BitVec.ofNat 3 s.stage.code ++ BitVec.ofNat 4 s.errcode.code ++
    0#2 ++ 0#1 ++ BitVec.ofBool s.fail

/-- `done`: the command has succeeded (R12, R25). -/
def State.succeed (s : State) : State := { s with fail := false, errcode := .ok }

/-- `fail(code)`: sets `FAIL` and `ERRCODE` and changes nothing else (R12, R241). The only exceptional event of a command;
there is no trap to enter and nothing to return from (R249, R250). -/
def State.failWith (s : State) (code : ErrCode) : State := { s with fail := true, errcode := code }

/-- A command sets `STAGE` to its own value whatever it was before (R23). -/
def State.setStage (s : State) (g : Stage) : State := { s with stage := g }

/-- How a command, or a step of a macro, ends: it ran, or a check failed with a code. -/
inductive Ended where
  | ran (s : State)
  | failed (code : ErrCode) (s : State)
deriving DecidableEq, Repr

/-- The next step of a macro, not attempted after a failure: what was written stays (R234). -/
def Ended.andThen (e : Ended) (next : State → Ended) : Ended :=
  match e with
  | .ran s => next s
  | .failed code s => .failed code s

/-- The report of a whole command: `done`, or `fail(code)` (R241). -/
def Ended.report : Ended → State
  | .ran s => s.succeed
  | .failed code s => s.failWith code

end Sys2Proof.Machine
end

