-- ==== Sys2Proof/Machine/Operands.lean ====
section
/-! DEFINITION. The operand forms of the commands (30_encoding.md R92): complex registers read and written whole, the four
words of a register, the bin number of `GETPWR` and the clipped scan range of the peak finders. -/

namespace Sys2Proof.Machine

/-- `Z[i]` (R12, R21). -/
def State.getZ (s : State) : ZReg → Cplx
  | .z0 => s.z0
  | .z1 => s.z1
  | .z2 => s.z2
  | .z3 => s.z3

/-- `Z[i] <- v` (R12, R21). -/
def State.setZ (s : State) (r : ZReg) (v : Cplx) : State :=
  match r with
  | .z0 => { s with z0 := v }
  | .z1 => { s with z1 := v }
  | .z2 => { s with z2 := v }
  | .z3 => { s with z3 := v }

/-- The register that holds the words `4 * i .. 4 * i + 3` of the register file's 16 words (R21). -/
def zregOfIndex (i : Nat) : ZReg :=
  match i with
  | 0 => .z0
  | 1 => .z1
  | 2 => .z2
  | _ => .z3

/-- The low or the high word of a binary64 replaced (R67, R68). -/
def replaceWord (x : F64) (high : Bool) (w : Word32) : F64 :=
  if high then w ++ lowWord x else highWord x ++ w

/-- Word `j` (0 to 3: re low, re high, im low, im high) of a complex value (R68). -/
def cplxWord (v : Cplx) (j : Nat) : Word32 :=
  match j with
  | 0 => lowWord v.re
  | 1 => highWord v.re
  | 2 => lowWord v.im
  | _ => highWord v.im

/-- A complex value with its word `j` replaced (R67, R68). -/
def cplxSetWord (v : Cplx) (j : Nat) (w : Word32) : Cplx :=
  match j with
  | 0 => { v with re := replaceWord v.re false w }
  | 1 => { v with re := replaceWord v.re true w }
  | 2 => { v with im := replaceWord v.im false w }
  | _ => { v with im := replaceWord v.im true w }

/-- The bin a `GETPWR k` selects: `k` itself below 512, no bin otherwise (R192). -/
def binOf (k : Nat) : Option Nat := if k < 512 then some k else none

/-- The bins of the scan range `[lo, min(hi, 512))`, ascending; empty when `lo >= min(hi, 512)` (R195). -/
def scanBins (lo hi : Nat) : List Nat := List.range' lo (min hi 512 - lo)

end Sys2Proof.Machine
end

