-- ==== Sys2Proof/Machine/Primitive.lean ====
section
/-! DEFINITION. The commands of the complex primitive: `CADD`, `CMUL`, `CMAG`, `CEXP` (41_complex.md R151 to R154). All sources
are read before the destination is written, so a destination may be a source (R157). None of them can fail. -/

namespace Sys2Proof.Machine

/-- `CADD zd, za, zb` (R151). -/
def execCadd (zd za zb : ZReg) (s : State) : Host.Outcome State Fault Refusal :=
  .next ((s.setZ zd (cadd (s.getZ za) (s.getZ zb))).succeed)

/-- `CMUL zd, za, zb` (R152). -/
def execCmul (zd za zb : ZReg) (s : State) : Host.Outcome State Fault Refusal :=
  .next ((s.setZ zd (cmul (s.getZ za) (s.getZ zb))).succeed)

/-- `CMAG za`: the result goes to `RESULT`; no complex register is written (R153). -/
def execCmag (za : ZReg) (s : State) : Host.Outcome State Fault Refusal :=
  .next { s with result := cmag (s.getZ za) }.succeed

/-- `CEXP zd, za` (R154). -/
def execCexp (zd za : ZReg) (s : State) : Host.Outcome State Fault Refusal :=
  .next ((s.setZ zd (cexp (s.getZ za))).succeed)

end Sys2Proof.Machine
end

