-- ==== Sys2Proof/Machine/Ops.lean ====
section
/-! DEFINITION. The operations on the buffers' memory (20_memory.md R62, R70): one read of a byte, one store of a run of
bytes, the data of each width in little-endian order, the elements of each buffer, and the unspecified contents a hardware
reset leaves (70_reset_and_hazards.md R260). -/

namespace Sys2Proof.Machine

/-- What an offset no cell lists reads as. DESIGN CHOICE, unsafe: the spec leaves it unspecified (R44). Log entry 9. -/
def unlistedByte : Byte := 0#8

/-- The first cell at an offset. -/
def cellAt : List Host.Cell → Nat → Byte
  | [], _ => unlistedByte
  | c :: cs, a => if c.1 = a then c.2 else cellAt cs a

/-- The byte at a window offset. -/
def Memory.byte (m : Memory) (a : Nat) : Byte := cellAt m.cells a

/-- The cells of a run of bytes from an offset, in canonical form. -/
def cellsFrom : Nat → List Byte → List Host.Cell
  | _, [] => []
  | a, b :: bs => if b = unlistedByte then cellsFrom (a + 1) bs else (a, b) :: cellsFrom (a + 1) bs

/-- The memory with a run of bytes stored from an offset: the cells below it, the run, the cells above it. -/
def Memory.store (m : Memory) (a : Nat) (bs : List Byte) : Memory :=
  ⟨m.cells.filter (fun c => decide (c.1 < a)) ++ cellsFrom a bs ++ m.cells.filter (fun c => decide (a + bs.length ≤ c.1))⟩

/-- The canonical form: offsets strictly rising, no cell equal to what its offset reads as unlisted. -/
abbrev Memory.Canonical (m : Memory) : Prop :=
  m.cells.Pairwise (fun c d => c.1 < d.1) ∧ ∀ c ∈ m.cells, c.2 ≠ unlistedByte

/-- The bytes of a 16-bit sample, little-endian (R62). -/
def bytes16 (v : BitVec 16) : List Byte := [v.extractLsb' 0 8, v.extractLsb' 8 8]

/-- The bytes of a 32-bit word, little-endian (R62). -/
def bytes32 (v : Word32) : List Byte :=
  [v.extractLsb' 0 8, v.extractLsb' 8 8, v.extractLsb' 16 8, v.extractLsb' 24 8]

/-- The bytes of a binary64, low word first (R62). -/
def bytes64 (v : F64) : List Byte := bytes32 (lowWord v) ++ bytes32 (highWord v)

/-- The bytes of a complex element, real part first (R68). -/
def bytesCplx (v : Cplx) : List Byte := bytes64 v.re ++ bytes64 v.im

/-- The 16-bit sample at an offset (R62). -/
def Memory.half (m : Memory) (a : Nat) : BitVec 16 := m.byte (a + 1) ++ m.byte a

/-- The 32-bit word at an offset (R62). -/
def Memory.word (m : Memory) (a : Nat) : Word32 := m.byte (a + 3) ++ m.byte (a + 2) ++ m.byte (a + 1) ++ m.byte a

/-- The binary64 at an offset (R62). -/
def Memory.f64 (m : Memory) (a : Nat) : F64 := m.word (a + 4) ++ m.word a

/-- The complex element at an offset (R68). -/
def Memory.cplx (m : Memory) (a : Nat) : Cplx := ⟨m.f64 a, m.f64 (a + 8)⟩

/-- The offset of `SMP[0]` (R34). -/
def smpBase : Nat := 0x0400

/-- The offset of `MEL[0]` (R38). -/
def melBase : Nat := 0x0800

/-- The offset of `MFCC[0]` (R39). -/
def mfccBase : Nat := 0x0900

/-- The offset of `PWR[0]` (R37). -/
def pwrBase : Nat := 0x1000

/-- The offset of `XIN[0]` (R35). -/
def xinBase : Nat := 0x2000

/-- The offset of `XOUT[0]` (R36). -/
def xoutBase : Nat := 0x4000

/-- The offsets that lie in a buffer (R61). -/
def inBuffers (a : Nat) : Bool :=
  (smpBase ≤ a && a < smpBase + 1024) || (melBase ≤ a && a < melBase + 208) || (mfccBase ≤ a && a < mfccBase + 96) ||
    (pwrBase ≤ a && a < pwrBase + 4096) || (xinBase ≤ a && a < xinBase + 8192) || (xoutBase ≤ a && a < xoutBase + 8192)

/-- `SMP[i]` (R34, R70). -/
def State.smp (s : State) (i : Nat) : BitVec 16 := s.mem.half (smpBase + 2 * i)

/-- `XIN[i]` (R35). -/
def State.xin (s : State) (i : Nat) : Cplx := s.mem.cplx (xinBase + 16 * i)

/-- `XOUT[k]` (R36). -/
def State.xout (s : State) (k : Nat) : Cplx := s.mem.cplx (xoutBase + 16 * k)

/-- `PWR[k]` (R37). -/
def State.pwr (s : State) (k : Nat) : F64 := s.mem.f64 (pwrBase + 8 * k)

/-- `MEL[m]` (R38). -/
def State.mel (s : State) (m : Nat) : F64 := s.mem.f64 (melBase + 8 * m)

/-- `MFCC[n]` (R39). -/
def State.mfcc (s : State) (n : Nat) : F64 := s.mem.f64 (mfccBase + 8 * n)

/-- The 512 samples of the frame (R34). -/
def State.smpAll (s : State) : List (BitVec 16) := (List.range 512).map s.smp

/-- The 512 elements of `XIN` (R35). -/
def State.xinAll (s : State) : List Cplx := (List.range 512).map s.xin

/-- The 512 bins of `XOUT` (R36). -/
def State.xoutAll (s : State) : List Cplx := (List.range 512).map s.xout

/-- The 512 values of `PWR` (R37). -/
def State.pwrAll (s : State) : List F64 := (List.range 512).map s.pwr

/-- The 26 log energies of `MEL` (R38). -/
def State.melAll (s : State) : List F64 := (List.range 26).map s.mel

/-- Complex elements written from an offset, one after the other. -/
def State.storeCplxs (s : State) (a : Nat) (vs : List Cplx) : State :=
  { s with mem := s.mem.store a (vs.flatMap bytesCplx) }

/-- Binary64 elements written from an offset, one after the other. -/
def State.storeF64s (s : State) (a : Nat) (vs : List F64) : State :=
  { s with mem := s.mem.store a (vs.flatMap bytes64) }

/-- A 32-bit word of a buffer written (R67). -/
def State.storeWord (s : State) (a : Nat) (w : Word32) : State := { s with mem := s.mem.store a (bytes32 w) }

/-- The unspecified buffer contents of the `n`-th hardware reset event: any byte at each offset of a buffer (R44, R260). -/
def unspecifiedMemory (n : Nat) : Memory :=
  ⟨((List.range Config.windowBytes).filter inBuffers).filterMap fun a =>
    if Config.resetByte n a = unlistedByte then none else some (a, Config.resetByte n a)⟩

/-- The unspecified contents of a complex register after the `n`-th hardware reset event (R44, R260). -/
def unspecifiedZ (n i : Nat) : Cplx := ⟨Config.resetHalf n (2 * i), Config.resetHalf n (2 * i + 1)⟩

/-- The hardware reset event of R260 and R261: the registers of R44 take their stated values whatever they were before; `Z`
and the buffers hold unspecified values, a fresh draw. The accesses still pending stay pending. -/
def State.hardwareReset (s : State) : State :=
  { s with
    z0 := unspecifiedZ s.draws 0
    z1 := unspecifiedZ s.draws 1
    z2 := unspecifiedZ s.draws 2
    z3 := unspecifiedZ s.draws 3
    fail := false
    errcode := .ok
    stage := .empty
    silence := 0#16
    peakidx := 0#10
    peakval := fzero
    result := fzero
    mem := unspecifiedMemory s.draws
    response := none
    draws := s.draws + 1 }

end Sys2Proof.Machine
end

