-- ==== Sys2Proof/Machine/Dft.lean ====
section
/-! DEFINITION. The direct DFT: twiddle generation, inner-product accumulation and the command `DFT` (43_dft.md R181 to
R183). -/

namespace Sys2Proof.Machine

/-- The angle `2π·k·t/N` of the exact, unreduced integer product (R182 (a), (b)). -/
def twiddleAngle (p : Nat) : F64 := fdiv (fmul fTWO_PI (ffloatNat p)) fF512

/-- The twiddle factor of bin `k` and index `t`; the sign is applied to the angle (R182 (c)). -/
def twiddle (k t : Nat) : Cplx := cexp ⟨fzero, fneg (twiddleAngle (k * t))⟩

/-- One step of the accumulation: sample first, twiddle second, then one rounded complex addition (R183).
DESIGN CHOICE (log entry 27): of an infinity in the frame R181 (f) says that it makes the affected component of every bin a NaN,
while the pseudocode of R183 with R125 and R152 gives an infinity in a part where no invalid operation occurs. The model follows
the pseudocode. -/
def dftAccumulate (k : Nat) (acc : Cplx) (p : Cplx × Nat) : Cplx := cadd acc (cmul p.1 (twiddle k p.2))

/-- The inner product of bin `k`: from `(+0.0, +0.0)`, in ascending order of the index (R183). -/
def dftBin (xs : List Cplx) (k : Nat) : Cplx := xs.zipIdx.foldl (dftAccumulate k) czero

/-- The 512 bins of a frame (R181). -/
def dftFrame (xs : List Cplx) : List Cplx := (List.range 512).map (dftBin xs)

/-- `DFT`: no stage precondition; all 512 elements of `XOUT` are overwritten (R181). -/
def performDft (s : State) : Ended := .ran ((s.storeCplxs xoutBase (dftFrame s.xinAll)).setStage .dft)

/-- `DFT` (R181). -/
def execDft (s : State) : Host.Outcome State Fault Refusal := .next (performDft s).report

end Sys2Proof.Machine
end

