-- ==== Sys2Proof/Machine/Mel.lean ====
section
/-! DEFINITION. The Mel filterbank and the DCT of the log energies: `MELFB`, `DCT` (45_mel_dct.md R210 to R219). The stages are
written over the parameters they use, so that they can be stated for any value; the commands pass the configured ones. -/

namespace Sys2Proof.Machine

/-- The reference table of `MEL_EDGE` (R213). -/
def refMelEdges : List Nat :=
  [0, 2, 5, 8, 12, 16, 20, 24, 29, 34, 40, 46, 53, 60, 68, 76, 86, 96, 107, 118, 131, 145, 160, 176, 194, 213, 234, 256]

/-- What `MEL_EDGE` must satisfy: 28 bin numbers, strictly increasing, at most 256 (R213). -/
def legalEdges (es : List Nat) : Bool :=
  es.length == 28 && decide (es.Pairwise (· < ·)) && es.all (fun e => decide (e ≤ 256))

/-- The configured edge table: every legal table is taken as it is (R213). Log entry 14. -/
def melEdges : List Nat := if legalEdges Config.melEdgeTable then Config.melEdgeTable else refMelEdges

/-- The configured substitute for a zero energy: every value that is not a zero is taken as it is, for `LOG` is never given
a zero (R130, R216). Log entry 15. -/
def melZeroSubst : F64 := if isZero Config.melZeroSubst then refMelZeroSubst else Config.melZeroSubst

/-- The weight of bin `k` in the filter with edges `l`, `c`, `r`, for `l < k < r` (R215). -/
def melWeight (l c r k : Nat) : F64 :=
  if k < c then fdiv (ffloatNat (k - l)) (ffloatNat (c - l))
  else if k = c then fone
  else fdiv (ffloatNat (r - k)) (ffloatNat (r - c))

/-- The energy of the filter with edges `l`, `c`, `r`: the running sum over the open interval, ascending (R216). -/
def melEnergy (l c r : Nat) (ps : List F64) : F64 :=
  (List.range' (l + 1) (r - 1 - l)).foldl (fun e k => fadd e (fmul (melWeight l c r k) (ps.getD k fzero))) fzero

/-- The logarithm of an energy, an energy of exactly zero replaced first (R216). -/
def melLog (subst e : F64) : F64 := logUnit (if feq e fzero then subst else e)

/-- The log energy of filter `m` (R216). -/
def melValue (edges : List Nat) (subst : F64) (ps : List F64) (m : Nat) : F64 :=
  melLog subst (melEnergy (edges.getD m 0) (edges.getD (m + 1) 0) (edges.getD (m + 2) 0) ps)

/-- The 26 log energies of a power spectrum (R214). -/
def melFrame (edges : List Nat) (subst : F64) (ps : List F64) : List F64 :=
  (List.range 26).map (melValue edges subst ps)

/-- The DCT angle of the exact integer `n·(2m+1)`: one rounded product, one rounded division by 52 (R219). -/
def dctAngle (n m : Nat) : F64 := fdiv (fmul fPI (ffloatNat (n * (2 * m + 1)))) fF52

/-- Coefficient `n` of the Type-II DCT: the running sum from `+0.0` in ascending order of `m` (R219). -/
def dctCoefficient (es : List F64) (n : Nat) : F64 :=
  es.zipIdx.foldl (fun a p => fadd a (fmul p.1 (cosUnit (dctAngle n p.2)))) fzero

/-- The 12 cepstral coefficients (R218, R219). -/
def dctFrame (es : List F64) : List F64 := (List.range 12).map (dctCoefficient es)

/-- `MELFB` with its parameters: `UNIMPL` before `SEQ` (R214, R217, R244). -/
def performMelfbWith (present : Bool) (edges : List Nat) (subst : F64) (s : State) : Ended :=
  if present = false then .failed .unimpl s
  else if s.stage.code < 3 then .failed .seq s
  else .ran ((s.storeF64s melBase (melFrame edges subst s.pwrAll)).setStage .mel)

/-- `DCT` with its parameter: `UNIMPL` before `SEQ` (R217, R218, R244). -/
def performDctWith (present : Bool) (s : State) : Ended :=
  if present = false then .failed .unimpl s
  else if s.stage.code < 4 then .failed .seq s
  else .ran ((s.storeF64s mfccBase (dctFrame s.melAll)).setStage .mfcc)

/-- `MELFB` as configured (R210, R214). -/
def performMelfb (s : State) : Ended := performMelfbWith Config.melPresent melEdges melZeroSubst s

/-- `DCT` as configured (R210, R218). -/
def performDct (s : State) : Ended := performDctWith Config.melPresent s

/-- `MELFB` (R214). -/
def execMelfb (s : State) : Host.Outcome State Fault Refusal := .next (performMelfb s).report

/-- `DCT` (R218). -/
def execDct (s : State) : Host.Outcome State Fault Refusal := .next (performDct s).report

end Sys2Proof.Machine
end

