-- ==== Sys2Proof/Machine/Power.lean ====
section
/-! DEFINITION. The periodogram, the single-bin query and the two peak finders: `POWER`, `GETPWR`, `PEAKRE`, `PEAKPW`
(44_power_peak.md R190 to R198). -/

namespace Sys2Proof.Machine

/-- The periodogram value of a bin, `(1/N)·|z|²` without a square root (R191).
DESIGN CHOICE (log entry 28): R191 says that the value is `+0.0` only when both squares underflow to zero or both parts are
zeros, while its formula gives `+0.0` also when only the scaling by 2^-9 underflows. The model follows the formula. -/
def binPower (z : Cplx) : F64 := fmul (normSquared z) fINV_N

/-- `POWER`: refused below stage `DFT`; all 512 elements of `PWR` are overwritten (R190, R243). -/
def performPower (s : State) : Ended :=
  if s.stage.code < 2 then .failed .seq s
  else .ran ((s.storeF64s pwrBase (s.xoutAll.map binPower)).setStage .power)

/-- `POWER` (R190). -/
def execPower (s : State) : Host.Outcome State Fault Refusal := .next (performPower s).report

/-- The power `GETPWR k` delivers: of the bin, or `+0.0` where `k` selects none (R192). -/
def selectedPower (k : Nat) (s : State) : F64 :=
  match binOf k with
  | some b => binPower (s.xout b)
  | none => fzero

/-- `GETPWR k`: from `XOUT` as it stands, no stage check, no failure (R192). -/
def execGetpwr (k : Nat) (s : State) : Host.Outcome State Fault Refusal :=
  .next { s with result := selectedPower k s }.succeed

/-- One step of the scan: a strictly greater value replaces the best (R195). -/
def scanStep (v : Nat → F64) (best : F64 × Nat) (k : Nat) : F64 × Nat := if fgt (v k) best.1 then (v k, k) else best

/-- The scan of R195 from `+0.0` and index 0 over the bins of the range, ascending. -/
def scan (v : Nat → F64) (lo hi : Nat) : F64 × Nat := (scanBins lo hi).foldl (scanStep v) (fzero, 0)

/-- The result of a scan delivered to `PEAKVAL` and `PEAKIDX` (R195). -/
def State.setPeak (s : State) (best : F64 × Nat) : State :=
  { s with peakval := best.1, peakidx := BitVec.ofNat 10 best.2 }

/-- `PEAKRE lo, hi`: the real parts of `XOUT` (R196). -/
def execPeakre (lo hi : Nat) (s : State) : Host.Outcome State Fault Refusal :=
  .next (s.setPeak (scan (fun k => (s.xout k).re) lo hi)).succeed

/-- `PEAKPW lo, hi`: the stored power spectrum (R197). -/
def execPeakpw (lo hi : Nat) (s : State) : Host.Outcome State Fault Refusal :=
  .next (s.setPeak (scan s.pwr lo hi)).succeed

end Sys2Proof.Machine
end

