-- ==== Sys2Proof/Machine/Window.lean ====
section
/-! DEFINITION. The window functions and the three forms of `LOAD` (42_window.md R170 to R174). -/

namespace Sys2Proof.Machine

/-- The window angle `2π·i/N`: one rounded product, then the exact division by 512 (R174). -/
def windowAngle (i : Nat) : F64 := fdiv (fmul fTWO_PI (ffloatNat i)) fF512

/-- The Hann window: the fixed 0.5 at index 0, "NOT the formula", and the raised cosine from index 1 (R171;
90_conflicts.md C1). -/
def hannWindow (i : Nat) : F64 :=
  if i = 0 then fHALF else fadd (fmul fNEG_HALF (cosUnit (windowAngle i))) fHALF

/-- The angle of the Hamming window: `+0.0` at index 0 (R172). -/
def hammingAngle (i : Nat) : F64 := if i = 0 then fzero else windowAngle i

/-- The Hamming window with coefficients `a0` and `a1`; no special case at index 0 (R172). -/
def hammingWindow (a0 a1 : F64) (i : Nat) : F64 := fadd (fmul (fneg a1) (cosUnit (hammingAngle i))) a0

/-- The sample less the silence baseline, as an exact integer that does not wrap (R133, R170). -/
def sampleDifference (silence sample : BitVec 16) : Int := sample.toInt - silence.toInt

/-- Sample `i` of the frame under a window, given its difference as a binary64 (R170); `RECT` copies it unscaled (R173). -/
def windowed (w : Window) (i : Nat) (f : F64) : F64 :=
  match w with
  | .rect => f
  | .hann => fmul (hannWindow i) f
  | .hamm => fmul (hammingWindow Config.hammingA0 Config.hammingA1 i) f

/-- The windowed frame, "a complex value with zero imaginary part" per sample (R170). -/
def windowedFrame (w : Window) (silence : BitVec 16) (samples : List (BitVec 16)) : List Cplx :=
  samples.zipIdx.map fun p => ⟨windowed w p.2 (ffloat (sampleDifference silence p.1)), fzero⟩

/-- `LOAD` under a window: all 512 elements of `XIN` are overwritten and `STAGE` becomes `WINDOWED`; it cannot fail
(R170). -/
def performLoad (w : Window) (s : State) : Ended :=
  .ran ((s.storeCplxs xinBase (windowedFrame w s.silence s.smpAll)).setStage .windowed)

/-- `LOAD.RECT` (R170, R173). -/
def execLoadRect (s : State) : Host.Outcome State Fault Refusal := .next (performLoad .rect s).report

/-- `LOAD.HANN` (R170, R171). -/
def execLoadHann (s : State) : Host.Outcome State Fault Refusal := .next (performLoad .hann s).report

/-- `LOAD.HAMM` (R170, R172). -/
def execLoadHamm (s : State) : Host.Outcome State Fault Refusal := .next (performLoad .hamm s).report

end Sys2Proof.Machine
end

