-- ==== Sys2Proof/Machine/System.lean ====
section
/-! DEFINITION. The system commands `NOP` and `SRST` and the macros `FRAME` and `MFCC` (46_system_macro.md R230 to R234). -/

namespace Sys2Proof.Machine

/-- `NOP`: nothing but the report of success, which clears an earlier failure (R230). -/
def execNop (s : State) : Host.Outcome State Fault Refusal := .next s.succeed

/-- The five registers of `SRST` at their reset values; `Z` and the buffers keep their contents (R231). -/
def State.softReset (s : State) : State :=
  { s with stage := .empty, silence := 0#16, peakidx := 0#10, peakval := fzero, result := fzero }

/-- `SRST` (R231). -/
def execSrst (s : State) : Host.Outcome State Fault Refusal := .next s.softReset.succeed

/-- `FRAME`: `LOAD.HANN`, `DFT`, `POWER` (R232). -/
def performFrame (s : State) : Ended := ((performLoad .hann s).andThen performDft).andThen performPower

/-- `FRAME` (R232). -/
def execFrame (s : State) : Host.Outcome State Fault Refusal := .next (performFrame s).report

/-- `MFCC` with the parameters of its Mel steps: `FRAME`, `MELFB`, `DCT`, ended by the first failure, nothing undone (R233,
R234). -/
def performMfccWith (present : Bool) (edges : List Nat) (subst : F64) (s : State) : Ended :=
  ((performFrame s).andThen (performMelfbWith present edges subst)).andThen (performDctWith present)

/-- `MFCC` as configured (R210, R233). -/
def performMfcc (s : State) : Ended := ((performFrame s).andThen performMelfb).andThen performDct

/-- `MFCC` (R233). -/
def execMfcc (s : State) : Host.Outcome State Fault Refusal := .next (performMfcc s).report

end Sys2Proof.Machine
end

