-- ==== Sys2Proof/Machine/Dispatch.lean ====
section
/-! DEFINITION. The dispatch of a decoded command to its meaning, one arm per constructor of Instr. -/

namespace Sys2Proof.Machine

def exec (i : Instr) (s : State) : Host.Outcome State Fault Refusal :=
  match i with
  | .nop => Sys2Proof.Machine.execNop s
  | .srst => Sys2Proof.Machine.execSrst s
  | .cadd zd za zb => Sys2Proof.Machine.execCadd zd za zb s
  | .cmul zd za zb => Sys2Proof.Machine.execCmul zd za zb s
  | .cmag za => Sys2Proof.Machine.execCmag za s
  | .cexp zd za => Sys2Proof.Machine.execCexp zd za s
  | .loadRect => Sys2Proof.Machine.execLoadRect s
  | .loadHann => Sys2Proof.Machine.execLoadHann s
  | .loadHamm => Sys2Proof.Machine.execLoadHamm s
  | .dft => Sys2Proof.Machine.execDft s
  | .power => Sys2Proof.Machine.execPower s
  | .getpwr k => Sys2Proof.Machine.execGetpwr k s
  | .peakre lo hi => Sys2Proof.Machine.execPeakre lo hi s
  | .peakpw lo hi => Sys2Proof.Machine.execPeakpw lo hi s
  | .melfb => Sys2Proof.Machine.execMelfb s
  | .dct => Sys2Proof.Machine.execDct s
  | .frame => Sys2Proof.Machine.execFrame s
  | .mfcc => Sys2Proof.Machine.execMfcc s

end Sys2Proof.Machine
end

