-- ==== Sys2Proof/Machine/Bus.lean ====
section
/-! DEFINITION. The register window as the host sees it (20_memory.md R60 to R71): the map, the read of a word, the write of
a word, the errors, the command a write to `CMD` executes, and one event of the bus. -/

namespace Sys2Proof.Machine

/-- The named ranges of the map (R61). -/
inductive Region where
  | id
  | cap
  | cmd
  | status
  | silence
  | peakidx
  | peakval
  | result
  | z
  | smp
  | mel
  | mfcc
  | pwr
  | xin
  | xout
deriving DecidableEq, Repr

/-- The host's rights to a range (R61). -/
inductive Rights where
  | rw
  | ro
  | wo
deriving DecidableEq, Repr

/-- One row of the map (R61). -/
structure MapRow where
  region : Region
  base : Nat
  size : Nat
  rights : Rights
deriving DecidableEq, Repr

/-- The map of the register window; every offset in no row is unmapped (R61). -/
def windowMap : List MapRow := [
  ⟨.id, 0x0000, 4, .ro⟩,
  ⟨.cap, 0x0004, 4, .ro⟩,
  ⟨.cmd, 0x0008, 4, .wo⟩,
  ⟨.status, 0x000C, 4, .ro⟩,
  ⟨.silence, 0x0010, 4, .rw⟩,
  ⟨.peakidx, 0x0014, 4, .ro⟩,
  ⟨.peakval, 0x0018, 8, .ro⟩,
  ⟨.result, 0x0020, 8, .ro⟩,
  ⟨.z, 0x0040, 64, .rw⟩,
  ⟨.smp, smpBase, 1024, .rw⟩,
  ⟨.mel, melBase, 208, .ro⟩,
  ⟨.mfcc, mfccBase, 96, .ro⟩,
  ⟨.pwr, pwrBase, 4096, .ro⟩,
  ⟨.xin, xinBase, 8192, .rw⟩,
  ⟨.xout, xoutBase, 8192, .ro⟩]

/-- The row an offset lies in, none for an unmapped offset. -/
def rowAt (off : Nat) : Option MapRow := windowMap.find? fun r => decide (r.base ≤ off) && decide (off < r.base + r.size)

/-- `ID`, the bytes "DDFT" (R27). -/
def idWord : Word32 := 0x54464444#32

/-- `CAP` for a value of `MEL_PRESENT` (R28): `NMFCC` in 23:16, `NFILT` in 15:8, `LOG2N` in 7:4, `MEL` in 0. -/
def capWordOf (present : Bool) : Word32 :=
  0#8 ++ BitVec.ofNat 8 Config.cepstraCount ++ (if present then BitVec.ofNat 8 Config.filterCount else 0#8) ++ 9#4 ++ 0#3 ++
    BitVec.ofBool present

/-- `CAP` as configured (R28). -/
def capWord : Word32 := capWordOf Config.melPresent

/-- The low word of a 64-bit register at its base, the high word 4 bytes above (R32, R33, R62). -/
def halfAt (x : F64) (rel : Nat) : Word32 := if rel < 4 then lowWord x else highWord x

/-- The present value of the word `rel` bytes into a range (R66); `CMD` reads 0 (R29). -/
def readRegion (s : State) (g : Region) (off rel : Nat) : Word32 :=
  match g with
  | .id => idWord
  | .cap => capWord
  | .cmd => 0#32
  | .status => statusWord s
  | .silence => s.silence.setWidth 32
  | .peakidx => s.peakidx.setWidth 32
  | .peakval => halfAt s.peakval rel
  | .result => halfAt s.result rel
  | .z => cplxWord (s.getZ (zregOfIndex (rel / 16))) (rel % 16 / 4)
  | .smp => s.mem.word off
  | .mel => s.mem.word off
  | .mfcc => s.mem.word off
  | .pwr => s.mem.word off
  | .xin => s.mem.word off
  | .xout => s.mem.word off

/-- A word of the complex register file replaced (R67, R68). -/
def State.setZWord (s : State) (rel : Nat) (w : Word32) : State :=
  let r := zregOfIndex (rel / 16)
  s.setZ r (cplxSetWord (s.getZ r) (rel % 16 / 4) w)

/-- A write that executes no command (R67): an RW range takes the word (`SILENCE` its bits 15:0, R30), an RO range ignores
it; a write to `CMD` stores nothing (R29). -/
def writeRegion (s : State) (g : Region) (off rel : Nat) (w : Word32) : State :=
  match g with
  | .silence => { s with silence := w.setWidth 16 }
  | .z => s.setZWord rel w
  | .smp => s.storeWord off w
  | .xin => s.storeWord off w
  | .id => s
  | .cap => s
  | .cmd => s
  | .status => s
  | .peakidx => s
  | .peakval => s
  | .result => s
  | .mel => s
  | .mfcc => s
  | .pwr => s
  | .xout => s

/-- The word a successful read at an aligned offset returns, none at an unmapped offset (R65, R66). -/
def readWord (s : State) (off : Nat) : Option Word32 :=
  (rowAt off).map fun r => readRegion s r.region off (off - r.base)

/-- The size of an access in bytes. -/
def HostAccess.size : HostAccess → Nat
  | .read _ n => n
  | .write _ n _ => n

/-- The offset of an access. -/
def HostAccess.offset : HostAccess → Nat
  | .read a _ => a
  | .write a _ _ => a

/-- The accesses that end with `BusError`, exactly those of R246: (a) a size other than 4, (b) a misaligned offset, (c) an
unmapped offset of the window. -/
def busErrorOf (a : HostAccess) : Bool := a.size != 4 || a.offset % 4 != 0 || (rowAt a.offset).isNone

/-- The result of an access, for the host to see. -/
def State.respond (s : State) (r : BusResponse) : State := { s with response := some r }

/-- The command a word written to `CMD` encodes, executed to completion; an illegal word ends with `fail(ILLCMD)` (R29, R96,
R100). -/
def runCommand (c : Word32) (s : State) : Host.Outcome State Fault Refusal :=
  match decode c with
  | .command i => exec i s
  | .illegal _ => .next (s.failWith .illcmd)

/-- A successful aligned 32-bit write at a mapped offset. -/
def performWrite (r : MapRow) (off : Nat) (w : Word32) (s : State) : Host.Outcome State Fault Refusal :=
  if r.region = .cmd then runCommand w (s.respond .written)
  else .next ((writeRegion s r.region off (off - r.base) w).respond .written)

/-- One host access, whole (R63 to R67, R72). An offset beyond the window is not DDFT's to answer (R61, log entry 5). -/
def performAccess (a : HostAccess) (s : State) : Host.Outcome State Fault Refusal :=
  if Config.windowBytes ≤ a.offset then .fault .outsideWindow
  else if busErrorOf a then .next (s.respond .busError)
  else
    match rowAt a.offset, a with
    | none, _ => .next (s.respond .busError)
    | some r, .read off _ => .next (s.respond (.data (readRegion s r.region off (off - r.base))))
    | some r, .write off _ v => performWrite r off (v.setWidth 32) s

/-- The oldest pending event taken; with none pending DDFT is idle and keeps all state (R257). -/
def performEvent (s : State) : Host.Outcome State Fault Refusal :=
  match s.pending with
  | [] => .next s
  | .host a :: rest => performAccess a { s with pending := rest }
  | .reset :: rest => .next { s with pending := rest }.hardwareReset
  | .foreign _ :: _ => .refused .concurrentAccess

/-- The directive `WR off, val` (R98). -/
def writeWordEvent (off : Nat) (v : Word32) : BusEvent := .host (.write off 4 v)

/-- The directive `RD off` (R98). -/
def readWordEvent (off : Nat) : BusEvent := .host (.read off 4)

/-- The directive `CMD <command>` for an encoded word (R98). -/
def commandEvent (c : Word32) : BusEvent := writeWordEvent 0x0008 c

/-- The directive `WRF off, x` (R98). -/
def writeF64Events (off : Nat) (x : F64) : List BusEvent :=
  [writeWordEvent off (lowWord x), writeWordEvent (off + 4) (highWord x)]

/-- The directive `RDF off` (R98). -/
def readF64Events (off : Nat) : List BusEvent := [readWordEvent off, readWordEvent (off + 4)]

/-- The offset of an absolute address of the host, none below `BASE` (R60). Log entry 7. -/
def offsetOfAddress (addr : Nat) : Option Nat := if Config.base ≤ addr then some (addr - Config.base) else none

/-- A command word placed where the next step takes its access from. -/
def State.withCommand (s : State) (c : Word32) : State := { s with pending := commandEvent c :: s.pending }

end Sys2Proof.Machine
end

