-- ==== Sys2Proof/Machine/Step.lean ====
section
/-! DEFINITION. One step of the machine: one host access to the register window (00_scope.md R7). -/

namespace Sys2Proof.Machine

/-- One step: the oldest event the outside has issued is performed, whole; a write to `CMD` executes one whole command inside
it (R7, R72). -/
def step : State → Host.Outcome State Fault Refusal := fun s => performEvent s

/-- The state with the host's next access the write of a command word to `CMD`: DDFT fetches nothing, "the command executed is
exactly the 32 bits of the data of the `CMD` write" (R76). The low `nbits` bits of `w` are the command, the bits above
are 0. Log entry 2. -/
def State.withFetchWord (s : State) (nbits w : Nat) : State := s.withCommand (BitVec.ofNat 32 (w % 2 ^ nbits))

end Sys2Proof.Machine
end

