-- ==== Sys2Proof/Machine/Accuracy.lean ====
section
/-! DEFINITION. The two guaranteed properties of the elementary functions that speak of exact real numbers, `TRIG_ACC` (R129)
and `LOG_ACC` (R130), as named propositions: "a proof may assume them by name". Nothing in the model assumes them, so the
model admits more units than the hardware may have (log entries 12 and 13). -/

namespace Sys2Proof.Machine

/-- The real value of a finite datum (R120). -/
noncomputable def fvalue (x : F64) : ℝ := (fint x : ℝ) / (2 : ℝ) ^ (1074 : ℕ)

/-- One unit in the last place of a finite datum. -/
noncomputable def fulp (x : F64) : ℝ := (2 : ℝ) ^ (fexp x - 1) / (2 : ℝ) ^ (1074 : ℕ)

/-- `TRIG_ACC`: for finite `x` with `|x| <= 3300` the cosine and the sine differ from the exact ones by at most one unit in
the last place of the result (R129). -/
def TrigAcc : Prop :=
  ∀ x : F64, isFinite x = true → |fvalue x| ≤ 3300 →
    |fvalue (cosUnit x) - Real.cos (fvalue x)| ≤ fulp (cosUnit x) ∧
    |fvalue (sinUnit x) - Real.sin (fvalue x)| ≤ fulp (sinUnit x)

/-- `LOG_ACC`: for finite `x > 0` the result differs from the exact natural logarithm by at most one unit in the last place
(R130). -/
def LogAcc : Prop :=
  ∀ x : F64, isFinite x = true → 0 < fvalue x →
    isFinite (logUnit x) = true ∧ |fvalue (logUnit x) - Real.log (fvalue x)| ≤ fulp (logUnit x)

end Sys2Proof.Machine
end

