-- ==== Sys2Proof/Safety.lean ====
section
/-! DEFINITION. What the statements speak of: the invariant of the machine, reachability, and agreement of two states in
everything the host can read. -/

namespace Sys2Proof.Machine

/-- `ErrCode` is `OK` exactly when `FAIL` is 0 (R24, R25). -/
abbrev State.ReportAgrees (s : State) : Prop := s.fail = false ↔ s.errcode = .ok

/-- Every cell of the memory lies in a buffer of the map (R61). -/
abbrev State.CellsInBuffers (s : State) : Prop := ∀ c ∈ s.mem.cells, inBuffers c.1 = true

/-- Without the Mel/DCT unit the stages `MEL` and `MFCC` are never reached (R23, R217). -/
def State.StageReachable (present : Bool) (s : State) : Prop := present = false → s.stage.code ≤ 3

/-- The invariant that every step keeps: the memory is in canonical form and lies in the buffers, the failure report is
consistent, `PEAKIDX` names one of the 512 bins, and without the Mel/DCT unit `STAGE` stays at or below `POWER`. -/
structure State.Inv (s : State) : Prop where
  canonical : s.mem.Canonical
  cells : s.CellsInBuffers
  report : s.ReportAgrees
  peak : s.peakidx.toNat < 512
  stage : s.StageReachable Config.melPresent

/-- The offsets a 32-bit access succeeds at: aligned and mapped (R63). -/
abbrev AccessibleOffset (off : Nat) : Prop := off % 4 = 0 ∧ (rowAt off).isSome = true

/-- Two states agree at an offset: a host read there returns the same word. -/
def State.SameWord (s t : State) (off : Nat) : Prop := readWord s off = readWord t off

/-- The four complex registers hold what they held. -/
def SameZ (s t : State) : Prop := ∀ r, t.getZ r = s.getZ r

/-- `SILENCE`, `PEAKIDX`, `PEAKVAL` and `RESULT` hold what they held. -/
def SameScalars (s t : State) : Prop :=
  t.silence = s.silence ∧ t.peakidx = s.peakidx ∧ t.peakval = s.peakval ∧ t.result = s.result

/-- Every byte of the buffers reads as it read. -/
def SameBytes (s t : State) : Prop := ∀ a, t.mem.byte a = s.mem.byte a

/-- Every byte outside the run of `len` bytes from `base` reads as it read. -/
def SameBytesOutside (base len : Nat) (s t : State) : Prop :=
  ∀ a, a < base ∨ base + len ≤ a → t.mem.byte a = s.mem.byte a

/-- The model's own fields hold what they held. -/
def SameHostSide (s t : State) : Prop := t.pending = s.pending ∧ t.response = s.response ∧ t.draws = s.draws

/-- The report of a command that succeeded (R25). -/
def Succeeded (t : State) : Prop := t.fail = false ∧ t.errcode = .ok

/-- The report of a command that failed with a code, and nothing else changed (R241). -/
def FailedWith (code : ErrCode) (s t : State) : Prop :=
  t.fail = true ∧ t.errcode = code ∧ t.stage = s.stage ∧ SameZ s t ∧ SameScalars s t ∧ SameBytes s t ∧ SameHostSide s t

/-- The smallest exact magnitude that rounds to an infinity: half a unit in the last place above the largest finite
binary64, in real numbers (R125). -/
noncomputable def overflowBound : ℝ := (2 : ℝ) ^ (1024 : ℕ) - (2 : ℝ) ^ (970 : ℕ)

/-- A finite datum is the exact value rounded to nearest, ties to even: no finite datum is nearer, and where another value
is as near the last bit is 0 (R121). -/
def NearestEven (exact : ℝ) (r : F64) : Prop :=
  isFinite r = true ∧ ∀ c : F64, isFinite c = true →
    |fvalue r - exact| ≤ |fvalue c - exact| ∧
      (|fvalue r - exact| = |fvalue c - exact| → fvalue c = fvalue r ∨ ffrac r % 2 = 0)

/-- The exact value rounded once to binary64: to nearest, ties to even, or the infinity of its sign on overflow (R121,
R125). -/
def RoundsOnce (exact : ℝ) (r : F64) : Prop :=
  (|exact| < overflowBound → NearestEven exact r) ∧
    (overflowBound ≤ exact → r = finf false) ∧ (exact ≤ -overflowBound → r = finf true)

end Sys2Proof.Machine
end

