-- ==== Sys2Proof/Certificates/Slice0/Obligations.lean ====
section
/-! DEFINITION. The statements for the provers, from the numbered rules of the spec. -/

open Sys2Proof Sys2Proof.Machine

/-! Encoding and decoding (30_encoding.md). -/

/-- R91, R92, R93, R100: decoding the word of any well-formed command gives the command back, every operand at every value
its field admits. -/
def Obligations.DecodeEncodeEveryCommand : Prop :=
  ∀ i : Instr, i.WellFormed → decode (encode i) = .command i

/-- R91, R95: a word that decodes is exactly the encoding of the command it decodes to, so no bit of a legal word is
ignored, and the command's operands fit their fields. -/
def Obligations.DecodedWordIsItsEncoding : Prop :=
  ∀ (c : Word32) (i : Instr), decode c = .command i → encode i = c ∧ i.WellFormed

/-- R93: a word is a command exactly when it matches the command's row of the opcode map, and a word that matches no row is
illegal. -/
def Obligations.OpcodeMapDecidesTheCommand : Prop :=
  (∀ (c : Word32) (r : OpcodeRow), r ∈ opcodeRows →
    (c &&& r.mask = r.matchBits ↔ ∃ i, decode c = .command i ∧ i.mnemonic = r.mnemonic)) ∧
  ∀ c : Word32, (∀ r ∈ opcodeRows, c &&& r.mask ≠ r.matchBits) ↔ ∃ why, decode c = .illegal why

/-- R93, R99 and section 7 of 30_encoding.md: worked encodings decode to their commands. -/
def Obligations.WorkedEncodingsDecode : Prop :=
  decode 0x00001210#32 = .command (.cadd .z2 .z0 .z1) ∧ decode 0x00001211#32 = .command (.cmul .z2 .z0 .z1) ∧
  decode 0x00000412#32 = .command (.cmag .z1) ∧ decode 0x00000113#32 = .command (.cexp .z1 .z0) ∧
  decode 0x00000120#32 = .command .loadHann ∧ decode 0x00025823#32 = .command (.getpwr 600) ∧
  decode 0x04000124#32 = .command (.peakre 1 256) ∧ decode 0x04000225#32 = .command (.peakpw 2 256) ∧
  decode 0x00000112#32 = .illegal .reservedBit ∧ decode 0x00000026#32 = .illegal .unassignedOpcode

/-! The register window and the step (20_memory.md, 00_scope.md R7). -/

/-- R7, R29, R72: a step whose access is a write of a legal word to `CMD` is the execution of that command, in the state with
the access taken and answered (`pending` and `response` are the model's own: log entries 1 and 4). -/
def Obligations.StepRunsTheDecodedCommand : Prop :=
  ∀ (s : State) (c : Word32) (rest : List BusEvent) (i : Instr),
    s.pending = .host (.write 0x0008 4 c) :: rest → decode c = .command i →
      step s = exec i { s with pending := rest, response := some .written }

/-- R96: an illegal word, that is one whose opcode is none of the 16, or with a reserved bit set, or `LOAD` with `wsel = 3`,
executes nothing: it ends with `fail(ILLCMD)`, `FAIL` and `ERRCODE` are written and no other state changes. -/
def Obligations.IllegalWordOnlyReportsIllcmd : Prop :=
  ∀ (s : State) (c : Word32) (rest : List BusEvent), s.pending = .host (.write 0x0008 4 c) :: rest →
    ((∀ o : Opcode, o.code ≠ c.extractLsb' 0 8) ∨
      (∃ o : Opcode, o.code = c.extractLsb' 0 8 ∧ c &&& o.format.reserved ≠ 0#32) ∨ c = 0x00000320#32) →
      ∃ t, step s = .next t ∧ FailedWith .illcmd { s with pending := rest, response := some .written } t

/-- R63, R64, R65, R246: of the accesses that reach the window, exactly those of a size other than 4, at an offset that is not
a multiple of 4, or at an unmapped offset end with `BusError`, and they change nothing of DDFT. -/
def Obligations.BusErrorsAreExactlyTheBadAccesses : Prop :=
  let unmapped := fun off : Nat =>
    (0x28 ≤ off ∧ off ≤ 0x3F) ∨ (0x80 ≤ off ∧ off ≤ 0x3FF) ∨ (0x8D0 ≤ off ∧ off ≤ 0x8FF) ∨ (0x960 ≤ off ∧ off ≤ 0xFFF)
  ∀ (s : State) (a : HostAccess) (rest : List BusEvent), s.pending = .host a :: rest → a.offset < 0x6000 →
    ((a.size ≠ 4 ∨ a.offset % 4 ≠ 0 ∨ unmapped a.offset) →
      step s = .next { s with pending := rest, response := some .busError }) ∧
    (a.size = 4 → a.offset % 4 = 0 → ¬ unmapped a.offset → ∃ t, step s = .next t ∧ t.response ≠ some .busError)

/-- R66: a successful read returns the present value of the word and has no side effect; a read of `CMD` returns 0, and the
reserved bits of `STATUS`, `SILENCE`, `PEAKIDX` and `CAP` read 0. -/
def Obligations.ReadsHaveNoSideEffect : Prop :=
  (∀ (s : State) (off : Nat) (rest : List BusEvent), s.pending = .host (.read off 4) :: rest → AccessibleOffset off →
    ∃ w, readWord s off = some w ∧ step s = .next { s with pending := rest, response := some (.data w) }) ∧
  ∀ s : State,
    readWord s 0x0008 = some 0#32 ∧
    (∃ w, readWord s 0x000C = some w ∧ w &&& 0xFFFF080E#32 = 0#32) ∧
    (∃ w, readWord s 0x0010 = some w ∧ w &&& 0xFFFF0000#32 = 0#32) ∧
    (∃ w, readWord s 0x0014 = some w ∧ w &&& 0xFFFFFC00#32 = 0#32) ∧
    (∃ w, readWord s 0x0004 = some w ∧ w &&& 0xFF00000E#32 = 0#32)

/-- R67: a successful write to an RW location replaces its 32 bits (of `SILENCE` bits 15:0), a write to an RO location
changes nothing, and no write but one to `CMD` changes any other word of the window. -/
def Obligations.WriteReplacesOnlyItsWord : Prop :=
  ∀ (s : State) (off : Nat) (v : Word32) (rest : List BusEvent) (r : MapRow),
    s.pending = .host (.write off 4 v) :: rest → off % 4 = 0 → rowAt off = some r → off ≠ 0x0008 →
      ∃ t, step s = .next t ∧ t.response = some .written ∧ t.pending = rest ∧ t.draws = s.draws ∧
        (∀ o, AccessibleOffset o → o ≠ off → readWord t o = readWord s o) ∧
        (r.rights = .rw → off ≠ 0x0010 → readWord t off = some v) ∧
        (off = 0x0010 → t.silence = v.extractLsb' 0 16 ∧ readWord t off = some (0#16 ++ v.extractLsb' 0 16)) ∧
        (r.rights = .ro → t = { s with pending := rest, response := some .written })

/-- R68: a host write of one word of an element of `XIN` leaves the other half of the pattern as it was. -/
def Obligations.HalfWrittenDoubleIsMixed : Prop :=
  ∀ (s : State) (i : Nat) (v : Word32) (rest : List BusEvent), i < 512 →
    (s.pending = .host (.write (0x2000 + 16 * i) 4 v) :: rest →
      ∃ t, step s = .next t ∧ t.xin i = ⟨highWord (s.xin i).re ++ v, (s.xin i).im⟩) ∧
    (s.pending = .host (.write (0x2004 + 16 * i) 4 v) :: rest →
      ∃ t, step s = .next t ∧ t.xin i = ⟨v ++ lowWord (s.xin i).re, (s.xin i).im⟩) ∧
    (s.pending = .host (.write (0x2008 + 16 * i) 4 v) :: rest →
      ∃ t, step s = .next t ∧ t.xin i = ⟨(s.xin i).re, highWord (s.xin i).im ++ v⟩) ∧
    (s.pending = .host (.write (0x200C + 16 * i) 4 v) :: rest →
      ∃ t, step s = .next t ∧ t.xin i = ⟨(s.xin i).re, v ++ lowWord (s.xin i).im⟩)

/-- R21, R30 to R33, R62: the words the registers read: `SILENCE` and `PEAKIDX` in the low bits of a word; the two 64-bit result
registers and the complex registers low word first, real part first. -/
def Obligations.RegisterWordsAreLowWordFirst : Prop :=
  ∀ s : State,
    readWord s 0x0010 = some (s.silence.setWidth 32) ∧ readWord s 0x0014 = some (s.peakidx.setWidth 32) ∧
    readWord s 0x0018 = some (lowWord s.peakval) ∧ readWord s 0x001C = some (highWord s.peakval) ∧
    readWord s 0x0020 = some (lowWord s.result) ∧ readWord s 0x0024 = some (highWord s.result) ∧
    ∀ r : ZReg, let base := 0x0040 + 16 * r.code.toNat
      readWord s base = some (lowWord (s.getZ r).re) ∧ readWord s (base + 4) = some (highWord (s.getZ r).re) ∧
      readWord s (base + 8) = some (lowWord (s.getZ r).im) ∧ readWord s (base + 12) = some (highWord (s.getZ r).im)

/-- R35 to R39, R62, R70: where the elements of the buffers read: two samples in a word, the lower index in the low half; a
binary64 in two words, the low word first. -/
def Obligations.BufferWordsAtTheirOffsets : Prop :=
  ∀ s : State,
    (∀ j < 256, readWord s (0x0400 + 4 * j) = some (s.smp (2 * j + 1) ++ s.smp (2 * j))) ∧
    (∀ i < 512, readWord s (0x2000 + 16 * i) = some (lowWord (s.xin i).re) ∧
      readWord s (0x2004 + 16 * i) = some (highWord (s.xin i).re) ∧
      readWord s (0x2008 + 16 * i) = some (lowWord (s.xin i).im) ∧
      readWord s (0x200C + 16 * i) = some (highWord (s.xin i).im)) ∧
    (∀ k < 512, readWord s (0x4000 + 16 * k) = some (lowWord (s.xout k).re) ∧
      readWord s (0x4004 + 16 * k) = some (highWord (s.xout k).re) ∧
      readWord s (0x4008 + 16 * k) = some (lowWord (s.xout k).im) ∧
      readWord s (0x400C + 16 * k) = some (highWord (s.xout k).im)) ∧
    (∀ k < 512, readWord s (0x1000 + 8 * k) = some (lowWord (s.pwr k)) ∧
      readWord s (0x1004 + 8 * k) = some (highWord (s.pwr k))) ∧
    (∀ m < 26, readWord s (0x0800 + 8 * m) = some (lowWord (s.mel m)) ∧
      readWord s (0x0804 + 8 * m) = some (highWord (s.mel m))) ∧
    ∀ n < 12, readWord s (0x0900 + 8 * n) = some (lowWord (s.mfcc n)) ∧
      readWord s (0x0904 + 8 * n) = some (highWord (s.mfcc n))

/-- R27, R28: the constants `ID` and `CAP`. -/
def Obligations.IdAndCapAreConstant : Prop :=
  (∀ s : State, readWord s 0x0000 = some 0x54464444#32 ∧ readWord s 0x0004 = some (capWordOf Config.melPresent)) ∧
  capWordOf true = 0x000C1A91#32 ∧ capWordOf false = 0x000C0090#32

/-- R24, R26, R45: the fields of a read of `STATUS`, with the numbers of the codes (R25) and of the stages (R23). -/
def Obligations.StatusWordFields : Prop :=
  ∀ s : State, ∃ w, readWord s 0x000C = some w ∧
    w.extractLsb' 0 1 = BitVec.ofBool s.fail ∧ w.extractLsb' 1 1 = 0#1 ∧ w.extractLsb' 2 2 = 0#2 ∧
    (w.extractLsb' 4 4).toNat = s.errcode.code ∧ (w.extractLsb' 8 3).toNat = s.stage.code ∧ w.extractLsb' 11 1 = 0#1 ∧
    (w.extractLsb' 12 4).toNat = (if s.stage = .mfcc then 12 else 0) ∧ w.extractLsb' 16 16 = 0#16 ∧
    (s.errcode = .ok → w.extractLsb' 4 4 = 0#4) ∧ (s.errcode = .unimpl → w.extractLsb' 4 4 = 1#4) ∧
    (s.errcode = .seq → w.extractLsb' 4 4 = 2#4) ∧ (s.errcode = .illcmd → w.extractLsb' 4 4 = 3#4) ∧
    (s.stage = .empty → w.extractLsb' 8 3 = 0#3) ∧ (s.stage = .windowed → w.extractLsb' 8 3 = 1#3) ∧
    (s.stage = .dft → w.extractLsb' 8 3 = 2#3) ∧ (s.stage = .power → w.extractLsb' 8 3 = 3#3) ∧
    (s.stage = .mel → w.extractLsb' 8 3 = 4#3) ∧ (s.stage = .mfcc → w.extractLsb' 8 3 = 5#3)

/-- R257: with no access pending DDFT is idle and keeps all state (that such a step exists is the model's choice: log
entry 3). -/
def Obligations.IdleMachineKeepsItsState : Prop := ∀ s : State, s.pending = [] → step s = .next s

/-- R61, R75: the only steps that stop are an access beyond the window, a fault, and an access of a second agent, a
refusal (the model's two stops: log entries 5 and 6); every other step answers a next state. -/
def Obligations.StepStopsOnlyOutsideTheContract : Prop :=
  ∀ s : State,
    (∀ a rest, s.pending = .host a :: rest → 0x6000 ≤ a.offset → step s = .fault .outsideWindow) ∧
    (∀ a rest, s.pending = .foreign a :: rest → step s = .refused .concurrentAccess) ∧
    ((∀ a rest, s.pending = .host a :: rest → a.offset < 0x6000) → (∀ a rest, s.pending ≠ .foreign a :: rest) →
      ∃ t, step s = .next t)

/-- R44, R260, R261: a hardware reset between two accesses gives the registers of R44 their stated values whatever the state
before, and leaves `ID` and `CAP` constant; that the later events stay pending is the model's choice (log entry 21). -/
def Obligations.HardwareResetSetsTheRegisters : Prop :=
  ∀ (s : State) (rest : List BusEvent), s.pending = .reset :: rest →
    ∃ t, step s = .next t ∧ readWord t 0x000C = some 0#32 ∧ t.stage = .empty ∧ t.fail = false ∧ t.errcode = .ok ∧
      t.silence = 0#16 ∧ t.peakidx = 0#10 ∧ t.peakval = 0#64 ∧ t.result = 0#64 ∧
      readWord t 0x0000 = some 0x54464444#32 ∧ readWord t 0x0004 = some (capWordOf Config.melPresent) ∧ t.pending = rest

/-- R44: the registers the spec gives a reset value hold it in the reset state. -/
def Obligations.ResetStateRegisters : Prop :=
  readWord State.reset 0x000C = some 0#32 ∧ State.reset.stage = .empty ∧ State.reset.fail = false ∧
    State.reset.errcode = .ok ∧ State.reset.silence = 0#16 ∧ State.reset.peakidx = 0#10 ∧ State.reset.peakval = 0#64 ∧
    State.reset.result = 0#64

/-! Numerics (40_numerics.md). -/

/-- R121: `fadd`, `fsub`, `fmul` and `fdiv` of finite operands return the exact real result rounded once, to nearest, ties
to even. -/
def Obligations.BasicOperationsRoundOnce : Prop :=
  ∀ a b : F64, isFinite a = true → isFinite b = true →
    RoundsOnce (fvalue a + fvalue b) (fadd a b) ∧ RoundsOnce (fvalue a - fvalue b) (fsub a b) ∧
    RoundsOnce (fvalue a * fvalue b) (fmul a b) ∧ (isZero b = false → RoundsOnce (fvalue a / fvalue b) (fdiv a b)) ∧
    fsub a b = fadd a (fneg b)

/-- R122: `fsqrt` is correctly rounded, keeps a zero and `+inf`, and is invalid below zero. -/
def Obligations.SquareRootIsCorrectlyRounded : Prop :=
  (∀ a : F64, isFinite a = true → fsign a = false → NearestEven (Real.sqrt (fvalue a)) (fsqrt a)) ∧
  (∀ a : F64, isZero a = true → fsqrt a = a) ∧ fsqrt (finf false) = finf false ∧
  ∀ a : F64, isNaN a = false → isZero a = false → fsign a = true → isQuietNaN (fsqrt a) = true

/-- R124: an operation with a NaN operand and an invalid operation return a quiet NaN. -/
def Obligations.InvalidOperationsReturnQuietNaN : Prop :=
  (∀ a b : F64, isNaN a = true ∨ isNaN b = true → isQuietNaN (fadd a b) = true ∧ isQuietNaN (fsub a b) = true ∧
    isQuietNaN (fmul a b) = true ∧ isQuietNaN (fdiv a b) = true) ∧
  (∀ a : F64, isNaN a = true ∨ (fsign a = true ∧ isZero a = false) → isQuietNaN (fsqrt a) = true) ∧
  (∀ p : Bool, isQuietNaN (fadd (finf p) (finf (!p))) = true ∧ isQuietNaN (fsub (finf p) (finf p)) = true) ∧
  (∀ (z : F64) (p : Bool), isZero z = true → isQuietNaN (fmul z (finf p)) = true ∧ isQuietNaN (fmul (finf p) z) = true) ∧
  (∀ y z : F64, isZero y = true → isZero z = true → isQuietNaN (fdiv y z) = true) ∧
  ∀ p q : Bool, isQuietNaN (fdiv (finf p) (finf q)) = true

/-- R125: arithmetic on infinities, with a finite and with an infinite second operand, and division by a zero. -/
def Obligations.InfinityArithmetic : Prop :=
  (∀ (x : F64) (p : Bool), isFinite x = true →
    fadd (finf p) x = finf p ∧ fadd x (finf p) = finf p ∧
    (isZero x = false → fmul (finf p) x = finf (p != fsign x) ∧ fmul x (finf p) = finf (fsign x != p)) ∧
    fdiv x (finf p) = packF64 (fsign x != p) 0 ∧ fdiv (finf p) x = finf (p != fsign x) ∧
    ∀ z : F64, isZero z = true → isZero x = false → fdiv x z = finf (fsign x != fsign z)) ∧
  ∀ p q : Bool, fmul (finf p) (finf q) = finf (p != q) ∧ fadd (finf p) (finf p) = finf p ∧
    fsub (finf p) (finf (!p)) = finf p

/-- R127: the signs of zeros. -/
def Obligations.SignedZeroRules : Prop :=
  fadd 0#64 0x8000000000000000#64 = 0#64 ∧ fadd 0x8000000000000000#64 0#64 = 0#64 ∧
  fadd 0x8000000000000000#64 0x8000000000000000#64 = 0x8000000000000000#64 ∧
  (∀ x : F64, isFinite x = true → fadd x (fneg x) = 0#64) ∧
  (∀ x z : F64, isNaN x = false → isZero x = false → isZero z = true → fadd x z = x) ∧
  (∀ x z : F64, isFinite x = true → isZero z = true →
    fmul x z = packF64 (fsign x != fsign z) 0 ∧ fmul z x = packF64 (fsign z != fsign x) 0) ∧
  (∀ x z : F64, isFinite x = true → isZero x = false → isZero z = true → fdiv z x = packF64 (fsign z != fsign x) 0) ∧
  ∀ x y : F64, (isZero (fmul x y) = true → fsign (fmul x y) = (fsign x != fsign y)) ∧
    (isZero (fdiv x y) = true → fsign (fdiv x y) = (fsign x != fsign y))

/-- R128: `fneg` flips bit 63 and nothing else; `float` is exact below 2^53 and `float(0) = +0.0`. -/
def Obligations.NegateAndFloatAreExact : Prop :=
  (∀ (x : F64) (i : Nat), i < 64 → (fneg x).getLsbD i = if i = 63 then !x.getLsbD i else x.getLsbD i) ∧
  (∀ n : Int, n.natAbs < 2 ^ 53 → isFinite (ffloat n) = true ∧ fvalue (ffloat n) = n) ∧ ffloat 0 = 0#64

/-- R132: the two comparisons, by value, infinities included, false whenever an operand is a NaN. -/
def Obligations.ComparisonsAreByValue : Prop :=
  (∀ a b : F64, isFinite a = true → isFinite b = true →
    (fgt a b = true ↔ fvalue b < fvalue a) ∧ (feq a b = true ↔ fvalue a = fvalue b)) ∧
  (∀ a b : F64, isNaN a = true ∨ isNaN b = true → fgt a b = false ∧ feq a b = false) ∧
  (∀ x : F64, isFinite x = true → fgt (finf false) x = true ∧ fgt x (finf true) = true ∧ fgt x (finf false) = false ∧
    fgt (finf true) x = false ∧ (∀ p, feq x (finf p) = false ∧ feq (finf p) x = false)) ∧
  ∀ p q : Bool, (fgt (finf p) (finf q) = true ↔ p = false ∧ q = true) ∧ (feq (finf p) (finf q) = true ↔ p = q)

/-- R129: `TRIG_ZERO`, `TRIG_RANGE`, `TRIG_SYM` and `TRIG_NONFINITE` hold of the cosine and sine units, to which
the model gives them by construction (log entry 12). -/
def Obligations.TrigUnitsKeepTheirProperties : Prop :=
  (cosUnit 0#64 = fone ∧ cosUnit 0x8000000000000000#64 = fone ∧ sinUnit 0#64 = 0#64 ∧
    sinUnit 0x8000000000000000#64 = 0x8000000000000000#64) ∧
  (∀ x : F64, isFinite x = true → isFinite (cosUnit x) = true ∧ |fvalue (cosUnit x)| ≤ 1 ∧
    isFinite (sinUnit x) = true ∧ |fvalue (sinUnit x)| ≤ 1) ∧
  (∀ x : F64, cosUnit (fneg x) = cosUnit x) ∧ (∀ x : F64, isNaN x = false → sinUnit (fneg x) = fneg (sinUnit x)) ∧
  ∀ x : F64, isFinite x = false → isNaN (cosUnit x) = true ∧ isNaN (sinUnit x) = true

/-- R130: `LOG_ONE` and `LOG_SPECIAL` hold of the logarithm unit, to which the model gives them by construction (log entry 13). -/
def Obligations.LogUnitKeepsItsProperties : Prop :=
  logUnit fone = 0#64 ∧ logUnit 0#64 = finf true ∧ logUnit 0x8000000000000000#64 = finf true ∧
  logUnit (finf false) = finf false ∧
  ∀ x : F64, (isNaN x = true ∨ (fsign x = true ∧ isZero x = false)) → isNaN (logUnit x) = true

/-! The complex primitive (41_complex.md). -/

/-- R151: `CADD` adds component by component; nothing else changes but the report. -/
def Obligations.CaddAddsComponents : Prop :=
  ∀ (zd za zb : ZReg) (s : State),
    decode (0x00000010#32 ||| zd.code.setWidth 32 <<< 8 ||| za.code.setWidth 32 <<< 10 ||| zb.code.setWidth 32 <<< 12) =
      .command (.cadd zd za zb) ∧
    ∃ t, exec (.cadd zd za zb) s = .next t ∧
      t.getZ zd = ⟨fadd (s.getZ za).re (s.getZ zb).re, fadd (s.getZ za).im (s.getZ zb).im⟩ ∧
      (∀ r, r ≠ zd → t.getZ r = s.getZ r) ∧ Succeeded t ∧ t.stage = s.stage ∧ SameScalars s t ∧ SameBytes s t ∧
      SameHostSide s t

/-- R152: `CMUL` is the standard complex product with six roundings in the written order. -/
def Obligations.CmulMultiplies : Prop :=
  ∀ (zd za zb : ZReg) (s : State),
    decode (0x00000011#32 ||| zd.code.setWidth 32 <<< 8 ||| za.code.setWidth 32 <<< 10 ||| zb.code.setWidth 32 <<< 12) =
      .command (.cmul zd za zb) ∧
    ∃ t, exec (.cmul zd za zb) s = .next t ∧
      t.getZ zd =
        ⟨fsub (fmul (s.getZ za).re (s.getZ zb).re) (fmul (s.getZ za).im (s.getZ zb).im),
          fadd (fmul (s.getZ za).re (s.getZ zb).im) (fmul (s.getZ za).im (s.getZ zb).re)⟩ ∧
      (∀ r, r ≠ zd → t.getZ r = s.getZ r) ∧ Succeeded t ∧ t.stage = s.stage ∧ SameScalars s t ∧ SameBytes s t ∧
      SameHostSide s t

/-- R153: `CMAG` writes the unscaled magnitude to `RESULT` and no complex register. -/
def Obligations.CmagWritesTheMagnitude : Prop :=
  ∀ (za : ZReg) (s : State),
    decode (0x00000012#32 ||| za.code.setWidth 32 <<< 10) = .command (.cmag za) ∧
    ∃ t, exec (.cmag za) s = .next t ∧
      t.result = fsqrt (fadd (fmul (s.getZ za).re (s.getZ za).re) (fmul (s.getZ za).im (s.getZ za).im)) ∧
      SameZ s t ∧ Succeeded t ∧ t.stage = s.stage ∧ t.silence = s.silence ∧ t.peakidx = s.peakidx ∧
      t.peakval = s.peakval ∧ SameBytes s t ∧ SameHostSide s t

/-- R154: `CEXP` takes the cosine and the sine of the imaginary part and ignores the real part; of an imaginary part that is
a zero the result is exact, and of one that is infinite or a NaN both parts are NaNs. -/
def Obligations.CexpTakesTheImaginaryPart : Prop :=
  ∀ (zd za : ZReg) (s : State),
    decode (0x00000013#32 ||| zd.code.setWidth 32 <<< 8 ||| za.code.setWidth 32 <<< 10) = .command (.cexp zd za) ∧
    ∃ t, exec (.cexp zd za) s = .next t ∧
      t.getZ zd = ⟨cosUnit (s.getZ za).im, sinUnit (s.getZ za).im⟩ ∧
      (isZero (s.getZ za).im = true → t.getZ zd = ⟨fone, (s.getZ za).im⟩) ∧
      (isFinite (s.getZ za).im = false → isNaN (t.getZ zd).re = true ∧ isNaN (t.getZ zd).im = true) ∧
      (∀ r, r ≠ zd → t.getZ r = s.getZ r) ∧ Succeeded t ∧ t.stage = s.stage ∧ SameScalars s t ∧ SameBytes s t ∧
      SameHostSide s t

/-- R153: the magnitude is never negative and never `-0.0`; it is a NaN exactly when a part is a NaN, and `+inf` when a part
is infinite and none is a NaN. -/
def Obligations.MagnitudeIsNeverNegative : Prop :=
  ∀ a : Cplx,
    (isNaN (cmag a) = true ↔ isNaN a.re = true ∨ isNaN a.im = true) ∧
    (isNaN (cmag a) = false → fsign (cmag a) = false) ∧
    (isNaN a.re = false → isNaN a.im = false → isInf a.re = true ∨ isInf a.im = true → cmag a = finf false)

/-! Windowing, transform and spectrum (42_window.md, 43_dft.md, 44_power_peak.md). -/

/-- R170 to R174: each `LOAD` writes all 512 elements of `XIN` from the sample differences and the window, with imaginary
part `+0.0`, sets `STAGE` to `WINDOWED`, and changes no other byte and no other register. -/
def Obligations.LoadWindowsTheFrame : Prop :=
  decode 0x00000020#32 = .command .loadRect ∧ decode 0x00000120#32 = .command .loadHann ∧
  decode 0x00000220#32 = .command .loadHamm ∧
  ∀ s : State, let f := fun i => ffloat ((s.smp i).toInt - s.silence.toInt)
    let angle := fun i : Nat => fdiv (fmul fTWO_PI (ffloat i)) fF512
    let frame := fun t => Succeeded t ∧ t.stage = .windowed ∧ SameZ s t ∧ SameScalars s t ∧
      SameBytesOutside 0x2000 8192 s t ∧ SameHostSide s t
    (∃ t, exec .loadRect s = .next t ∧ (∀ i < 512, t.xin i = ⟨f i, 0#64⟩) ∧ frame t) ∧
    (∃ t, exec .loadHann s = .next t ∧ t.xin 0 = ⟨fmul fHALF (f 0), 0#64⟩ ∧
      (∀ i < 512, 0 < i → t.xin i = ⟨fmul (fadd (fmul fNEG_HALF (cosUnit (angle i))) fHALF) (f i), 0#64⟩) ∧ frame t) ∧
    ∃ t, exec .loadHamm s = .next t ∧ (∀ i < 512, t.xin i =
      ⟨fmul (fadd (fmul (fneg Config.hammingA1) (cosUnit (if i = 0 then 0#64 else angle i))) Config.hammingA0) (f i),
        0#64⟩) ∧ frame t

/-- R171: the first Hann window value is 0.5, not the formula's; the others are the raised cosine; every one is finite and
lies in `[+0.0, 1.0]`; and the middle one is that of the cosine of `PI`, 1.0 where the cosine is -1.0. -/
def Obligations.HannWindowRange : Prop :=
  hannWindow 0 = 0x3FE0000000000000#64 ∧
  (∀ i : Nat, 0 < i → i < 512 → hannWindow i =
    fadd (fmul 0xBFE0000000000000#64 (cosUnit (fdiv (fmul fTWO_PI (ffloat i)) fF512))) 0x3FE0000000000000#64) ∧
  (hannWindow 256 = fadd (fmul fNEG_HALF (cosUnit fPI)) fHALF ∧ fadd (fmul fNEG_HALF 0xBFF0000000000000#64) fHALF = fone) ∧
  ∀ i : Nat, i < 512 → isFinite (hannWindow i) = true ∧ fsign (hannWindow i) = false ∧ fvalue (hannWindow i) ≤ 1

/-- R181, R182, R183: `DFT` writes all 512 bins, each the running sum, in ascending order of the index, of the products of the
frame's elements with their twiddle factors; it runs in every stage, and changes no other byte and no register but
`STAGE` and the report. -/
def Obligations.DftTransformsTheFrame : Prop :=
  decode 0x00000021#32 = .command .dft ∧
  ∀ s : State, let twiddleOf := fun k i : Nat =>
      let theta := fdiv (fmul fTWO_PI (ffloat (k * i : Nat))) fF512
      (⟨cosUnit (fneg theta), sinUnit (fneg theta)⟩ : Cplx)
    ∃ t, exec .dft s = .next t ∧
      (∀ k < 512, t.xout k =
        (List.range 512).foldl (fun acc i => cadd acc (cmul (s.xin i) (twiddleOf k i))) ⟨0#64, 0#64⟩) ∧
      Succeeded t ∧ t.stage = .dft ∧ SameZ s t ∧ SameScalars s t ∧ SameBytesOutside 0x4000 8192 s t ∧ SameHostSide s t

/-- R182: the twiddle factor is the exponential of the negated angle of the exact product of its indices, is the same for
the indices exchanged, is `(1.0, -0.0)` where an index is 0, and is the conjugate of the exponential of the positive
angle. -/
def Obligations.TwiddleFactorRules : Prop :=
  (∀ k t : Nat, twiddle k t = twiddle t k) ∧
  (∀ k : Nat, twiddle k 0 = ⟨fone, 0x8000000000000000#64⟩ ∧ twiddle 0 k = ⟨fone, 0x8000000000000000#64⟩) ∧
  ∀ k t : Nat, k < 512 → t < 512 →
    let theta := fdiv (fmul fTWO_PI (ffloat (k * t : Nat))) fF512
    twiddle k t = ⟨cosUnit (fneg theta), sinUnit (fneg theta)⟩ ∧ twiddle k t = ⟨cosUnit theta, fneg (sinUnit theta)⟩

/-- R181 (c): a frame whose only element that is not zero is a real `XIN[0]` transforms to that value in every bin, whatever
the cosine and sine units are. -/
def Obligations.ImpulseTransformsToConstant : Prop :=
  ∀ (s : State) (a : F64), isFinite a = true → isZero a = false → s.xin 0 = ⟨a, 0#64⟩ →
    (∀ i < 512, 0 < i → s.xin i = ⟨0#64, 0#64⟩) →
      ∃ t, exec .dft s = .next t ∧ ∀ k < 512, t.xout k = ⟨a, 0#64⟩

/-- R181 (b): for a real finite frame, bin 0 is the running sum of the samples, with imaginary part `+0.0`. -/
def Obligations.BinZeroIsTheRunningSum : Prop :=
  ∀ s : State, (∀ i < 512, (s.xin i).im = 0#64 ∧ isFinite (s.xin i).re = true) →
    ∃ t, exec .dft s = .next t ∧
      t.xout 0 = ⟨(List.range 512).foldl (fun acc i => fadd acc (s.xin i).re) 0#64, 0#64⟩

/-- R181 (f): a NaN anywhere in the frame makes both parts of every bin a NaN; a NaN or an infinity anywhere leaves no finite
part in any bin; no failure is reported. Which parts an infinity makes a NaN and which an infinity is where R181 (f) and the
pseudocode of R183 differ: the model's choice is log entry 27, and no clause rests on it. -/
def Obligations.NaNInputReachesEveryBin : Prop :=
  ∀ (s : State) (i : Nat), i < 512 → isFinite (s.xin i).re = false ∨ isFinite (s.xin i).im = false →
    ∃ t, exec .dft s = .next t ∧ t.fail = false ∧
      (∀ k < 512, isFinite (t.xout k).re = false ∧ isFinite (t.xout k).im = false) ∧
      (isNaN (s.xin i).re = true ∨ isNaN (s.xin i).im = true →
        ∀ k < 512, isNaN (t.xout k).re = true ∧ isNaN (t.xout k).im = true)

/-- R190, R191: `POWER` below stage `DFT` only reports `SEQ`; from stage `DFT` on it writes the periodogram of all 512
bins. -/
def Obligations.PowerWritesThePeriodogram : Prop :=
  decode 0x00000022#32 = .command .power ∧
  (∀ s : State, s.stage.code < 2 → ∃ t, exec .power s = .next t ∧ FailedWith .seq s t) ∧
  ∀ s : State, 2 ≤ s.stage.code → ∃ t, exec .power s = .next t ∧
    (∀ k < 512, t.pwr k =
      fmul (fadd (fmul (s.xout k).re (s.xout k).re) (fmul (s.xout k).im (s.xout k).im)) 0x3F60000000000000#64) ∧
    Succeeded t ∧ t.stage = .power ∧ SameZ s t ∧ SameScalars s t ∧ SameBytesOutside 0x1000 4096 s t ∧ SameHostSide s t

/-- R191: a power is never negative and never `-0.0`, and a NaN exactly when a part of the bin is a NaN; it is `+0.0` when both
squares are zeros, and `+inf` when a square overflows and no part is a NaN. That it may be `+0.0` in one more case, where only
the scaling underflows, is the model's choice (log entry 28), and no clause rests on it. -/
def Obligations.PowerIsNeverNegative : Prop :=
  ∀ z : Cplx, (isNaN (binPower z) = true ↔ isNaN z.re = true ∨ isNaN z.im = true) ∧
    (isNaN (binPower z) = false → fsign (binPower z) = false) ∧
    (isZero (fmul z.re z.re) = true → isZero (fmul z.im z.im) = true → binPower z = 0#64) ∧
    (isNaN z.re = false → isNaN z.im = false → isInf (fmul z.re z.re) = true ∨ isInf (fmul z.im z.im) = true →
      binPower z = finf false)

/-- R192: `GETPWR` delivers the power of bin `k` from `XOUT` as it stands, `+0.0` from 512 on, in every stage and without a
failure; after a `POWER` it agrees bit for bit with `PWR`. -/
def Obligations.GetpwrQueriesOneBin : Prop :=
  (∀ k < 65536, decode (0x00000023#32 ||| BitVec.ofNat 32 k <<< 8) = .command (.getpwr k)) ∧
  (∀ (k : Nat) (s : State), ∃ t, exec (.getpwr k) s = .next t ∧
    (k < 512 → t.result =
      fmul (fadd (fmul (s.xout k).re (s.xout k).re) (fmul (s.xout k).im (s.xout k).im)) 0x3F60000000000000#64) ∧
    (512 ≤ k → t.result = 0#64) ∧ Succeeded t ∧ t.stage = s.stage ∧ SameZ s t ∧ t.silence = s.silence ∧
    t.peakidx = s.peakidx ∧ t.peakval = s.peakval ∧ SameBytes s t ∧ SameHostSide s t) ∧
  ∀ (k : Nat) (s : State), k < 512 → 2 ≤ s.stage.code →
    ∃ t u, exec .power s = .next t ∧ exec (.getpwr k) t = .next u ∧ u.result = t.pwr k

/-- R195, R196, R197: what `PEAKRE` and `PEAKPW` find in their range: the first bin whose value exceeds `+0.0` and every
earlier value and is exceeded by none, or `+0.0` and index 0 where no bin exceeds `+0.0`. -/
def Obligations.PeakScanFindsTheFirstMaximum : Prop :=
  let found := fun (v : Nat → F64) (lo hi : Nat) (t : State) =>
    ((∀ k, lo ≤ k → k < min hi 512 → fgt (v k) 0#64 = false) ∧ t.peakval = 0#64 ∧ t.peakidx = 0#10) ∨
    (lo ≤ t.peakidx.toNat ∧ t.peakidx.toNat < min hi 512 ∧ t.peakval = v t.peakidx.toNat ∧ fgt t.peakval 0#64 = true ∧
      (∀ k, lo ≤ k → k < min hi 512 → fgt (v k) t.peakval = false) ∧
      ∀ k, lo ≤ k → k < t.peakidx.toNat → fgt t.peakval (v k) = true ∨ isNaN (v k) = true)
  let frame := fun s t => Succeeded t ∧ t.stage = s.stage ∧ SameZ s t ∧ t.silence = s.silence ∧ t.result = s.result ∧
    SameBytes s t ∧ SameHostSide s t
  (∀ lo < 1024, ∀ hi < 1024,
    decode (0x00000024#32 ||| BitVec.ofNat 32 lo <<< 8 ||| BitVec.ofNat 32 hi <<< 18) = .command (.peakre lo hi) ∧
    decode (0x00000025#32 ||| BitVec.ofNat 32 lo <<< 8 ||| BitVec.ofNat 32 hi <<< 18) = .command (.peakpw lo hi)) ∧
  ∀ (lo hi : Nat) (s : State),
    (∃ t, exec (.peakre lo hi) s = .next t ∧ found (fun k => (s.xout k).re) lo hi t ∧ frame s t) ∧
    ∃ t, exec (.peakpw lo hi) s = .next t ∧ found s.pwr lo hi t ∧ frame s t

/-- R199: a frame of pure silence gives `PEAKVAL = +0.0` and `PEAKIDX = 0` under every scan of either kind. -/
def Obligations.SilentFrameHasNoPeak : Prop :=
  ∀ s : State, (∀ i < 512, s.smp i = s.silence) → ∃ t, exec .frame s = .next t ∧ ∀ lo hi : Nat,
    (∃ u, exec (.peakre lo hi) t = .next u ∧ u.peakval = 0#64 ∧ u.peakidx = 0#10) ∧
    ∃ u, exec (.peakpw lo hi) t = .next u ∧ u.peakval = 0#64 ∧ u.peakidx = 0#10

/-! Mel filterbank and DCT (45_mel_dct.md). -/

/-- R214, R215, R216: `MELFB` from stage `POWER` on: with the Mel/DCT unit it writes all 26 log energies, each the logarithm of
the weighted running sum of the powers strictly inside its filter, a zero energy replaced first; without the unit it only
reports `UNIMPL` (R217). -/
def Obligations.MelfbWritesTheLogEnergies : Prop :=
  decode 0x00000028#32 = .command .melfb ∧
  ∀ s : State, 3 ≤ s.stage.code →
    let weight := fun l c r k : Nat =>
      if k < c then fdiv (ffloat ((k : Int) - l)) (ffloat ((c : Int) - l))
      else if k = c then fone else fdiv (ffloat ((r : Int) - k)) (ffloat ((r : Int) - c))
    let energy := fun m : Nat =>
      let l := melEdges.getD m 0
      let c := melEdges.getD (m + 1) 0
      let r := melEdges.getD (m + 2) 0
      (List.range' (l + 1) (r - 1 - l)).foldl (fun e k => fadd e (fmul (weight l c r k) (s.pwr k))) 0#64
    ∃ t, exec .melfb s = .next t ∧
      if Config.melPresent then
        (∀ m < 26, t.mel m = logUnit (if feq (energy m) 0#64 then melZeroSubst else energy m)) ∧ Succeeded t ∧
          t.stage = .mel ∧ SameZ s t ∧ SameScalars s t ∧ SameBytesOutside 0x0800 208 s t ∧ SameHostSide s t
      else FailedWith .unimpl s t

/-- R214, R218: with the Mel/DCT unit, `MELFB` completes from stage `POWER` on and `DCT` from stage `MEL` on, whatever the
filter table and the zero substitute. -/
def Obligations.MelStagesCompleteWithTheUnit : Prop :=
  (∀ (edges : List Nat) (subst : F64) (s : State), 3 ≤ s.stage.code →
    ∃ t, performMelfbWith true edges subst s = .ran t ∧ t.stage = .mel ∧
      (∀ m < 26, t.mel m = melValue edges subst s.pwrAll m) ∧ SameBytesOutside 0x0800 208 s t) ∧
  ∀ s : State, 4 ≤ s.stage.code → ∃ t, performDctWith true s = .ran t ∧ t.stage = .mfcc ∧
    (∀ n < 12, t.mfcc n = dctCoefficient s.melAll n) ∧ SameBytesOutside 0x0900 96 s t

/-- R213: the configured filter table is 28 strictly increasing bin numbers of at most 256; R130, R216: the logarithm is never
given a zero. Both hold by the model's construction of the two parameters (log entries 14 and 15). -/
def Obligations.MelParametersAreLegal : Prop :=
  (melEdges.length = 28 ∧ (∀ j, j < 27 → melEdges.getD j 0 < melEdges.getD (j + 1) 0) ∧ ∀ e ∈ melEdges, e ≤ 256) ∧
  ∀ e : F64, isZero (if feq e 0#64 then melZeroSubst else e) = false

/-- R215: inside an open filter interval every weight is positive and at most 1.0, and it is 1.0 at the centre. -/
def Obligations.MelWeightsLieInUnitInterval : Prop :=
  ∀ l c r k : Nat, l < c → c < r → r ≤ 256 → l < k → k < r →
    isFinite (melWeight l c r k) = true ∧ 0 < fvalue (melWeight l c r k) ∧ fvalue (melWeight l c r k) ≤ 1 ∧
    melWeight l c r c = fone

/-- R218, R219: `DCT` from stage `MEL` on: with the Mel/DCT unit it writes the 12 coefficients, each the running sum in
ascending order of the log energies times the cosines; without the unit it only reports `UNIMPL` (R217). -/
def Obligations.DctWritesTheCoefficients : Prop :=
  decode 0x00000029#32 = .command .dct ∧
  ∀ s : State, 4 ≤ s.stage.code → ∃ t, exec .dct s = .next t ∧
    if Config.melPresent then
      (∀ n < 12, t.mfcc n = (List.range 26).foldl (fun a m => fadd a (fmul (s.mel m)
        (cosUnit (fdiv (fmul fPI (ffloat (n * (2 * m + 1) : Nat))) 0x404A000000000000#64)))) 0#64) ∧ Succeeded t ∧
        t.stage = .mfcc ∧ SameZ s t ∧ SameScalars s t ∧ SameBytesOutside 0x0900 96 s t ∧ SameHostSide s t
    else FailedWith .unimpl s t

/-! System commands, macros and failures (46_system_macro.md, 60_exceptions.md). -/

/-- R230: `NOP` writes the report of success and nothing else. -/
def Obligations.NopOnlyClearsTheReport : Prop :=
  decode 0x00000000#32 = .command .nop ∧
  ∀ s : State, ∃ t, exec .nop s = .next t ∧ Succeeded t ∧ t.stage = s.stage ∧ SameZ s t ∧ SameScalars s t ∧
    SameBytes s t ∧ SameHostSide s t

/-- R231: `SRST` gives the five registers their reset values and leaves `Z` and every buffer as they are. -/
def Obligations.SoftResetKeepsTheBuffers : Prop :=
  decode 0x00000001#32 = .command .srst ∧
  ∀ s : State, ∃ t, exec .srst s = .next t ∧ statusWord t = 0#32 ∧ t.stage = .empty ∧ Succeeded t ∧ t.silence = 0#16 ∧
    t.peakidx = 0#10 ∧ t.peakval = 0#64 ∧ t.result = 0#64 ∧ SameZ s t ∧ SameBytes s t ∧ SameHostSide s t

/-- R232: `FRAME` completes in every stage with `STATUS = 0x00000300`, and its result is bit for bit that of `LOAD.HANN`,
`DFT` and `POWER` issued one after the other; it writes only `XIN`, `XOUT` and `PWR`. -/
def Obligations.FrameIsItsThreeCommands : Prop :=
  decode 0x00000030#32 = .command .frame ∧
  ∀ s : State, ∃ a b t, exec .loadHann s = .next a ∧ exec .dft a = .next b ∧ exec .power b = .next t ∧
    exec .frame s = .next t ∧ statusWord t = 0x00000300#32 ∧ SameZ s t ∧ SameScalars s t ∧ SameHostSide s t ∧
    ∀ x, x < 0x1000 ∨ 0x6000 ≤ x → t.mem.byte x = s.mem.byte x

/-- R233, R234: `MFCC` is `FRAME`, `MELFB` and `DCT` ended by the first failure, nothing undone; it completes with
`STATUS = 0x0000C500` with the Mel/DCT unit and ends with `0x00000311` without it. -/
def Obligations.MfccIsItsStagesFailFast : Prop :=
  decode 0x00000031#32 = .command .mfcc ∧
  ∀ s : State, ∃ a b t, exec .frame s = .next a ∧ exec .melfb a = .next b ∧ exec .mfcc s = .next t ∧
    (b.fail = true → t = b) ∧ (b.fail = false → exec .dct b = .next t) ∧
    statusWord t = (if Config.melPresent then 0x0000C500#32 else 0x00000311#32) ∧
    (Config.melPresent = false → FailedWith .unimpl a t) ∧ (Config.melPresent = true → b.fail = false) ∧
    SameZ s t ∧ SameScalars s t ∧ SameHostSide s t ∧
    ∀ x, x < 0x0800 ∨ (0x08D0 ≤ x ∧ x < 0x0900) ∨ (0x0960 ≤ x ∧ x < 0x1000) ∨ 0x6000 ≤ x → t.mem.byte x = s.mem.byte x

/-- R232, R233, the worked example: a frame whose samples equal the silence value but for the first gives, under `FRAME`, its
halved first difference in `XIN[0]` and in every bin, and the power of that in every element of `PWR`. -/
def Obligations.FrameOfOneSample : Prop :=
  ∀ s : State, s.smp 0 ≠ s.silence → (∀ i < 512, 0 < i → s.smp i = s.silence) →
    let h := fmul fHALF (ffloat ((s.smp 0).toInt - s.silence.toInt))
    ∃ t, exec .frame s = .next t ∧ t.xin 0 = ⟨h, 0#64⟩ ∧ (∀ k < 512, t.xout k = ⟨h, 0#64⟩) ∧
      ∀ k < 512, t.pwr k = fmul (fmul h h) 0x3F60000000000000#64

/-- R243, R244: a consumer below its stage is refused with `SEQ`, or with `UNIMPL` where it needs the Mel/DCT unit and there is
none, and nothing but the report changes. -/
def Obligations.StagePreconditions : Prop :=
  ∀ s : State,
    (s.stage.code < 2 → ∃ t, exec .power s = .next t ∧ FailedWith .seq s t) ∧
    (s.stage.code < 3 → ∃ t, exec .melfb s = .next t ∧
      FailedWith (if Config.melPresent then .seq else .unimpl) s t) ∧
    (s.stage.code < 4 → ∃ t, exec .dct s = .next t ∧ FailedWith (if Config.melPresent then .seq else .unimpl) s t)

/-- R25, R241, R242: every command answers a next state and reports either success with `OK` or failure with `UNIMPL` or
`SEQ`; only `POWER`, `MELFB`, `DCT` and `MFCC` can fail; a single command that fails has changed nothing but the report. -/
def Obligations.EveryCommandReportsItsEnd : Prop :=
  ∀ (i : Instr) (s : State), ∃ t, exec i s = .next t ∧
    (Succeeded t ∨ (t.fail = true ∧ (t.errcode = .unimpl ∨ t.errcode = .seq))) ∧
    (t.fail = true → i = .power ∨ i = .melfb ∨ i = .dct ∨ i = .mfcc) ∧
    (t.fail = true → i ≠ .mfcc → FailedWith t.errcode s t)

/-- R23, R243: a command that succeeds sets `STAGE` to its own value whatever it was, or leaves it unchanged where it is no
stage command. -/
def Obligations.StageTransitions : Prop :=
  ∀ (i : Instr) (s t : State), exec i s = .next t → t.fail = false →
    match i with
    | .loadRect => t.stage = .windowed
    | .loadHann => t.stage = .windowed
    | .loadHamm => t.stage = .windowed
    | .dft => t.stage = .dft
    | .power => t.stage = .power
    | .frame => t.stage = .power
    | .melfb => t.stage = .mel
    | .dct => t.stage = .mfcc
    | .mfcc => t.stage = .mfcc
    | .srst => t.stage = .empty
    | .nop => t.stage = s.stage
    | .cadd _ _ _ => t.stage = s.stage
    | .cmul _ _ _ => t.stage = s.stage
    | .cmag _ => t.stage = s.stage
    | .cexp _ _ => t.stage = s.stage
    | .getpwr _ => t.stage = s.stage
    | .peakre _ _ => t.stage = s.stage
    | .peakpw _ _ => t.stage = s.stage

/-- R21, R30 to R39: which commands write which registers and buffers, and no others. -/
def Obligations.OnlyNamedCommandsWriteEachState : Prop :=
  ∀ (i : Instr) (s t : State), exec i s = .next t →
    (∀ n < 512, t.smp n = s.smp n) ∧
    ((∀ zd za zb, i ≠ .cadd zd za zb) → (∀ zd za zb, i ≠ .cmul zd za zb) → (∀ zd za, i ≠ .cexp zd za) → SameZ s t) ∧
    (i ≠ .srst → t.silence = s.silence) ∧
    (i ≠ .srst → (∀ lo hi, i ≠ .peakre lo hi) → (∀ lo hi, i ≠ .peakpw lo hi) →
      t.peakidx = s.peakidx ∧ t.peakval = s.peakval) ∧
    (i ≠ .srst → (∀ za, i ≠ .cmag za) → (∀ k, i ≠ .getpwr k) → t.result = s.result) ∧
    (i ≠ .loadRect → i ≠ .loadHann → i ≠ .loadHamm → i ≠ .frame → i ≠ .mfcc → ∀ n < 512, t.xin n = s.xin n) ∧
    (i ≠ .dft → i ≠ .frame → i ≠ .mfcc → ∀ k < 512, t.xout k = s.xout k) ∧
    (i ≠ .power → i ≠ .frame → i ≠ .mfcc → ∀ k < 512, t.pwr k = s.pwr k) ∧
    (i ≠ .melfb → i ≠ .mfcc → ∀ m < 26, t.mel m = s.mel m) ∧
    (i ≠ .dct → i ≠ .mfcc → ∀ n < 12, t.mfcc n = s.mfcc n)

/-! The invariant. -/

/-- The invariant of the machine is kept by every step from every state that meets it: the memory stays in canonical form
inside the buffers (the model's own notion: log entry 9), the report stays consistent, `PEAKIDX` stays a bin number, and
`STAGE` stays reachable. -/
def Obligations.EveryStepKeepsTheInvariant : Prop :=
  ∀ s t : State, s.Inv → step s = .next t → t.Inv

/-- The reset state meets the invariant (its memory lists nothing by the model's choice: log entry 9). -/
def Obligations.ResetMeetsTheInvariant : Prop := State.reset.Inv
end

