-- ==== Sys2Proof/Laws/Memory.lean ====
section
/-! SUPPORT. The laws of the buffers' memory: what a store does to each byte, that it keeps the canonical form and the
buffers' offsets, and that elements stored one after the other read back. -/

namespace Sys2Proof.Machine

theorem cellAt_append (xs ys : List Host.Cell) (a : Nat) :
    cellAt (xs ++ ys) a = if (∃ c ∈ xs, c.1 = a) then cellAt xs a else cellAt ys a := by
  induction xs with
  | nil => simp
  | cons c cs ih =>
    simp only [List.cons_append, cellAt, ih, List.mem_cons]
    by_cases h : c.1 = a
    · simp [h]
    · simp only [h, if_false]
      congr 1
      simp [h]

theorem exists_offset_append {xs ys : List Host.Cell} {a : Nat} :
    (∃ c ∈ xs ++ ys, c.1 = a) ↔ (∃ c ∈ xs, c.1 = a) ∨ ∃ c ∈ ys, c.1 = a := by
  constructor
  · rintro ⟨c, hc, h⟩
    rcases List.mem_append.mp hc with hc | hc
    · exact .inl ⟨c, hc, h⟩
    · exact .inr ⟨c, hc, h⟩
  · rintro (⟨c, hc, h⟩ | ⟨c, hc, h⟩)
    · exact ⟨c, List.mem_append.mpr (.inl hc), h⟩
    · exact ⟨c, List.mem_append.mpr (.inr hc), h⟩

theorem cellAt_eq_unlisted {xs : List Host.Cell} {a : Nat} (h : ∀ c ∈ xs, c.1 ≠ a) : cellAt xs a = unlistedByte := by
  induction xs with
  | nil => rfl
  | cons c cs ih =>
    simp only [cellAt, h c (by simp), if_false]
    exact ih fun d hd => h d (by simp [hd])

theorem cellAt_filter (p : Nat → Bool) (xs : List Host.Cell) (a : Nat) :
    cellAt (xs.filter fun c => p c.1) a = if p a = true then cellAt xs a else unlistedByte := by
  induction xs with
  | nil => simp [cellAt]
  | cons c cs ih =>
    by_cases hc : p c.1 = true <;> by_cases ha : c.1 = a
    · subst ha; simp [hc, cellAt]
    · simp [hc, cellAt, ha, ih]
    · subst ha; simp [hc, ih]
    · simp [hc, cellAt, ha, ih]

theorem cellsFrom_offset {a : Nat} {bs : List Byte} {c : Host.Cell} (h : c ∈ cellsFrom a bs) :
    a ≤ c.1 ∧ c.1 < a + bs.length ∧ c.2 ≠ unlistedByte := by
  induction bs generalizing a with
  | nil => simp [cellsFrom] at h
  | cons b bs ih =>
    simp only [cellsFrom] at h
    split at h
    · have := ih h
      refine ⟨by omega, by simp only [List.length_cons]; omega, this.2.2⟩
    · rcases List.mem_cons.mp h with rfl | h
      · simp_all
      · have := ih h
        refine ⟨by omega, by simp only [List.length_cons]; omega, this.2.2⟩

theorem cellsFrom_pairwise (a : Nat) (bs : List Byte) : (cellsFrom a bs).Pairwise fun c d => c.1 < d.1 := by
  induction bs generalizing a with
  | nil => simp [cellsFrom]
  | cons b bs ih =>
    simp only [cellsFrom]
    split
    · exact ih _
    · exact List.pairwise_cons.mpr ⟨fun d hd => by have := cellsFrom_offset hd; simp only; omega, ih _⟩

/-- The byte a run holds at an offset inside it. -/
theorem cellAt_cellsFrom (a : Nat) (bs : List Byte) (i : Nat) :
    cellAt (cellsFrom a bs) (a + i) = bs.getD i unlistedByte := by
  induction bs generalizing a i with
  | nil => simp [cellsFrom, cellAt]
  | cons b bs ih =>
    simp only [cellsFrom]
    cases i with
    | zero =>
      split
      · rename_i hb
        rw [cellAt_eq_unlisted]
        · simp [hb]
        · intro c hc; have := cellsFrom_offset hc; omega
      · simp [cellAt]
    | succ i =>
      have h := ih (a + 1) i
      rw [show a + 1 + i = a + (i + 1) by omega] at h
      split
      · simp [h]
      · simp [cellAt, h]

/-- What a store does to every byte: the run inside it, the old byte outside it. -/
theorem Memory.byte_store (m : Memory) (a : Nat) (bs : List Byte) (x : Nat) :
    (m.store a bs).byte x = if a ≤ x ∧ x < a + bs.length then bs.getD (x - a) unlistedByte else m.byte x := by
  have low : (∃ c ∈ m.cells.filter (fun c => decide (c.1 < a)), c.1 = x) ↔ x < a ∧ ∃ c ∈ m.cells, c.1 = x := by
    constructor
    · rintro ⟨c, hc, rfl⟩
      simp only [List.mem_filter, decide_eq_true_eq] at hc
      exact ⟨hc.2, c, hc.1, rfl⟩
    · rintro ⟨h, c, hc, rfl⟩
      exact ⟨c, by simp [hc, h], rfl⟩
  have hrun := cellAt_cellsFrom a bs (x - a)
  have hout : ¬ (a ≤ x ∧ x < a + bs.length) → ¬ ∃ c ∈ cellsFrom a bs, c.1 = x := by
    rintro hn ⟨c, hc, rfl⟩
    have := cellsFrom_offset hc
    omega
  unfold Memory.byte Memory.store
  simp only [cellAt_append, exists_offset_append, low, cellAt_filter (fun n => decide (n < a)),
    cellAt_filter (fun n => decide (a + bs.length ≤ n)), decide_eq_true_eq]
  by_cases hin : a ≤ x ∧ x < a + bs.length
  · rw [show a + (x - a) = x by omega] at hrun
    rw [if_neg (by omega : ¬ (x < a ∧ ∃ c ∈ m.cells, c.1 = x)), if_pos hin, hrun, if_neg (by omega : ¬ a + bs.length ≤ x)]
    split
    · rfl
    · rename_i hnone
      rw [← hrun]
      exact (cellAt_eq_unlisted fun c hc h => hnone (.inr ⟨c, hc, h⟩)).symm
  · have hno := hout hin
    rw [if_neg hin]
    by_cases hlt : x < a
    · by_cases hex : ∃ c ∈ m.cells, c.1 = x
      · rw [if_pos (.inl ⟨hlt, hex⟩), if_pos ⟨hlt, hex⟩, if_pos hlt]
      · rw [if_neg (by rintro (h | h); exacts [hex h.2, hno h]), if_neg (by omega),
          cellAt_eq_unlisted fun c hc h => hex ⟨c, hc, h⟩]
    · rw [if_neg (by rintro (h | h); exacts [hlt h.1, hno h]), if_pos (by omega)]

/-- A store leaves every byte outside its run as it was. -/
theorem Memory.byte_store_outside {m : Memory} {a : Nat} {bs : List Byte} {x : Nat} (h : x < a ∨ a + bs.length ≤ x) :
    (m.store a bs).byte x = m.byte x := by
  rw [Memory.byte_store, if_neg (by omega)]

/-- A store keeps the canonical form. -/
theorem Memory.canonical_store {m : Memory} (h : m.Canonical) (a : Nat) (bs : List Byte) : (m.store a bs).Canonical := by
  obtain ⟨hp, hn⟩ := h
  refine ⟨?_, ?_⟩
  · simp only [Memory.store, List.pairwise_append]
    refine ⟨⟨hp.filter _, cellsFrom_pairwise a bs, ?_⟩, hp.filter _, ?_⟩
    · intro c hc d hd
      have := cellsFrom_offset hd
      simp at hc; omega
    · intro c hc d hd
      simp only [List.mem_filter, decide_eq_true_eq] at hd
      rcases List.mem_append.mp hc with hc | hc
      · simp at hc; omega
      · have := cellsFrom_offset hc; omega
  · intro c hc
    simp only [Memory.store, List.mem_append, List.mem_filter] at hc
    rcases hc with (⟨hc, _⟩ | hc) | ⟨hc, _⟩
    · exact hn c hc
    · exact (cellsFrom_offset hc).2.2
    · exact hn c hc

/-- A cell of a memory after a store was there before, or lies in the run. -/
theorem Memory.mem_store {m : Memory} {a : Nat} {bs : List Byte} {c : Host.Cell} (h : c ∈ (m.store a bs).cells) :
    c ∈ m.cells ∨ (a ≤ c.1 ∧ c.1 < a + bs.length) := by
  simp only [Memory.store, List.mem_append, List.mem_filter] at h
  rcases h with (⟨h, _⟩ | h) | ⟨h, _⟩
  · exact .inl h
  · have := cellsFrom_offset h; exact .inr ⟨this.1, this.2.1⟩
  · exact .inl h

@[simp] theorem length_bytes32 (w : Word32) : (bytes32 w).length = 4 := rfl

@[simp] theorem length_bytes64 (x : F64) : (bytes64 x).length = 8 := rfl

@[simp] theorem length_bytesCplx (v : Cplx) : (bytesCplx v).length = 16 := rfl

@[simp] theorem length_flatMap_bytes64 (vs : List F64) : (vs.flatMap bytes64).length = 8 * vs.length := by
  induction vs with
  | nil => rfl
  | cons v vs ih => simp only [List.flatMap_cons, List.length_append, length_bytes64, ih, List.length_cons]; omega

@[simp] theorem length_flatMap_bytesCplx (vs : List Cplx) : (vs.flatMap bytesCplx).length = 16 * vs.length := by
  induction vs with
  | nil => rfl
  | cons v vs ih => simp only [List.flatMap_cons, List.length_append, length_bytesCplx, ih, List.length_cons]; omega

/-- Byte `j` of element `i` of a run of equal-sized elements. -/
theorem getD_flatMap {α : Type} {f : α → List Byte} {n : Nat} (hf : ∀ x, (f x).length = n) (vs : List α) (i j : Nat)
    (hi : i < vs.length) (hj : j < n) (d : Byte) : (vs.flatMap f).getD (n * i + j) d = (f vs[i]).getD j d := by
  induction vs generalizing i with
  | nil => simp at hi
  | cons v vs ih =>
    simp only [List.flatMap_cons, List.getD_eq_getElem?_getD]
    cases i with
    | zero => simp [List.getElem?_append_left, hf v, hj]
    | succ i =>
      have hi' : i < vs.length := by simpa using hi
      have := ih i hi'
      simp only [List.getD_eq_getElem?_getD] at this
      rw [List.getElem?_append_right (by rw [hf]; rw [Nat.mul_succ]; omega), hf]
      rw [show n * (i + 1) + j - n = n * i + j by rw [Nat.mul_succ]; omega]
      simpa using this

/-- The two words of a binary64 make it up. -/
@[simp] theorem highWord_append_lowWord (x : F64) : highWord x ++ lowWord x = x := by
  unfold highWord lowWord
  exact BitVec.eq_of_getLsbD_eq fun i hi => by
    simp only [BitVec.getLsbD_append, BitVec.getLsbD_extractLsb']
    by_cases h : i < 32
    · simp [h]
    · simp [h, show i - 32 < 32 by omega, show 32 + (i - 32) = i by omega]

theorem bytes_of_word (w : Word32) :
    w.extractLsb' 24 8 ++ w.extractLsb' 16 8 ++ w.extractLsb' 8 8 ++ w.extractLsb' 0 8 = w := by
  exact BitVec.eq_of_getLsbD_eq fun i hi => by
    simp only [BitVec.getLsbD_append, BitVec.getLsbD_extractLsb']
    have : i < 32 := hi
    interval_cases i <;> simp

/-- A word read back from a memory whose four bytes are known. -/
theorem Memory.word_eq_of_bytes {m : Memory} {a : Nat} {w : Word32}
    (h : ∀ j < 4, m.byte (a + j) = (bytes32 w).getD j unlistedByte) : m.word a = w := by
  have h0 := h 0 (by omega)
  have h1 := h 1 (by omega)
  have h2 := h 2 (by omega)
  have h3 := h 3 (by omega)
  simp only [Nat.add_zero] at h0
  unfold Memory.word
  rw [h0, h1, h2, h3]
  exact bytes_of_word w

/-- A binary64 read back from a memory whose eight bytes are known. -/
theorem Memory.f64_eq_of_bytes {m : Memory} {a : Nat} {x : F64}
    (h : ∀ j < 8, m.byte (a + j) = (bytes64 x).getD j unlistedByte) : m.f64 a = x := by
  unfold Memory.f64
  rw [Memory.word_eq_of_bytes (a := a) (w := lowWord x) fun j hj => ?_,
    Memory.word_eq_of_bytes (a := a + 4) (w := highWord x) fun j hj => ?_]
  · exact highWord_append_lowWord x
  · rw [Nat.add_assoc, h (4 + j) (by omega)]
    unfold bytes64
    rw [List.getD_append_right _ _ _ _ (by simp)]
    congr 1
    simp
  · rw [h j (by omega)]
    unfold bytes64
    rw [List.getD_append _ _ _ _ (by simpa using hj)]

/-- A complex element read back from a memory whose sixteen bytes are known. -/
theorem Memory.cplx_eq_of_bytes {m : Memory} {a : Nat} {v : Cplx}
    (h : ∀ j < 16, m.byte (a + j) = (bytesCplx v).getD j unlistedByte) : m.cplx a = v := by
  unfold Memory.cplx
  rw [Memory.f64_eq_of_bytes (a := a) (x := v.re) fun j hj => ?_,
    Memory.f64_eq_of_bytes (a := a + 8) (x := v.im) fun j hj => ?_]
  · rw [Nat.add_assoc, h (8 + j) (by omega)]
    unfold bytesCplx
    rw [List.getD_append_right _ _ _ _ (by simp)]
    congr 1
    simp
  · rw [h j (by omega)]
    unfold bytesCplx
    rw [List.getD_append _ _ _ _ (by simpa using hj)]

/-- A word stored reads back. -/
theorem Memory.word_store (m : Memory) (a : Nat) (w : Word32) : (m.store a (bytes32 w)).word a = w :=
  Memory.word_eq_of_bytes fun j hj => by
    rw [Memory.byte_store, if_pos (by simp; omega)]
    congr 1; omega

/-- Element `i` of binary64 elements stored one after the other reads back. -/
theorem Memory.f64_store (m : Memory) (a : Nat) (vs : List F64) (i : Nat) (hi : i < vs.length) :
    (m.store a (vs.flatMap bytes64)).f64 (a + 8 * i) = vs[i] :=
  Memory.f64_eq_of_bytes fun j hj => by
    rw [Memory.byte_store, if_pos (by simp; omega), show a + 8 * i + j - a = 8 * i + j by omega]
    exact getD_flatMap (n := 8) (fun _ => rfl) vs i j hi hj _

/-- Element `i` of complex elements stored one after the other reads back. -/
theorem Memory.cplx_store (m : Memory) (a : Nat) (vs : List Cplx) (i : Nat) (hi : i < vs.length) :
    (m.store a (vs.flatMap bytesCplx)).cplx (a + 16 * i) = vs[i] :=
  Memory.cplx_eq_of_bytes fun j hj => by
    rw [Memory.byte_store, if_pos (by simp; omega), show a + 16 * i + j - a = 16 * i + j by omega]
    exact getD_flatMap (n := 16) (fun _ => rfl) vs i j hi hj _

/-- A word read where the four bytes agree. -/
theorem Memory.word_congr {m n : Memory} {a : Nat} (h : ∀ j < 4, m.byte (a + j) = n.byte (a + j)) : m.word a = n.word a := by
  unfold Memory.word
  rw [h 3 (by omega), h 2 (by omega), h 1 (by omega), show m.byte a = n.byte a from h 0 (by omega)]

/-- A binary64 read where the eight bytes agree. -/
theorem Memory.f64_congr {m n : Memory} {a : Nat} (h : ∀ j < 8, m.byte (a + j) = n.byte (a + j)) : m.f64 a = n.f64 a := by
  have low : m.word a = n.word a := Memory.word_congr fun j hj => h j (by omega)
  have high : m.word (a + 4) = n.word (a + 4) :=
    Memory.word_congr fun j hj => by simpa [Nat.add_assoc] using h (4 + j) (by omega)
  unfold Memory.f64
  rw [low, high]

/-- A complex element read where the sixteen bytes agree. -/
theorem Memory.cplx_congr {m n : Memory} {a : Nat} (h : ∀ j < 16, m.byte (a + j) = n.byte (a + j)) :
    m.cplx a = n.cplx a := by
  have re : m.f64 a = n.f64 a := Memory.f64_congr fun j hj => h j (by omega)
  have im : m.f64 (a + 8) = n.f64 (a + 8) :=
    Memory.f64_congr fun j hj => by simpa [Nat.add_assoc] using h (8 + j) (by omega)
  unfold Memory.cplx
  rw [re, im]

/-- The unspecified contents of a reset event are in canonical form. -/
theorem canonical_unspecifiedMemory (n : Nat) : (unspecifiedMemory n).Canonical := by
  refine ⟨?_, ?_⟩
  · unfold unspecifiedMemory
    simp only [List.pairwise_filterMap]
    refine List.Pairwise.imp ?_ ((List.pairwise_lt_range (n := Config.windowBytes)).filter _)
    intro a b hab x hx y hy
    split at hx <;> split at hy <;> simp_all
    rw [← hx, ← hy]
    exact hab
  · intro c hc
    simp only [unspecifiedMemory, List.mem_filterMap] at hc
    obtain ⟨a, _, ha⟩ := hc
    split at ha <;> simp_all
    subst ha
    assumption

/-- The unspecified contents of a reset event lie in the buffers. -/
theorem cells_unspecifiedMemory (n : Nat) : ∀ c ∈ (unspecifiedMemory n).cells, inBuffers c.1 = true := by
  intro c hc
  simp only [unspecifiedMemory, List.mem_filterMap, List.mem_filter] at hc
  obtain ⟨a, ⟨_, hin⟩, ha⟩ := hc
  split at ha <;> simp_all
  subst ha
  exact hin

end Sys2Proof.Machine
end

