-- ==== Sys2Proof/Laws/State.lean ====
section
/-! SUPPORT. What each update of the state does to each field: one lemma per field per update, so that no later proof unfolds a
record update. -/

namespace Sys2Proof.Machine

@[simp] theorem State.succeed_z0 (s : State) : s.succeed.z0 = s.z0 := rfl
@[simp] theorem State.succeed_z1 (s : State) : s.succeed.z1 = s.z1 := rfl
@[simp] theorem State.succeed_z2 (s : State) : s.succeed.z2 = s.z2 := rfl
@[simp] theorem State.succeed_z3 (s : State) : s.succeed.z3 = s.z3 := rfl
@[simp] theorem State.succeed_fail (s : State) : s.succeed.fail = false := rfl
@[simp] theorem State.succeed_errcode (s : State) : s.succeed.errcode = .ok := rfl
@[simp] theorem State.succeed_stage (s : State) : s.succeed.stage = s.stage := rfl
@[simp] theorem State.succeed_silence (s : State) : s.succeed.silence = s.silence := rfl
@[simp] theorem State.succeed_peakidx (s : State) : s.succeed.peakidx = s.peakidx := rfl
@[simp] theorem State.succeed_peakval (s : State) : s.succeed.peakval = s.peakval := rfl
@[simp] theorem State.succeed_result (s : State) : s.succeed.result = s.result := rfl
@[simp] theorem State.succeed_mem (s : State) : s.succeed.mem = s.mem := rfl
@[simp] theorem State.succeed_pending (s : State) : s.succeed.pending = s.pending := rfl
@[simp] theorem State.succeed_response (s : State) : s.succeed.response = s.response := rfl
@[simp] theorem State.succeed_draws (s : State) : s.succeed.draws = s.draws := rfl

@[simp] theorem State.failWith_z0 (s : State) (c : ErrCode) : (s.failWith c).z0 = s.z0 := rfl
@[simp] theorem State.failWith_z1 (s : State) (c : ErrCode) : (s.failWith c).z1 = s.z1 := rfl
@[simp] theorem State.failWith_z2 (s : State) (c : ErrCode) : (s.failWith c).z2 = s.z2 := rfl
@[simp] theorem State.failWith_z3 (s : State) (c : ErrCode) : (s.failWith c).z3 = s.z3 := rfl
@[simp] theorem State.failWith_fail (s : State) (c : ErrCode) : (s.failWith c).fail = true := rfl
@[simp] theorem State.failWith_errcode (s : State) (c : ErrCode) : (s.failWith c).errcode = c := rfl
@[simp] theorem State.failWith_stage (s : State) (c : ErrCode) : (s.failWith c).stage = s.stage := rfl
@[simp] theorem State.failWith_silence (s : State) (c : ErrCode) : (s.failWith c).silence = s.silence := rfl
@[simp] theorem State.failWith_peakidx (s : State) (c : ErrCode) : (s.failWith c).peakidx = s.peakidx := rfl
@[simp] theorem State.failWith_peakval (s : State) (c : ErrCode) : (s.failWith c).peakval = s.peakval := rfl
@[simp] theorem State.failWith_result (s : State) (c : ErrCode) : (s.failWith c).result = s.result := rfl
@[simp] theorem State.failWith_mem (s : State) (c : ErrCode) : (s.failWith c).mem = s.mem := rfl
@[simp] theorem State.failWith_pending (s : State) (c : ErrCode) : (s.failWith c).pending = s.pending := rfl
@[simp] theorem State.failWith_response (s : State) (c : ErrCode) : (s.failWith c).response = s.response := rfl
@[simp] theorem State.failWith_draws (s : State) (c : ErrCode) : (s.failWith c).draws = s.draws := rfl

@[simp] theorem State.setStage_z0 (s : State) (g : Stage) : (s.setStage g).z0 = s.z0 := rfl
@[simp] theorem State.setStage_z1 (s : State) (g : Stage) : (s.setStage g).z1 = s.z1 := rfl
@[simp] theorem State.setStage_z2 (s : State) (g : Stage) : (s.setStage g).z2 = s.z2 := rfl
@[simp] theorem State.setStage_z3 (s : State) (g : Stage) : (s.setStage g).z3 = s.z3 := rfl
@[simp] theorem State.setStage_fail (s : State) (g : Stage) : (s.setStage g).fail = s.fail := rfl
@[simp] theorem State.setStage_errcode (s : State) (g : Stage) : (s.setStage g).errcode = s.errcode := rfl
@[simp] theorem State.setStage_stage (s : State) (g : Stage) : (s.setStage g).stage = g := rfl
@[simp] theorem State.setStage_silence (s : State) (g : Stage) : (s.setStage g).silence = s.silence := rfl
@[simp] theorem State.setStage_peakidx (s : State) (g : Stage) : (s.setStage g).peakidx = s.peakidx := rfl
@[simp] theorem State.setStage_peakval (s : State) (g : Stage) : (s.setStage g).peakval = s.peakval := rfl
@[simp] theorem State.setStage_result (s : State) (g : Stage) : (s.setStage g).result = s.result := rfl
@[simp] theorem State.setStage_mem (s : State) (g : Stage) : (s.setStage g).mem = s.mem := rfl
@[simp] theorem State.setStage_pending (s : State) (g : Stage) : (s.setStage g).pending = s.pending := rfl
@[simp] theorem State.setStage_response (s : State) (g : Stage) : (s.setStage g).response = s.response := rfl
@[simp] theorem State.setStage_draws (s : State) (g : Stage) : (s.setStage g).draws = s.draws := rfl

@[simp] theorem State.respond_z0 (s : State) (r : BusResponse) : (s.respond r).z0 = s.z0 := rfl
@[simp] theorem State.respond_z1 (s : State) (r : BusResponse) : (s.respond r).z1 = s.z1 := rfl
@[simp] theorem State.respond_z2 (s : State) (r : BusResponse) : (s.respond r).z2 = s.z2 := rfl
@[simp] theorem State.respond_z3 (s : State) (r : BusResponse) : (s.respond r).z3 = s.z3 := rfl
@[simp] theorem State.respond_fail (s : State) (r : BusResponse) : (s.respond r).fail = s.fail := rfl
@[simp] theorem State.respond_errcode (s : State) (r : BusResponse) : (s.respond r).errcode = s.errcode := rfl
@[simp] theorem State.respond_stage (s : State) (r : BusResponse) : (s.respond r).stage = s.stage := rfl
@[simp] theorem State.respond_silence (s : State) (r : BusResponse) : (s.respond r).silence = s.silence := rfl
@[simp] theorem State.respond_peakidx (s : State) (r : BusResponse) : (s.respond r).peakidx = s.peakidx := rfl
@[simp] theorem State.respond_peakval (s : State) (r : BusResponse) : (s.respond r).peakval = s.peakval := rfl
@[simp] theorem State.respond_result (s : State) (r : BusResponse) : (s.respond r).result = s.result := rfl
@[simp] theorem State.respond_mem (s : State) (r : BusResponse) : (s.respond r).mem = s.mem := rfl
@[simp] theorem State.respond_pending (s : State) (r : BusResponse) : (s.respond r).pending = s.pending := rfl
@[simp] theorem State.respond_response (s : State) (r : BusResponse) : (s.respond r).response = some r := rfl
@[simp] theorem State.respond_draws (s : State) (r : BusResponse) : (s.respond r).draws = s.draws := rfl

@[simp] theorem State.storeCplxs_z0 (s : State) (a : Nat) (vs : List Cplx) : (s.storeCplxs a vs).z0 = s.z0 := rfl
@[simp] theorem State.storeCplxs_z1 (s : State) (a : Nat) (vs : List Cplx) : (s.storeCplxs a vs).z1 = s.z1 := rfl
@[simp] theorem State.storeCplxs_z2 (s : State) (a : Nat) (vs : List Cplx) : (s.storeCplxs a vs).z2 = s.z2 := rfl
@[simp] theorem State.storeCplxs_z3 (s : State) (a : Nat) (vs : List Cplx) : (s.storeCplxs a vs).z3 = s.z3 := rfl
@[simp] theorem State.storeCplxs_fail (s : State) (a : Nat) (vs : List Cplx) : (s.storeCplxs a vs).fail = s.fail := rfl
@[simp] theorem State.storeCplxs_errcode (s : State) (a : Nat) (vs : List Cplx) : (s.storeCplxs a vs).errcode = s.errcode := rfl
@[simp] theorem State.storeCplxs_stage (s : State) (a : Nat) (vs : List Cplx) : (s.storeCplxs a vs).stage = s.stage := rfl
@[simp] theorem State.storeCplxs_silence (s : State) (a : Nat) (vs : List Cplx) : (s.storeCplxs a vs).silence = s.silence := rfl
@[simp] theorem State.storeCplxs_peakidx (s : State) (a : Nat) (vs : List Cplx) : (s.storeCplxs a vs).peakidx = s.peakidx := rfl
@[simp] theorem State.storeCplxs_peakval (s : State) (a : Nat) (vs : List Cplx) : (s.storeCplxs a vs).peakval = s.peakval := rfl
@[simp] theorem State.storeCplxs_result (s : State) (a : Nat) (vs : List Cplx) : (s.storeCplxs a vs).result = s.result := rfl
@[simp] theorem State.storeCplxs_mem (s : State) (a : Nat) (vs : List Cplx) : (s.storeCplxs a vs).mem = s.mem.store a (vs.flatMap bytesCplx) := rfl
@[simp] theorem State.storeCplxs_pending (s : State) (a : Nat) (vs : List Cplx) : (s.storeCplxs a vs).pending = s.pending := rfl
@[simp] theorem State.storeCplxs_response (s : State) (a : Nat) (vs : List Cplx) : (s.storeCplxs a vs).response = s.response := rfl
@[simp] theorem State.storeCplxs_draws (s : State) (a : Nat) (vs : List Cplx) : (s.storeCplxs a vs).draws = s.draws := rfl

@[simp] theorem State.storeF64s_z0 (s : State) (a : Nat) (vs : List F64) : (s.storeF64s a vs).z0 = s.z0 := rfl
@[simp] theorem State.storeF64s_z1 (s : State) (a : Nat) (vs : List F64) : (s.storeF64s a vs).z1 = s.z1 := rfl
@[simp] theorem State.storeF64s_z2 (s : State) (a : Nat) (vs : List F64) : (s.storeF64s a vs).z2 = s.z2 := rfl
@[simp] theorem State.storeF64s_z3 (s : State) (a : Nat) (vs : List F64) : (s.storeF64s a vs).z3 = s.z3 := rfl
@[simp] theorem State.storeF64s_fail (s : State) (a : Nat) (vs : List F64) : (s.storeF64s a vs).fail = s.fail := rfl
@[simp] theorem State.storeF64s_errcode (s : State) (a : Nat) (vs : List F64) : (s.storeF64s a vs).errcode = s.errcode := rfl
@[simp] theorem State.storeF64s_stage (s : State) (a : Nat) (vs : List F64) : (s.storeF64s a vs).stage = s.stage := rfl
@[simp] theorem State.storeF64s_silence (s : State) (a : Nat) (vs : List F64) : (s.storeF64s a vs).silence = s.silence := rfl
@[simp] theorem State.storeF64s_peakidx (s : State) (a : Nat) (vs : List F64) : (s.storeF64s a vs).peakidx = s.peakidx := rfl
@[simp] theorem State.storeF64s_peakval (s : State) (a : Nat) (vs : List F64) : (s.storeF64s a vs).peakval = s.peakval := rfl
@[simp] theorem State.storeF64s_result (s : State) (a : Nat) (vs : List F64) : (s.storeF64s a vs).result = s.result := rfl
@[simp] theorem State.storeF64s_mem (s : State) (a : Nat) (vs : List F64) : (s.storeF64s a vs).mem = s.mem.store a (vs.flatMap bytes64) := rfl
@[simp] theorem State.storeF64s_pending (s : State) (a : Nat) (vs : List F64) : (s.storeF64s a vs).pending = s.pending := rfl
@[simp] theorem State.storeF64s_response (s : State) (a : Nat) (vs : List F64) : (s.storeF64s a vs).response = s.response := rfl
@[simp] theorem State.storeF64s_draws (s : State) (a : Nat) (vs : List F64) : (s.storeF64s a vs).draws = s.draws := rfl

@[simp] theorem State.storeWord_z0 (s : State) (a : Nat) (w : Word32) : (s.storeWord a w).z0 = s.z0 := rfl
@[simp] theorem State.storeWord_z1 (s : State) (a : Nat) (w : Word32) : (s.storeWord a w).z1 = s.z1 := rfl
@[simp] theorem State.storeWord_z2 (s : State) (a : Nat) (w : Word32) : (s.storeWord a w).z2 = s.z2 := rfl
@[simp] theorem State.storeWord_z3 (s : State) (a : Nat) (w : Word32) : (s.storeWord a w).z3 = s.z3 := rfl
@[simp] theorem State.storeWord_fail (s : State) (a : Nat) (w : Word32) : (s.storeWord a w).fail = s.fail := rfl
@[simp] theorem State.storeWord_errcode (s : State) (a : Nat) (w : Word32) : (s.storeWord a w).errcode = s.errcode := rfl
@[simp] theorem State.storeWord_stage (s : State) (a : Nat) (w : Word32) : (s.storeWord a w).stage = s.stage := rfl
@[simp] theorem State.storeWord_silence (s : State) (a : Nat) (w : Word32) : (s.storeWord a w).silence = s.silence := rfl
@[simp] theorem State.storeWord_peakidx (s : State) (a : Nat) (w : Word32) : (s.storeWord a w).peakidx = s.peakidx := rfl
@[simp] theorem State.storeWord_peakval (s : State) (a : Nat) (w : Word32) : (s.storeWord a w).peakval = s.peakval := rfl
@[simp] theorem State.storeWord_result (s : State) (a : Nat) (w : Word32) : (s.storeWord a w).result = s.result := rfl
@[simp] theorem State.storeWord_mem (s : State) (a : Nat) (w : Word32) : (s.storeWord a w).mem = s.mem.store a (bytes32 w) := rfl
@[simp] theorem State.storeWord_pending (s : State) (a : Nat) (w : Word32) : (s.storeWord a w).pending = s.pending := rfl
@[simp] theorem State.storeWord_response (s : State) (a : Nat) (w : Word32) : (s.storeWord a w).response = s.response := rfl
@[simp] theorem State.storeWord_draws (s : State) (a : Nat) (w : Word32) : (s.storeWord a w).draws = s.draws := rfl

@[simp] theorem State.setPeak_z0 (s : State) (b : F64 × Nat) : (s.setPeak b).z0 = s.z0 := rfl
@[simp] theorem State.setPeak_z1 (s : State) (b : F64 × Nat) : (s.setPeak b).z1 = s.z1 := rfl
@[simp] theorem State.setPeak_z2 (s : State) (b : F64 × Nat) : (s.setPeak b).z2 = s.z2 := rfl
@[simp] theorem State.setPeak_z3 (s : State) (b : F64 × Nat) : (s.setPeak b).z3 = s.z3 := rfl
@[simp] theorem State.setPeak_fail (s : State) (b : F64 × Nat) : (s.setPeak b).fail = s.fail := rfl
@[simp] theorem State.setPeak_errcode (s : State) (b : F64 × Nat) : (s.setPeak b).errcode = s.errcode := rfl
@[simp] theorem State.setPeak_stage (s : State) (b : F64 × Nat) : (s.setPeak b).stage = s.stage := rfl
@[simp] theorem State.setPeak_silence (s : State) (b : F64 × Nat) : (s.setPeak b).silence = s.silence := rfl
@[simp] theorem State.setPeak_peakidx (s : State) (b : F64 × Nat) : (s.setPeak b).peakidx = BitVec.ofNat 10 b.2 := rfl
@[simp] theorem State.setPeak_peakval (s : State) (b : F64 × Nat) : (s.setPeak b).peakval = b.1 := rfl
@[simp] theorem State.setPeak_result (s : State) (b : F64 × Nat) : (s.setPeak b).result = s.result := rfl
@[simp] theorem State.setPeak_mem (s : State) (b : F64 × Nat) : (s.setPeak b).mem = s.mem := rfl
@[simp] theorem State.setPeak_pending (s : State) (b : F64 × Nat) : (s.setPeak b).pending = s.pending := rfl
@[simp] theorem State.setPeak_response (s : State) (b : F64 × Nat) : (s.setPeak b).response = s.response := rfl
@[simp] theorem State.setPeak_draws (s : State) (b : F64 × Nat) : (s.setPeak b).draws = s.draws := rfl

@[simp] theorem State.softReset_z0 (s : State) : s.softReset.z0 = s.z0 := rfl
@[simp] theorem State.softReset_z1 (s : State) : s.softReset.z1 = s.z1 := rfl
@[simp] theorem State.softReset_z2 (s : State) : s.softReset.z2 = s.z2 := rfl
@[simp] theorem State.softReset_z3 (s : State) : s.softReset.z3 = s.z3 := rfl
@[simp] theorem State.softReset_fail (s : State) : s.softReset.fail = s.fail := rfl
@[simp] theorem State.softReset_errcode (s : State) : s.softReset.errcode = s.errcode := rfl
@[simp] theorem State.softReset_stage (s : State) : s.softReset.stage = .empty := rfl
@[simp] theorem State.softReset_silence (s : State) : s.softReset.silence = 0#16 := rfl
@[simp] theorem State.softReset_peakidx (s : State) : s.softReset.peakidx = 0#10 := rfl
@[simp] theorem State.softReset_peakval (s : State) : s.softReset.peakval = fzero := rfl
@[simp] theorem State.softReset_result (s : State) : s.softReset.result = fzero := rfl
@[simp] theorem State.softReset_mem (s : State) : s.softReset.mem = s.mem := rfl
@[simp] theorem State.softReset_pending (s : State) : s.softReset.pending = s.pending := rfl
@[simp] theorem State.softReset_response (s : State) : s.softReset.response = s.response := rfl
@[simp] theorem State.softReset_draws (s : State) : s.softReset.draws = s.draws := rfl

@[simp] theorem State.withCommand_z0 (s : State) (c : Word32) : (s.withCommand c).z0 = s.z0 := rfl
@[simp] theorem State.withCommand_z1 (s : State) (c : Word32) : (s.withCommand c).z1 = s.z1 := rfl
@[simp] theorem State.withCommand_z2 (s : State) (c : Word32) : (s.withCommand c).z2 = s.z2 := rfl
@[simp] theorem State.withCommand_z3 (s : State) (c : Word32) : (s.withCommand c).z3 = s.z3 := rfl
@[simp] theorem State.withCommand_fail (s : State) (c : Word32) : (s.withCommand c).fail = s.fail := rfl
@[simp] theorem State.withCommand_errcode (s : State) (c : Word32) : (s.withCommand c).errcode = s.errcode := rfl
@[simp] theorem State.withCommand_stage (s : State) (c : Word32) : (s.withCommand c).stage = s.stage := rfl
@[simp] theorem State.withCommand_silence (s : State) (c : Word32) : (s.withCommand c).silence = s.silence := rfl
@[simp] theorem State.withCommand_peakidx (s : State) (c : Word32) : (s.withCommand c).peakidx = s.peakidx := rfl
@[simp] theorem State.withCommand_peakval (s : State) (c : Word32) : (s.withCommand c).peakval = s.peakval := rfl
@[simp] theorem State.withCommand_result (s : State) (c : Word32) : (s.withCommand c).result = s.result := rfl
@[simp] theorem State.withCommand_mem (s : State) (c : Word32) : (s.withCommand c).mem = s.mem := rfl
@[simp] theorem State.withCommand_pending (s : State) (c : Word32) : (s.withCommand c).pending = commandEvent c :: s.pending := rfl
@[simp] theorem State.withCommand_response (s : State) (c : Word32) : (s.withCommand c).response = s.response := rfl
@[simp] theorem State.withCommand_draws (s : State) (c : Word32) : (s.withCommand c).draws = s.draws := rfl

@[simp] theorem State.setZ_fail (s : State) (r : ZReg) (v : Cplx) : (s.setZ r v).fail = s.fail := by cases r <;> rfl
@[simp] theorem State.setZ_errcode (s : State) (r : ZReg) (v : Cplx) : (s.setZ r v).errcode = s.errcode := by cases r <;> rfl
@[simp] theorem State.setZ_stage (s : State) (r : ZReg) (v : Cplx) : (s.setZ r v).stage = s.stage := by cases r <;> rfl
@[simp] theorem State.setZ_silence (s : State) (r : ZReg) (v : Cplx) : (s.setZ r v).silence = s.silence := by cases r <;> rfl
@[simp] theorem State.setZ_peakidx (s : State) (r : ZReg) (v : Cplx) : (s.setZ r v).peakidx = s.peakidx := by cases r <;> rfl
@[simp] theorem State.setZ_peakval (s : State) (r : ZReg) (v : Cplx) : (s.setZ r v).peakval = s.peakval := by cases r <;> rfl
@[simp] theorem State.setZ_result (s : State) (r : ZReg) (v : Cplx) : (s.setZ r v).result = s.result := by cases r <;> rfl
@[simp] theorem State.setZ_mem (s : State) (r : ZReg) (v : Cplx) : (s.setZ r v).mem = s.mem := by cases r <;> rfl
@[simp] theorem State.setZ_pending (s : State) (r : ZReg) (v : Cplx) : (s.setZ r v).pending = s.pending := by cases r <;> rfl
@[simp] theorem State.setZ_response (s : State) (r : ZReg) (v : Cplx) : (s.setZ r v).response = s.response := by cases r <;> rfl
@[simp] theorem State.setZ_draws (s : State) (r : ZReg) (v : Cplx) : (s.setZ r v).draws = s.draws := by cases r <;> rfl

/-- What a write of a complex register does to each of them. -/
@[simp] theorem State.getZ_setZ (s : State) (r q : ZReg) (v : Cplx) :
    (s.setZ r v).getZ q = if q = r then v else s.getZ q := by
  cases r <;> cases q <;> rfl

@[simp] theorem State.getZ_succeed (s : State) (r : ZReg) : s.succeed.getZ r = s.getZ r := by cases r <;> rfl
@[simp] theorem State.getZ_failWith (s : State) (c : ErrCode) (r : ZReg) : (s.failWith c).getZ r = s.getZ r := by cases r <;> rfl
@[simp] theorem State.getZ_setStage (s : State) (g : Stage) (r : ZReg) : (s.setStage g).getZ r = s.getZ r := by cases r <;> rfl
@[simp] theorem State.getZ_respond (s : State) (b : BusResponse) (r : ZReg) : (s.respond b).getZ r = s.getZ r := by cases r <;> rfl
@[simp] theorem State.getZ_storeCplxs (s : State) (a : Nat) (vs : List Cplx) (r : ZReg) : (s.storeCplxs a vs).getZ r = s.getZ r := by cases r <;> rfl
@[simp] theorem State.getZ_storeF64s (s : State) (a : Nat) (vs : List F64) (r : ZReg) : (s.storeF64s a vs).getZ r = s.getZ r := by cases r <;> rfl
@[simp] theorem State.getZ_storeWord (s : State) (a : Nat) (w : Word32) (r : ZReg) : (s.storeWord a w).getZ r = s.getZ r := by cases r <;> rfl
@[simp] theorem State.getZ_setPeak (s : State) (b : F64 × Nat) (r : ZReg) : (s.setPeak b).getZ r = s.getZ r := by cases r <;> rfl
@[simp] theorem State.getZ_softReset (s : State) (r : ZReg) : s.softReset.getZ r = s.getZ r := by cases r <;> rfl
@[simp] theorem State.getZ_withCommand (s : State) (c : Word32) (r : ZReg) : (s.withCommand c).getZ r = s.getZ r := by cases r <;> rfl

/-- Two states with the same four registers hold the same register file. -/
theorem State.getZ_eq_of_fields {s t : State} (h0 : s.z0 = t.z0) (h1 : s.z1 = t.z1) (h2 : s.z2 = t.z2) (h3 : s.z3 = t.z3)
    (r : ZReg) : s.getZ r = t.getZ r := by
  cases r <;> assumption

end Sys2Proof.Machine
end

