-- ==== Sys2Proof/Laws/Elements.lean ====
section
/-! SUPPORT. The elements of the buffers after each kind of store: an element stored reads back, and an element whose bytes lie
outside the run stored reads as before. -/

namespace Sys2Proof.Machine

/-- The sample at an offset whose bytes agree. -/
theorem Memory.half_congr {m n : Memory} {a : Nat} (h : ∀ j < 2, m.byte (a + j) = n.byte (a + j)) : m.half a = n.half a := by
  unfold Memory.half
  rw [h 1 (by omega), show m.byte a = n.byte a from h 0 (by omega)]

theorem State.smp_congr {s t : State} {i : Nat} (h : ∀ a, 0x0400 + 2 * i ≤ a → a < 0x0400 + 2 * i + 2 → t.mem.byte a = s.mem.byte a) :
    t.smp i = s.smp i :=
  Memory.half_congr fun j hj => h _ (by unfold smpBase; omega) (by unfold smpBase; omega)

theorem State.xin_congr {s t : State} {i : Nat}
    (h : ∀ a, 0x2000 + 16 * i ≤ a → a < 0x2000 + 16 * i + 16 → t.mem.byte a = s.mem.byte a) : t.xin i = s.xin i :=
  Memory.cplx_congr fun j hj => h _ (by unfold xinBase; omega) (by unfold xinBase; omega)

theorem State.xout_congr {s t : State} {i : Nat}
    (h : ∀ a, 0x4000 + 16 * i ≤ a → a < 0x4000 + 16 * i + 16 → t.mem.byte a = s.mem.byte a) : t.xout i = s.xout i :=
  Memory.cplx_congr fun j hj => h _ (by unfold xoutBase; omega) (by unfold xoutBase; omega)

theorem State.pwr_congr {s t : State} {i : Nat}
    (h : ∀ a, 0x1000 + 8 * i ≤ a → a < 0x1000 + 8 * i + 8 → t.mem.byte a = s.mem.byte a) : t.pwr i = s.pwr i :=
  Memory.f64_congr fun j hj => h _ (by unfold pwrBase; omega) (by unfold pwrBase; omega)

theorem State.mel_congr {s t : State} {i : Nat}
    (h : ∀ a, 0x0800 + 8 * i ≤ a → a < 0x0800 + 8 * i + 8 → t.mem.byte a = s.mem.byte a) : t.mel i = s.mel i :=
  Memory.f64_congr fun j hj => h _ (by unfold melBase; omega) (by unfold melBase; omega)

theorem State.mfcc_congr {s t : State} {i : Nat}
    (h : ∀ a, 0x0900 + 8 * i ≤ a → a < 0x0900 + 8 * i + 8 → t.mem.byte a = s.mem.byte a) : t.mfcc i = s.mfcc i :=
  Memory.f64_congr fun j hj => h _ (by unfold mfccBase; omega) (by unfold mfccBase; omega)

/-- States with the same memory have the same elements. -/
theorem State.elements_of_mem {s t : State} (h : t.mem = s.mem) :
    t.smp = s.smp ∧ t.xin = s.xin ∧ t.xout = s.xout ∧ t.pwr = s.pwr ∧ t.mel = s.mel ∧ t.mfcc = s.mfcc := by
  refine ⟨?_, ?_, ?_, ?_, ?_, ?_⟩ <;> funext i
  · unfold State.smp; rw [h]
  · unfold State.xin; rw [h]
  · unfold State.xout; rw [h]
  · unfold State.pwr; rw [h]
  · unfold State.mel; rw [h]
  · unfold State.mfcc; rw [h]

/-- A store of complex elements leaves every byte outside its run as it was. -/
theorem State.byte_storeCplxs (s : State) {a x : Nat} {vs : List Cplx} (h : x < a ∨ a + 16 * vs.length ≤ x) :
    (s.storeCplxs a vs).mem.byte x = s.mem.byte x := by
  rw [State.storeCplxs_mem]
  exact Memory.byte_store_outside (by rw [length_flatMap_bytesCplx]; exact h)

/-- A store of binary64 elements leaves every byte outside its run as it was. -/
theorem State.byte_storeF64s (s : State) {a x : Nat} {vs : List F64} (h : x < a ∨ a + 8 * vs.length ≤ x) :
    (s.storeF64s a vs).mem.byte x = s.mem.byte x := by
  rw [State.storeF64s_mem]
  exact Memory.byte_store_outside (by rw [length_flatMap_bytes64]; exact h)

/-- A store of a word leaves every byte outside it as it was. -/
theorem State.byte_storeWord (s : State) {a x : Nat} {w : Word32} (h : x < a ∨ a + 4 ≤ x) :
    (s.storeWord a w).mem.byte x = s.mem.byte x := by
  rw [State.storeWord_mem]
  exact Memory.byte_store_outside (by rw [length_bytes32]; exact h)

/-- The frame stored to `XIN` reads back element by element. -/
theorem State.xin_storeCplxs (s : State) {vs : List Cplx} {i : Nat} (h : i < vs.length) :
    (s.storeCplxs xinBase vs).xin i = vs[i] := Memory.cplx_store s.mem xinBase vs i h

/-- The bins stored to `XOUT` read back element by element. -/
theorem State.xout_storeCplxs (s : State) {vs : List Cplx} {k : Nat} (h : k < vs.length) :
    (s.storeCplxs xoutBase vs).xout k = vs[k] := Memory.cplx_store s.mem xoutBase vs k h

/-- The powers stored to `PWR` read back element by element. -/
theorem State.pwr_storeF64s (s : State) {vs : List F64} {k : Nat} (h : k < vs.length) :
    (s.storeF64s pwrBase vs).pwr k = vs[k] := Memory.f64_store s.mem pwrBase vs k h

/-- The log energies stored to `MEL` read back element by element. -/
theorem State.mel_storeF64s (s : State) {vs : List F64} {m : Nat} (h : m < vs.length) :
    (s.storeF64s melBase vs).mel m = vs[m] := Memory.f64_store s.mem melBase vs m h

/-- The coefficients stored to `MFCC` read back element by element. -/
theorem State.mfcc_storeF64s (s : State) {vs : List F64} {n : Nat} (h : n < vs.length) :
    (s.storeF64s mfccBase vs).mfcc n = vs[n] := Memory.f64_store s.mem mfccBase vs n h

@[simp] theorem length_smpAll (s : State) : s.smpAll.length = 512 := by simp [State.smpAll]
@[simp] theorem length_xinAll (s : State) : s.xinAll.length = 512 := by simp [State.xinAll]
@[simp] theorem length_xoutAll (s : State) : s.xoutAll.length = 512 := by simp [State.xoutAll]
@[simp] theorem length_pwrAll (s : State) : s.pwrAll.length = 512 := by simp [State.pwrAll]
@[simp] theorem length_melAll (s : State) : s.melAll.length = 26 := by simp [State.melAll]

theorem getElem_smpAll (s : State) {i : Nat} (h : i < s.smpAll.length) : s.smpAll[i] = s.smp i := by simp [State.smpAll]
theorem getElem_xinAll (s : State) {i : Nat} (h : i < s.xinAll.length) : s.xinAll[i] = s.xin i := by simp [State.xinAll]
theorem getElem_xoutAll (s : State) {i : Nat} (h : i < s.xoutAll.length) : s.xoutAll[i] = s.xout i := by simp [State.xoutAll]

theorem getD_pwrAll (s : State) {k : Nat} (h : k < 512) (d : F64) : s.pwrAll.getD k d = s.pwr k := by
  simp [State.pwrAll, h]

theorem getD_melAll (s : State) {m : Nat} (h : m < 26) (d : F64) : s.melAll.getD m d = s.mel m := by
  simp [State.melAll, h]

/-- A fold over the indexed elements of a tabulated list is a fold over the indices. -/
theorem foldl_zipIdx_map_range {α β : Type} (f : Nat → α) (g : β → α × Nat → β) (b : β) (n : Nat) :
    ((List.range n).map f).zipIdx.foldl g b = (List.range n).foldl (fun acc i => g acc (f i, i)) b := by
  induction n generalizing b with
  | zero => rfl
  | succ n ih =>
    simp only [List.range_succ, List.map_append, List.zipIdx_append, List.foldl_append, List.map_cons, List.map_nil, ih,
      List.length_map, List.length_range]
    simp

end Sys2Proof.Machine
end

