-- ==== Sys2Proof/Laws/Bus.lean ====
section
/-! SUPPORT. The bus: where the map has a row, and what one access does in each case, said once. -/

namespace Sys2Proof.Machine

/-- A row found at an offset contains it. -/
theorem rowAt_bounds {off : Nat} {r : MapRow} (h : rowAt off = some r) :
    r ∈ windowMap ∧ r.base ≤ off ∧ off < r.base + r.size := by
  have hp := List.find?_some h
  simp only [Bool.and_eq_true, decide_eq_true_eq] at hp
  exact ⟨List.mem_of_find?_eq_some h, hp.1, hp.2⟩

/-- An offset has a row exactly where some row of the map contains it. -/
theorem rowAt_isSome_iff (off : Nat) :
    (rowAt off).isSome = true ↔ ∃ r ∈ windowMap, r.base ≤ off ∧ off < r.base + r.size := by
  simp [rowAt, List.find?_isSome]

/-- The mapped offsets, written out. -/
theorem rowAt_isSome_iff_mapped (off : Nat) :
    (rowAt off).isSome = true ↔
      off < 0x28 ∨ (0x40 ≤ off ∧ off < 0x80) ∨ (0x400 ≤ off ∧ off < 0x8D0) ∨ (0x900 ≤ off ∧ off < 0x960) ∨
        (0x1000 ≤ off ∧ off < 0x6000) := by
  rw [rowAt_isSome_iff]
  simp only [windowMap, smpBase, melBase, mfccBase, pwrBase, xinBase, xoutBase, List.mem_cons, List.not_mem_nil, or_false,
    exists_eq_or_imp, exists_eq_left]
  omega

/-- An access beyond the window. -/
theorem performAccess_outside {a : HostAccess} (h : Config.windowBytes ≤ a.offset) (s : State) :
    performAccess a s = .fault .outsideWindow := by
  simp [performAccess, h]

/-- An access that ends with `BusError`. -/
theorem performAccess_busError {a : HostAccess} (hw : a.offset < Config.windowBytes) (h : busErrorOf a = true) (s : State) :
    performAccess a s = .next (s.respond .busError) := by
  simp [performAccess, Nat.not_le.mpr hw, h]

theorem windowBytes_of_row {off : Nat} {r : MapRow} (h : rowAt off = some r) : off < Config.windowBytes := by
  have := (rowAt_isSome_iff_mapped off).mp (by rw [h]; rfl)
  have : Config.windowBytes = 0x6000 := rfl
  omega

/-- A successful read. -/
theorem performAccess_read {off : Nat} {r : MapRow} (hrow : rowAt off = some r) (ha : off % 4 = 0) (s : State) :
    performAccess (.read off 4) s = .next (s.respond (.data (readRegion s r.region off (off - r.base)))) := by
  have hw := windowBytes_of_row hrow
  have hb : busErrorOf (.read off 4) = false := by simp [busErrorOf, HostAccess.size, HostAccess.offset, ha, hrow]
  unfold performAccess
  rw [if_neg (by simpa [HostAccess.offset] using hw), hb]
  simp only [Bool.false_eq_true, if_false, HostAccess.offset, hrow]

/-- A successful write. -/
theorem performAccess_write {off : Nat} {r : MapRow} (hrow : rowAt off = some r) (ha : off % 4 = 0) (v : Word32) (s : State) :
    performAccess (.write off 4 v) s = performWrite r off v s := by
  have hw := windowBytes_of_row hrow
  have hb : busErrorOf (.write off 4 v) = false := by simp [busErrorOf, HostAccess.size, HostAccess.offset, ha, hrow]
  unfold performAccess
  rw [if_neg (by simpa [HostAccess.offset] using hw), hb]
  simp only [Bool.false_eq_true, if_false, HostAccess.offset, hrow]
  exact congrArg (performWrite r off · s) (BitVec.setWidth_eq v)

/-- A write to `CMD` runs the command of the word. -/
theorem performAccess_command (c : Word32) (s : State) :
    performAccess (.write 0x0008 4 c) s = runCommand c (s.respond .written) := by
  rw [performAccess_write (r := ⟨.cmd, 0x0008, 4, .wo⟩) (by decide) (by decide)]
  exact if_pos rfl

/-- A write that executes no command. -/
theorem performWrite_plain {r : MapRow} (h : r.region ≠ .cmd) (off : Nat) (v : Word32) (s : State) :
    performWrite r off v s = .next ((writeRegion s r.region off (off - r.base) v).respond .written) := by
  simp [performWrite, h]

/-- A step takes the oldest access. -/
theorem step_host {s : State} {a : HostAccess} {rest : List BusEvent} (h : s.pending = .host a :: rest) :
    step s = performAccess a { s with pending := rest } := by
  unfold step performEvent
  rw [h]

theorem step_reset {s : State} {rest : List BusEvent} (h : s.pending = .reset :: rest) :
    step s = .next { s with pending := rest }.hardwareReset := by
  unfold step performEvent
  rw [h]

theorem step_foreign {s : State} {a : HostAccess} {rest : List BusEvent} (h : s.pending = .foreign a :: rest) :
    step s = .refused .concurrentAccess := by
  unfold step performEvent
  rw [h]

/-- What a read returns depends only on the word's own state. -/
theorem readWord_of_row {off : Nat} {r : MapRow} (h : rowAt off = some r) (s : State) :
    readWord s off = some (readRegion s r.region off (off - r.base)) := by
  simp [readWord, h]

end Sys2Proof.Machine
end

