-- ==== Sys2Proof/Laws/Commands.lean ====
section
/-! SUPPORT. What each shared operation of the commands does, once: the windowed frame, the transform, the periodogram, the
scan, the Mel stage, the DCT stage and the macros. -/

namespace Sys2Proof.Machine

@[simp] theorem length_windowedFrame (w : Window) (sil : BitVec 16) (xs : List (BitVec 16)) :
    (windowedFrame w sil xs).length = xs.length := by simp [windowedFrame]

theorem getElem_windowedFrame (w : Window) (sil : BitVec 16) (xs : List (BitVec 16)) {i : Nat}
    (h : i < (windowedFrame w sil xs).length) :
    (windowedFrame w sil xs)[i] =
      ⟨windowed w i (ffloat (sampleDifference sil (xs[i]'(by simpa using h)))), fzero⟩ := by
  simp [windowedFrame]

/-- What `LOAD` does: it ends, with the windowed frame in `XIN` and `STAGE` at `WINDOWED`. -/
theorem performLoad_eq (w : Window) (s : State) :
    performLoad w s = .ran ((s.storeCplxs xinBase (windowedFrame w s.silence s.smpAll)).setStage .windowed) := rfl

/-- Element `i` of `XIN` after a `LOAD`. -/
theorem xin_load (w : Window) (s : State) {i : Nat} (h : i < 512) :
    (s.storeCplxs xinBase (windowedFrame w s.silence s.smpAll)).xin i =
      ⟨windowed w i (ffloat (sampleDifference s.silence (s.smp i))), fzero⟩ := by
  rw [State.xin_storeCplxs s (by simpa using h), getElem_windowedFrame, getElem_smpAll]

@[simp] theorem length_dftFrame (xs : List Cplx) : (dftFrame xs).length = 512 := by simp [dftFrame]

/-- A bin of the transform of a frame of the state, as a running sum over the indices. -/
theorem dftBin_xinAll (s : State) (k : Nat) :
    dftBin s.xinAll k = (List.range 512).foldl (fun acc i => cadd acc (cmul (s.xin i) (twiddle k i))) czero :=
  foldl_zipIdx_map_range s.xin (dftAccumulate k) czero 512

/-- Bin `k` of `XOUT` after a `DFT`. -/
theorem xout_dft (s : State) {k : Nat} (h : k < 512) :
    (s.storeCplxs xoutBase (dftFrame s.xinAll)).xout k =
      (List.range 512).foldl (fun acc i => cadd acc (cmul (s.xin i) (twiddle k i))) czero := by
  rw [State.xout_storeCplxs s (by simpa using h), ← dftBin_xinAll]
  simp [dftFrame]

/-- Bin `k` of `PWR` after a `POWER`. -/
theorem pwr_power (s : State) {k : Nat} (h : k < 512) :
    (s.storeF64s pwrBase (s.xoutAll.map binPower)).pwr k = binPower (s.xout k) := by
  rw [State.pwr_storeF64s s (by simpa using h)]
  simp [State.xoutAll]

/-- `POWER` below stage `DFT`. -/
theorem performPower_seq {s : State} (h : s.stage.code < 2) : performPower s = .failed .seq s := by simp [performPower, h]

/-- `POWER` from stage `DFT` on. -/
theorem performPower_ran {s : State} (h : 2 ≤ s.stage.code) :
    performPower s = .ran ((s.storeF64s pwrBase (s.xoutAll.map binPower)).setStage .power) := by
  simp [performPower, Nat.not_lt.mpr h]

/-- How a scan over a run of bins ends: with what it began with, where no value of the run exceeds it; else at the first bin
whose value exceeds that, and every value before it, and is exceeded by none of the run. -/
theorem foldl_scanStep (v : Nat → F64) (best : F64 × Nat) (ks : List Nat) :
    let r := ks.foldl (scanStep v) best
    r = best ∨ (r.2 ∈ ks ∧ r.1 = v r.2 ∧ fgt r.1 best.1 = true) := by
  induction ks generalizing best with
  | nil => exact .inl rfl
  | cons k ks ih =>
    simp only [List.foldl_cons]
    have hstep : scanStep v best k = best ∨ (scanStep v best k = (v k, k) ∧ fgt (v k) best.1 = true) := by
      unfold scanStep; split <;> simp_all
    have htrans : ∀ {a b c : F64}, fgt a b = true → fgt b c = true → fgt a c = true := by
      intro a b c h1 h2
      simp only [fgt, Bool.and_eq_true, Bool.not_eq_true', decide_eq_true_eq] at *
      exact ⟨⟨h1.1.1, h2.1.2⟩, lt_trans h2.2 h1.2⟩
    rcases hstep with h | ⟨h, hgt⟩ <;> rw [h]
    · rcases ih best with h2 | ⟨hm, hv, hb⟩
      · exact .inl h2
      · exact .inr ⟨List.mem_cons_of_mem _ hm, hv, hb⟩
    · rcases ih (v k, k) with h2 | ⟨hm, hv, hb⟩
      · rw [h2]; exact .inr ⟨List.mem_cons_self, rfl, hgt⟩
      · exact .inr ⟨List.mem_cons_of_mem _ hm, hv, htrans hb hgt⟩

/-- `MELFB` without the Mel/DCT unit. -/
theorem performMelfbWith_unimpl (edges : List Nat) (subst : F64) (s : State) :
    performMelfbWith false edges subst s = .failed .unimpl s := by simp [performMelfbWith]

/-- `MELFB` with the unit, below stage `POWER`. -/
theorem performMelfbWith_seq (edges : List Nat) (subst : F64) {s : State} (h : s.stage.code < 3) :
    performMelfbWith true edges subst s = .failed .seq s := by simp [performMelfbWith, h]

/-- `MELFB` with the unit, from stage `POWER` on. -/
theorem performMelfbWith_ran (edges : List Nat) (subst : F64) {s : State} (h : 3 ≤ s.stage.code) :
    performMelfbWith true edges subst s =
      .ran ((s.storeF64s melBase (melFrame edges subst s.pwrAll)).setStage .mel) := by
  simp [performMelfbWith, Nat.not_lt.mpr h]

@[simp] theorem length_melFrame (edges : List Nat) (subst : F64) (ps : List F64) : (melFrame edges subst ps).length = 26 := by
  simp [melFrame]

/-- Log energy `m` after a `MELFB`. -/
theorem mel_melfb (edges : List Nat) (subst : F64) (s : State) {m : Nat} (h : m < 26) :
    (s.storeF64s melBase (melFrame edges subst s.pwrAll)).mel m = melValue edges subst s.pwrAll m := by
  rw [State.mel_storeF64s s (by simpa using h)]
  simp [melFrame]

/-- `DCT` without the Mel/DCT unit. -/
theorem performDctWith_unimpl (s : State) : performDctWith false s = .failed .unimpl s := by simp [performDctWith]

/-- `DCT` with the unit, below stage `MEL`. -/
theorem performDctWith_seq {s : State} (h : s.stage.code < 4) : performDctWith true s = .failed .seq s := by
  simp [performDctWith, h]

/-- `DCT` with the unit, from stage `MEL` on. -/
theorem performDctWith_ran {s : State} (h : 4 ≤ s.stage.code) :
    performDctWith true s = .ran ((s.storeF64s mfccBase (dctFrame s.melAll)).setStage .mfcc) := by
  simp [performDctWith, Nat.not_lt.mpr h]

@[simp] theorem length_dctFrame (es : List F64) : (dctFrame es).length = 12 := by simp [dctFrame]

/-- A coefficient of the log energies of the state, as a running sum over the indices. -/
theorem dctCoefficient_melAll (s : State) (n : Nat) :
    dctCoefficient s.melAll n =
      (List.range 26).foldl (fun a m => fadd a (fmul (s.mel m) (cosUnit (dctAngle n m)))) fzero :=
  foldl_zipIdx_map_range s.mel (fun a p => fadd a (fmul p.1 (cosUnit (dctAngle n p.2)))) fzero 26

/-- Coefficient `n` after a `DCT`. -/
theorem mfcc_dct (s : State) {n : Nat} (h : n < 12) :
    (s.storeF64s mfccBase (dctFrame s.melAll)).mfcc n = dctCoefficient s.melAll n := by
  rw [State.mfcc_storeF64s s (by simpa using h)]
  simp [dctFrame]

/-- What `FRAME` does: it ends, with the frame windowed by Hann, transformed and squared. -/
theorem performFrame_eq (s : State) :
    let a := (s.storeCplxs xinBase (windowedFrame .hann s.silence s.smpAll)).setStage .windowed
    let b := (a.storeCplxs xoutBase (dftFrame a.xinAll)).setStage .dft
    performFrame s = .ran ((b.storeF64s pwrBase (b.xoutAll.map binPower)).setStage .power) := rfl

/-- A report of a run or of a failure. -/
@[simp] theorem Ended.report_ran (s : State) : (Ended.ran s).report = s.succeed := rfl
@[simp] theorem Ended.report_failed (c : ErrCode) (s : State) : (Ended.failed c s).report = s.failWith c := rfl
@[simp] theorem Ended.andThen_ran (s : State) (f : State → Ended) : (Ended.ran s).andThen f = f s := rfl
@[simp] theorem Ended.andThen_failed (c : ErrCode) (s : State) (f : State → Ended) :
    (Ended.failed c s).andThen f = .failed c s := rfl

end Sys2Proof.Machine
end

