-- ==== Sys2Proof/Laws/Decode.lean ====
section
/-! SUPPORT. The fields of an encoded command and the command words rebuilt from their fields, format by format. -/

namespace Sys2Proof

/-- The opcodes and their values correspond one to one. -/
theorem Opcode.ofCode_eq_some_iff (b : BitVec 8) (o : Opcode) : Opcode.ofCode b = some o ↔ o.code = b := by
  constructor
  · intro h
    simpa using List.find?_some h
  · rintro rfl
    cases o <;> decide

theorem Opcode.ofCode_eq_none_iff (b : BitVec 8) : Opcode.ofCode b = none ↔ ∀ o : Opcode, o.code ≠ b := by
  constructor
  · intro h o ho
    rw [(ofCode_eq_some_iff b o).mpr ho] at h
    cases h
  · intro h
    cases hc : Opcode.ofCode b with
    | none => rfl
    | some o => exact absurd ((ofCode_eq_some_iff b o).mp hc) (h o)

@[simp] theorem ZReg.ofCode_code (r : ZReg) : ZReg.ofCode r.code = r := by cases r <;> decide

@[simp] theorem ZReg.code_ofCode (b : BitVec 2) : (ZReg.ofCode b).code = b := by
  revert b; decide

theorem extract_append_low {m n k : Nat} (x : BitVec m) (y : BitVec n) {lo : Nat} (h : lo + k ≤ n) :
    (x ++ y).extractLsb' lo k = y.extractLsb' lo k := by
  apply BitVec.eq_of_getLsbD_eq
  intro i hi
  simp only [BitVec.getLsbD_extractLsb', BitVec.getLsbD_append, hi, decide_true, Bool.true_and]
  rw [if_pos (by omega)]

theorem extract_append_high {m n k : Nat} (x : BitVec m) (y : BitVec n) {lo : Nat} (h : n ≤ lo) :
    (x ++ y).extractLsb' lo k = x.extractLsb' (lo - n) k := by
  apply BitVec.eq_of_getLsbD_eq
  intro i hi
  simp only [BitVec.getLsbD_extractLsb', BitVec.getLsbD_append, hi, decide_true, Bool.true_and]
  rw [if_neg (by omega), show lo + i - n = lo - n + i by omega]

theorem extract_all {n : Nat} (x : BitVec n) : x.extractLsb' 0 n = x := by
  apply BitVec.eq_of_getLsbD_eq
  intro i hi
  simp [hi]

@[simp] theorem wellFormed_getpwr (k : Nat) : (Instr.getpwr k).wellFormed = true ↔ k < 65536 := by
  simp [Instr.wellFormed]

@[simp] theorem wellFormed_peakre (lo hi : Nat) : (Instr.peakre lo hi).wellFormed = true ↔ lo < 1024 ∧ hi < 1024 := by
  simp [Instr.wellFormed]

@[simp] theorem wellFormed_peakpw (lo hi : Nat) : (Instr.peakpw lo hi).wellFormed = true ↔ lo < 1024 ∧ hi < 1024 := by
  simp [Instr.wellFormed]

/-- The opcode field of a format K word. -/
theorem field_op_encodeK (op : Opcode) (k : Nat) : field (encodeK op k) 0 8 = op.code := by
  unfold field encodeK
  rw [extract_append_low _ _ (by omega), extract_all]

/-- The bin field of a format K word. -/
theorem field_k_encodeK (op : Opcode) (k : Nat) : field (encodeK op k) 8 16 = BitVec.ofNat 16 k := by
  unfold field encodeK
  rw [extract_append_high _ _ (by omega), extract_append_low _ _ (by omega), extract_all]

/-- The opcode field of a format R word. -/
theorem field_op_encodeR (op : Opcode) (lo hi : Nat) : field (encodeR op lo hi) 0 8 = op.code := by
  unfold field encodeR
  rw [extract_append_low _ _ (by omega), extract_all]

/-- The lower bound of a format R word. -/
theorem field_lo_encodeR (op : Opcode) (lo hi : Nat) : field (encodeR op lo hi) 8 10 = BitVec.ofNat 10 lo := by
  unfold field encodeR
  rw [extract_append_high _ _ (by omega), extract_append_low _ _ (by omega), extract_all]

/-- The upper bound of a format R word. -/
theorem field_hi_encodeR (op : Opcode) (lo hi : Nat) : field (encodeR op lo hi) 18 10 = BitVec.ofNat 10 hi := by
  unfold field encodeR
  rw [extract_append_high _ _ (by omega), extract_append_high _ _ (by omega), extract_append_low _ _ (by omega), extract_all]

/-- A word whose bits from `n` on are 0 by a mask of ones there has no bit set there. -/
theorem reserved_iff (c r : Word32) : c &&& r = 0#32 ↔ ∀ i < 32, r.getLsbD i = true → c.getLsbD i = false := by
  constructor
  · intro h i hi hr
    have := congrArg (fun w : Word32 => w.getLsbD i) h
    simpa [hr] using this
  · intro h
    apply BitVec.eq_of_getLsbD_eq
    intro i hi
    by_cases hr : r.getLsbD i = true
    · simp [h i hi hr]
    · simp [Bool.eq_false_iff.mpr hr]

/-- The reserved bits of a format K word are 0. -/
theorem reserved_encodeK (op : Opcode) (k : Nat) : encodeK op k &&& Format.k.reserved = 0#32 := by
  rw [reserved_iff]
  intro i hi hr
  have hlow : 24 ≤ i := by
    by_contra hlt
    have : ∀ j < 24, Format.k.reserved.getLsbD j = false := by decide
    rw [this i (by omega)] at hr; cases hr
  unfold encodeK
  rw [BitVec.getLsbD_append, BitVec.getLsbD_append, if_neg (by omega), if_neg (by omega)]
  simp

/-- The reserved bits of a format R word are 0. -/
theorem reserved_encodeR (op : Opcode) (lo hi : Nat) : encodeR op lo hi &&& Format.r.reserved = 0#32 := by
  rw [reserved_iff]
  intro i _ hr
  have hlow : 28 ≤ i := by
    by_contra hlt
    have : ∀ j < 28, Format.r.reserved.getLsbD j = false := by decide
    rw [this i (by omega)] at hr; cases hr
  unfold encodeR
  rw [BitVec.getLsbD_append, BitVec.getLsbD_append, BitVec.getLsbD_append, if_neg (by omega), if_neg (by omega),
    if_neg (by omega)]
  simp

/-- Two words with the same fields below a bit and no bit set from it on are equal. -/
theorem word_eq_of_low {c d : Word32} (n : Nat) (hlow : ∀ i < n, c.getLsbD i = d.getLsbD i)
    (hc : ∀ i, n ≤ i → i < 32 → c.getLsbD i = false) (hd : ∀ i, n ≤ i → i < 32 → d.getLsbD i = false) : c = d := by
  apply BitVec.eq_of_getLsbD_eq
  intro i hi
  rcases Nat.lt_or_ge i n with h | h
  · exact hlow i h
  · rw [hc i h hi, hd i h hi]

/-- A word with the reserved bits of format N clear is its opcode field. -/
theorem word_of_fields_n {c : Word32} (h : c &&& Format.n.reserved = 0#32) : c = 0#24 ++ field c 0 8 := by
  rw [reserved_iff] at h
  refine word_eq_of_low 8 (fun i hi => ?_) (fun i hi hi2 => h i hi2 ?_) (fun i hi hi2 => ?_)
  · interval_cases i <;> (repeat rw [BitVec.getLsbD_append]) <;> simp [field]
  · revert i; decide
  · interval_cases i <;> (repeat rw [BitVec.getLsbD_append]) <;> simp

/-- A word with the reserved bits of format Z3 clear is its four fields. -/
theorem word_of_fields_z3 {c : Word32} (h : c &&& Format.z3.reserved = 0#32) :
    c = 0#18 ++ field c 12 2 ++ field c 10 2 ++ field c 8 2 ++ field c 0 8 := by
  rw [reserved_iff] at h
  refine word_eq_of_low 14 (fun i hi => ?_) (fun i hi hi2 => h i hi2 ?_) (fun i hi hi2 => ?_)
  · interval_cases i <;> (repeat rw [BitVec.getLsbD_append]) <;> simp [field]
  · revert i; decide
  · interval_cases i <;> (repeat rw [BitVec.getLsbD_append]) <;> simp

/-- A word with the reserved bits of format Z2 clear is its three fields. -/
theorem word_of_fields_z2 {c : Word32} (h : c &&& Format.z2.reserved = 0#32) :
    c = 0#20 ++ field c 10 2 ++ field c 8 2 ++ field c 0 8 := by
  rw [reserved_iff] at h
  refine word_eq_of_low 12 (fun i hi => ?_) (fun i hi hi2 => h i hi2 ?_) (fun i hi hi2 => ?_)
  · interval_cases i <;> (repeat rw [BitVec.getLsbD_append]) <;> simp [field]
  · revert i; decide
  · interval_cases i <;> (repeat rw [BitVec.getLsbD_append]) <;> simp

/-- A word with the reserved bits of format Z1 clear is its two fields. -/
theorem word_of_fields_z1 {c : Word32} (h : c &&& Format.z1.reserved = 0#32) :
    c = 0#20 ++ field c 10 2 ++ 0#2 ++ field c 0 8 := by
  rw [reserved_iff] at h
  refine word_eq_of_low 12 (fun i hi => ?_) (fun i hi hi2 => h i hi2 ?_) (fun i hi hi2 => ?_)
  · have h8 := h 8 (by omega) (by decide)
    have h9 := h 9 (by omega) (by decide)
    interval_cases i <;> (repeat rw [BitVec.getLsbD_append]) <;> simp_all [field]
  · revert i; decide
  · interval_cases i <;> (repeat rw [BitVec.getLsbD_append]) <;> simp

/-- A word with the reserved bits of format W clear is its two fields. -/
theorem word_of_fields_w {c : Word32} (h : c &&& Format.w.reserved = 0#32) : c = 0#22 ++ field c 8 2 ++ field c 0 8 := by
  rw [reserved_iff] at h
  refine word_eq_of_low 10 (fun i hi => ?_) (fun i hi hi2 => h i hi2 ?_) (fun i hi hi2 => ?_)
  · interval_cases i <;> (repeat rw [BitVec.getLsbD_append]) <;> simp [field]
  · revert i; decide
  · interval_cases i <;> (repeat rw [BitVec.getLsbD_append]) <;> simp

/-- A word with the reserved bits of format K clear is its two fields. -/
theorem word_of_fields_k {c : Word32} (h : c &&& Format.k.reserved = 0#32) : c = 0#8 ++ field c 8 16 ++ field c 0 8 := by
  rw [reserved_iff] at h
  refine word_eq_of_low 24 (fun i hi => ?_) (fun i hi hi2 => h i hi2 ?_) (fun i hi hi2 => ?_)
  · interval_cases i <;> (repeat rw [BitVec.getLsbD_append]) <;> simp [field]
  · revert i; decide
  · interval_cases i <;> (repeat rw [BitVec.getLsbD_append]) <;> simp

/-- A word with the reserved bits of format R clear is its three fields. -/
theorem word_of_fields_r {c : Word32} (h : c &&& Format.r.reserved = 0#32) :
    c = 0#4 ++ field c 18 10 ++ field c 8 10 ++ field c 0 8 := by
  rw [reserved_iff] at h
  refine word_eq_of_low 28 (fun i hi => ?_) (fun i hi hi2 => h i hi2 ?_) (fun i hi hi2 => ?_)
  · interval_cases i <;> (repeat rw [BitVec.getLsbD_append]) <;> simp [field]
  · revert i; decide
  · interval_cases i <;> (repeat rw [BitVec.getLsbD_append]) <;> simp

end Sys2Proof
end

