-- ==== Sys2Proof/Laws/Flags.lean ====
section
/-! SUPPORT. The STATUS word from its three stored fields. -/

namespace Sys2Proof.Machine

/-- The STATUS word is a function of `FAIL`, `ERRCODE` and `STAGE` alone (R24, R26). -/
theorem statusWord_of_fields {s : State} {f : Bool} {c : ErrCode} {g : Stage} (hf : s.fail = f) (hc : s.errcode = c)
    (hg : s.stage = g) :
    statusWord s = statusWord { State.reset with fail := f, errcode := c, stage := g } := by
  subst hf hc hg
  rfl

/-- States with the same report and stage have the same STATUS word. -/
theorem statusWord_congr {s t : State} (hf : t.fail = s.fail) (hc : t.errcode = s.errcode) (hg : t.stage = s.stage) :
    statusWord t = statusWord s := by
  rw [statusWord_of_fields hf hc hg]
  rfl

end Sys2Proof.Machine
end

