-- ==== Sys2Proof/Laws/Float.lean ====
section
/-! SUPPORT. The laws of the binary64 arithmetic: the fields of a packed datum, that rounding an exact value gives it back,
and what the operations do with NaN, zeros and exact results. -/

namespace Sys2Proof.Machine

/-- The magnitude of the body bits of a finite datum, in units of 2^-1074. -/
def bodyMag (b : Nat) : Nat := if b / 2 ^ 52 = 0 then b % 2 ^ 52 else (2 ^ 52 + b % 2 ^ 52) * 2 ^ (b / 2 ^ 52 - 1)

theorem fbody_eq (x : F64) : fbody x = x.toNat % 2 ^ 63 := by
  simp [fbody, BitVec.extractLsb'_toNat]

theorem ffrac_eq (x : F64) : ffrac x = fbody x % 2 ^ 52 := by
  rw [fbody_eq]; simp only [ffrac, BitVec.extractLsb'_toNat, Nat.shiftRight_zero]; omega

theorem fexp_eq (x : F64) : fexp x = fbody x / 2 ^ 52 := by
  rw [fbody_eq]
  simp only [fexp, BitVec.extractLsb'_toNat, Nat.shiftRight_eq_div_pow]
  omega

theorem fbody_lt (x : F64) : fbody x < 2 ^ 63 := by
  rw [fbody_eq]; omega

theorem fsign_eq (x : F64) : fsign x = decide (2 ^ 63 ≤ x.toNat) := by
  have h := x.isLt
  rw [Bool.eq_iff_iff, fsign, BitVec.getLsbD, Nat.testBit_eq_decide_div_mod_eq, decide_eq_true_iff, decide_eq_true_iff]
  omega

theorem fmag_eq_bodyMag (x : F64) : fmag x = bodyMag (fbody x) := by
  simp only [fmag, bodyMag, fexp_eq, ffrac_eq]

/-- A datum is its sign and its body. -/
theorem packF64_fsign_fbody (x : F64) : packF64 (fsign x) (fbody x) = x := by
  have h := x.isLt
  apply BitVec.eq_of_toNat_eq
  rw [packF64, BitVec.toNat_ofNat, fbody_eq, fsign_eq]
  by_cases hx : 2 ^ 63 ≤ x.toNat
  · simp only [hx, decide_true, if_true]; omega
  · simp only [hx, decide_false, Bool.false_eq_true, if_false]; omega

theorem toNat_packF64 {b : Nat} (neg : Bool) (h : b < 2 ^ 63) :
    (packF64 neg b).toNat = (if neg then 2 ^ 63 else 0) + b := by
  rw [packF64, BitVec.toNat_ofNat]; cases neg <;> simp only [Bool.false_eq_true, if_false, if_true] <;> omega

theorem fbody_packF64 {b : Nat} (neg : Bool) (h : b < 2 ^ 63) : fbody (packF64 neg b) = b := by
  rw [fbody_eq, toNat_packF64 neg h]; cases neg <;> simp only [Bool.false_eq_true, if_false, if_true] <;> omega

theorem fsign_packF64 {b : Nat} (neg : Bool) (h : b < 2 ^ 63) : fsign (packF64 neg b) = neg := by
  rw [fsign_eq, toNat_packF64 neg h]
  cases neg
  · simpa using h
  · simp

theorem isFinite_iff (x : F64) : isFinite x = true ↔ fbody x < infBody := by
  have := fbody_lt x
  simp only [isFinite, fexp_eq, infBody, bne_iff_ne, ne_eq]; omega

theorem isNaN_iff (x : F64) : isNaN x = true ↔ infBody < fbody x := by
  have := fbody_lt x
  simp only [isNaN, fexp_eq, ffrac_eq, infBody, Bool.and_eq_true, beq_iff_eq, bne_iff_ne, ne_eq]; omega

theorem isInf_iff (x : F64) : isInf x = true ↔ fbody x = infBody := by
  have := fbody_lt x
  simp only [isInf, fexp_eq, ffrac_eq, infBody, Bool.and_eq_true, beq_iff_eq]; omega

theorem isZero_iff (x : F64) : isZero x = true ↔ fbody x = 0 := by
  simp only [isZero, fexp_eq, ffrac_eq, Bool.and_eq_true, beq_iff_eq]; omega

/-- A finite datum is neither a NaN nor an infinity. -/
theorem isFinite_not_special {x : F64} (h : isFinite x = true) : isNaN x = false ∧ isInf x = false := by
  have h := (isFinite_iff x).mp h
  constructor
  · rw [Bool.eq_false_iff, Ne, isNaN_iff]; omega
  · rw [Bool.eq_false_iff, Ne, isInf_iff]; omega

/-- A datum is finite, an infinity or a NaN. -/
theorem float_cases (x : F64) : isFinite x = true ∨ isInf x = true ∨ isNaN x = true := by
  rw [isFinite_iff, isInf_iff, isNaN_iff]; omega

/-- A zero is finite. -/
theorem isFinite_of_isZero {x : F64} (h : isZero x = true) : isFinite x = true := by
  rw [isZero_iff] at h; rw [isFinite_iff, h]; decide

/-- The magnitude of a zero. -/
theorem fmag_of_isZero {x : F64} (h : isZero x = true) : fmag x = 0 := by
  rw [isZero_iff] at h; rw [fmag_eq_bodyMag, h]; decide

theorem fint_of_isZero {x : F64} (h : isZero x = true) : fint x = 0 := by
  simp [fint, fmag_of_isZero h]

theorem fmag_eq_zero_iff (x : F64) : fmag x = 0 ↔ isZero x = true := by
  refine ⟨fun h => ?_, fmag_of_isZero⟩
  rw [fmag_eq_bodyMag, bodyMag] at h
  rw [isZero_iff]
  split at h
  · omega
  · have hpow : 2 ^ (fbody x / 2 ^ 52 - 1) ≠ 0 := by positivity
    rcases Nat.mul_eq_zero.mp h with h | h
    · omega
    · exact absurd h hpow

theorem infBody_lt : infBody < 2 ^ 63 := by decide

/-- A rounded body never exceeds that of the infinities. -/
theorem roundBody_le (num den : Nat) : roundBody num den ≤ infBody := Nat.min_le_right _ _

theorem roundBody_lt (num den : Nat) : roundBody num den < 2 ^ 63 := lt_of_le_of_lt (roundBody_le num den) infBody_lt

/-- Rounding zero. -/
theorem roundBody_zero (den : Nat) : roundBody 0 den = 0 := by
  simp [roundBody]

/-- Rounding a whole number of steps gives that number: nothing is cut off. -/
theorem roundBody_of_steps {num den p q : Nat} (hd : 0 < den) (hp : Nat.log2 (num / den) - 52 = p)
    (hn : num = q * (den * 2 ^ p)) : roundBody num den = min (p * 2 ^ 52 + q) infBody := by
  have hs : 0 < den * 2 ^ p := Nat.mul_pos hd (Nat.pow_pos (by omega))
  have hq : num / (den * 2 ^ p) = q := by rw [hn, Nat.mul_div_cancel _ hs]
  have hr : num % (den * 2 ^ p) = 0 := by rw [hn, Nat.mul_mod_left]
  have hno : ¬ (den * 2 ^ p < 2 * 0 ∨ 2 * 0 = den * 2 ^ p ∧ q % 2 = 1) := by omega
  unfold roundBody
  simp only [hp, hq, hr]
  rw [if_neg hno]

/-- A body at or below that of the largest number of the first normal binade is its own magnitude. -/
theorem bodyMag_small {b : Nat} (h : b < 2 ^ 53) : bodyMag b = b := by
  unfold bodyMag
  split
  · rename_i h0
    exact Nat.mod_eq_of_lt ((Nat.div_eq_zero_iff_lt (by positivity)).mp h0)
  · rename_i h0
    have h1 : b / 2 ^ 52 = 1 := by
      have : b / 2 ^ 52 < 2 := Nat.div_lt_of_lt_mul (by rw [← pow_succ]; exact h)
      omega
    have := Nat.div_add_mod b (2 ^ 52)
    rw [h1, Nat.mul_one] at this
    rw [h1, Nat.sub_self, pow_zero, Nat.mul_one, this]

/-- A body with biased exponent `e + 1`. -/
theorem bodyMag_normal {b e : Nat} (h : b / 2 ^ 52 = e + 1) :
    bodyMag b = (2 ^ 52 + b % 2 ^ 52) * 2 ^ e ∧ Nat.log2 (bodyMag b) = 52 + e := by
  have hmag : bodyMag b = (2 ^ 52 + b % 2 ^ 52) * 2 ^ e := by
    unfold bodyMag
    rw [h, if_neg (Nat.succ_ne_zero e), Nat.add_sub_cancel]
  have hpos : 0 < 2 ^ e := Nat.pow_pos (by omega)
  have hlow : 2 ^ 52 ≤ 2 ^ 52 + b % 2 ^ 52 := Nat.le_add_right _ _
  have hhigh : 2 ^ 52 + b % 2 ^ 52 < 2 ^ 53 := by
    have := Nat.mod_lt b (show 0 < 2 ^ 52 by positivity)
    rw [show (2 : Nat) ^ 53 = 2 ^ 52 + 2 ^ 52 by norm_num]
    exact Nat.add_lt_add_left this _
  refine ⟨hmag, ?_⟩
  rw [hmag]
  generalize 2 ^ 52 + b % 2 ^ 52 = n at hlow hhigh
  have hn : n ≠ 0 := fun h0 => absurd (h0 ▸ hlow) (by norm_num)
  rw [Nat.log2_eq_iff (Nat.mul_ne_zero hn hpos.ne')]
  constructor
  · rw [pow_add]; exact Nat.mul_le_mul_right _ hlow
  · rw [show 52 + e + 1 = 53 + e by omega, pow_add]; exact Nat.mul_lt_mul_of_pos_right hhigh hpos

/-- Rounding the magnitude of a finite datum gives its body back: an exact result is not changed by rounding. -/
theorem roundBody_bodyMag {b den : Nat} (hb : b < infBody) (hd : 0 < den) : roundBody (bodyMag b * den) den = b := by
  by_cases hs : b < 2 ^ 53
  · have hlog : Nat.log2 b - 52 = 0 := by
      rcases Nat.eq_zero_or_pos b with rfl | hp
      · simp
      · have : Nat.log2 b < 53 := (Nat.log2_lt hp.ne').mpr hs
        omega
    rw [bodyMag_small hs, roundBody_of_steps (p := 0) (q := b) hd (by rw [Nat.mul_div_cancel _ hd, hlog]) (by simp),
      Nat.zero_mul, Nat.zero_add]
    exact Nat.min_eq_left hb.le
  · obtain ⟨e, he⟩ : ∃ e, b / 2 ^ 52 = e + 1 := by
      have : 2 ≤ b / 2 ^ 52 := (Nat.le_div_iff_mul_le (by positivity)).mpr (by rw [← pow_succ']; exact Nat.le_of_not_lt hs)
      exact ⟨b / 2 ^ 52 - 1, by omega⟩
    obtain ⟨hmag, hlog⟩ := bodyMag_normal he
    have hsum : e * 2 ^ 52 + (2 ^ 52 + b % 2 ^ 52) = b := by
      have := Nat.div_add_mod b (2 ^ 52)
      rw [he] at this
      rw [← Nat.add_assoc, ← Nat.succ_mul, Nat.mul_comm]
      exact this
    rw [roundBody_of_steps (p := e) (q := 2 ^ 52 + b % 2 ^ 52) hd
      (by rw [Nat.mul_div_cancel _ hd, hlog, Nat.add_sub_cancel_left]) (by rw [hmag]; ring), hsum]
    exact Nat.min_eq_left hb.le

/-- A finite datum's magnitude, rounded and packed with its sign, is the datum. -/
theorem packF64_round_fmag {x : F64} {den : Nat} (h : isFinite x = true) (hd : 0 < den) :
    packF64 (fsign x) (roundBody (fmag x * den) den) = x := by
  rw [fmag_eq_bodyMag, roundBody_bodyMag ((isFinite_iff x).mp h) hd, packF64_fsign_fbody]

theorem natAbs_fint (x : F64) : (fint x).natAbs = fmag x := by
  unfold fint; split <;> simp

/-- The sign of a value that is not zero. -/
theorem fint_neg_iff {x : F64} (h : isZero x = false) : fint x < 0 ↔ fsign x = true := by
  have hm : fmag x ≠ 0 := fun h0 => by rw [fmag_eq_zero_iff] at h0; simp [h] at h0
  unfold fint
  cases fsign x
  · simp
  · simp; omega

theorem fint_eq_zero_iff (x : F64) : fint x = 0 ↔ isZero x = true := by
  rw [← Int.natAbs_eq_zero, natAbs_fint, fmag_eq_zero_iff]

/-- `fadd` on finite data is the exact sum rounded once. -/
theorem fadd_of_finite {a b : F64} (ha : isFinite a = true) (hb : isFinite b = true) : fadd a b = faddFinite a b := by
  simp [fadd, isFinite_not_special ha, isFinite_not_special hb]

/-- `fmul` on finite data is the exact product rounded once. -/
theorem fmul_of_finite {a b : F64} (ha : isFinite a = true) (hb : isFinite b = true) :
    fmul a b = packF64 (fsign a != fsign b) (roundBody (fmag a * fmag b) unitsPerOne) := by
  simp [fmul, isFinite_not_special ha, isFinite_not_special hb]

/-- Adding a zero to a finite datum that is not a zero changes nothing (R127). -/
theorem fadd_zero_right {a z : F64} (ha : isFinite a = true) (hn : isZero a = false) (hz : isZero z = true) :
    fadd a z = a := by
  have h0 : fint a ≠ 0 := fun h => by rw [fint_eq_zero_iff] at h; simp [hn] at h
  rw [fadd_of_finite ha (isFinite_of_isZero hz)]
  simp only [faddFinite, fint_of_isZero hz, add_zero, h0, if_false, natAbs_fint]
  have hs : decide (fint a < 0) = fsign a := by
    have := fint_neg_iff hn
    by_cases h : fsign a = true
    · simp [h, this.mpr h]
    · have h' : ¬ fint a < 0 := fun hlt => h (this.mp hlt)
      simp only [h', decide_false]; simpa using (Bool.eq_false_iff.mpr h).symm
  rw [hs]
  simpa using packF64_round_fmag ha (den := 1) (by omega)

/-- The sum of two zeros is `-0.0` only when both have a negative sign (R127). -/
theorem fadd_zero_zero {a b : F64} (ha : isZero a = true) (hb : isZero b = true) :
    fadd a b = packF64 (fsign a && fsign b) 0 := by
  rw [fadd_of_finite (isFinite_of_isZero ha) (isFinite_of_isZero hb)]
  simp [faddFinite, fint_of_isZero ha, fint_of_isZero hb, roundBody_zero]

/-- The product of a zero and a finite datum is the zero of the product sign (R127). -/
theorem fmul_zero_left {z b : F64} (hz : isZero z = true) (hb : isFinite b = true) :
    fmul z b = packF64 (fsign z != fsign b) 0 := by
  rw [fmul_of_finite (isFinite_of_isZero hz) hb]
  simp [fmag_of_isZero hz, roundBody_zero]

/-- The product of a finite datum and a zero is the zero of the product sign (R127). -/
theorem fmul_zero_right {a z : F64} (ha : isFinite a = true) (hz : isZero z = true) :
    fmul a z = packF64 (fsign a != fsign z) 0 := by
  rw [fmul_of_finite ha (isFinite_of_isZero hz)]
  simp [fmag_of_isZero hz, roundBody_zero]

/-- Multiplying a finite datum by 1.0 changes nothing. -/
theorem fmul_one_right {a : F64} (ha : isFinite a = true) : fmul a fone = a := by
  rw [fmul_of_finite ha (by decide), show fsign fone = false by decide,
    show fmag fone = unitsPerOne by decide +kernel, Bool.bne_false]
  exact packF64_round_fmag ha (by unfold unitsPerOne; positivity)

theorem isZero_packF64_zero (neg : Bool) : isZero (packF64 neg 0) = true := by cases neg <;> decide

theorem toNat_quietNaN (x : F64) : fbody (quietNaN x) = fbody x ||| 0x7FF8000000000000 := by
  rw [fbody_eq, fbody_eq, quietNaN, BitVec.toNat_or, Nat.or_mod_two_pow]
  rfl

/-- What `quietNaN` gives is a quiet NaN, whatever it is given (R120, R124). -/
theorem isQuietNaN_quietNaN (x : F64) : isQuietNaN (quietNaN x) = true := by
  have hbit : (quietNaN x).getLsbD 51 = true := by simp [quietNaN]
  have hnan : isNaN (quietNaN x) = true := by
    rw [isNaN_iff, toNat_quietNaN]
    exact lt_of_lt_of_le (by decide) Nat.right_le_or
  simp [isQuietNaN, hnan, hbit]

theorem isNaN_quietNaN (x : F64) : isNaN (quietNaN x) = true := by
  have := isQuietNaN_quietNaN x
  simp only [isQuietNaN, Bool.and_eq_true] at this
  exact this.1

/-- What an invalid operation returns is a quiet NaN (R124). -/
theorem isQuietNaN_nanResult (op : Config.FloatOp) (a b : F64) : isQuietNaN (nanResult op a b) = true :=
  isQuietNaN_quietNaN _

theorem isNaN_nanResult (op : Config.FloatOp) (a b : F64) : isNaN (nanResult op a b) = true := isNaN_quietNaN _

/-- `fadd` with a NaN operand (R124). -/
theorem isNaN_fadd_left {a : F64} (b : F64) (h : isNaN a = true) : isNaN (fadd a b) = true := by
  simp [fadd, h, isNaN_nanResult]

theorem isNaN_fadd_right (a : F64) {b : F64} (h : isNaN b = true) : isNaN (fadd a b) = true := by
  simp [fadd, h, isNaN_nanResult]

/-- `fmul` with a NaN operand (R124). -/
theorem isNaN_fmul_left {a : F64} (b : F64) (h : isNaN a = true) : isNaN (fmul a b) = true := by
  simp [fmul, h, isNaN_nanResult]

theorem isNaN_fmul_right (a : F64) {b : F64} (h : isNaN b = true) : isNaN (fmul a b) = true := by
  simp [fmul, h, isNaN_nanResult]

/-- `fneg` keeps the body and turns the sign over (R128). -/
theorem fbody_fneg (x : F64) : fbody (fneg x) = fbody x := by
  rw [fbody_eq, fbody_eq, fneg, BitVec.toNat_xor, Nat.xor_mod_two_pow]
  simp

theorem fsign_fneg (x : F64) : fsign (fneg x) = !fsign x := by
  simp [fsign, fneg]

theorem isNaN_fneg (x : F64) : isNaN (fneg x) = isNaN x := by
  rw [Bool.eq_iff_iff, isNaN_iff, isNaN_iff, fbody_fneg]

theorem isZero_fneg (x : F64) : isZero (fneg x) = isZero x := by
  rw [Bool.eq_iff_iff, isZero_iff, isZero_iff, fbody_fneg]

theorem isFinite_fneg (x : F64) : isFinite (fneg x) = isFinite x := by
  rw [Bool.eq_iff_iff, isFinite_iff, isFinite_iff, fbody_fneg]

/-- `fsub` with a NaN operand (R124). -/
theorem isNaN_fsub_left {a : F64} (b : F64) (h : isNaN a = true) : isNaN (fsub a b) = true := isNaN_fadd_left _ h

theorem isNaN_fsub_right (a : F64) {b : F64} (h : isNaN b = true) : isNaN (fsub a b) = true :=
  isNaN_fadd_right _ (by rw [isNaN_fneg]; exact h)

end Sys2Proof.Machine
end

