-- ==== Sys2Proof/Laws/PerInstr.lean ====
section
/-! SUPPORT. Facts about every command as syntax, one lemma per constructor: the word the encoder writes matches the row of
the opcode map (R93) that carries the command's mnemonic. -/

namespace Sys2Proof.Laws

/-- The encoding of a well-formed command matches its row of the opcode map (R93). -/
def EncodeMatchesRow.Statement (i : Instr) : Prop :=
  i.WellFormed → ∃ r ∈ opcodeRows, r.mnemonic = i.mnemonic ∧ r.matches (encode i) = true

/-- A word matches a row when its opcode is the row's and its reserved bits are 0, for a row whose mask is the opcode byte
together with the reserved bits of the format. -/
theorem matches_of_fields {r : OpcodeRow} {op : Opcode} {c : Word32} (hm : r.mask = op.format.reserved ||| 0xFF#32)
    (hb : r.matchBits = op.code.setWidth 32) (hop : field c 0 8 = op.code) (hres : c &&& op.format.reserved = 0#32) :
    r.matches c = true := by
  have hlow : c &&& 0xFF#32 = op.code.setWidth 32 := by
    rw [← hop]
    apply BitVec.eq_of_getLsbD_eq
    intro i hi
    by_cases h : i < 8
    · have hk : (0xFF#32).getLsbD i = true := by
        have : ∀ j < 8, (0xFF#32).getLsbD j = true := by decide
        exact this i h
      simp [field, hi, h, hk]
    · have hk : (0xFF#32).getLsbD i = false := by
        have : ∀ j < 32, ¬ j < 8 → (0xFF#32).getLsbD j = false := by decide
        exact this i hi h
      rw [BitVec.getLsbD_and, hk]
      simp [field, hi, h]
  have hsplit : c &&& (op.format.reserved ||| 0xFF#32) = (c &&& op.format.reserved) ||| (c &&& 0xFF#32) := by
    apply BitVec.eq_of_getLsbD_eq
    intro i hi
    simp only [BitVec.getLsbD_and, BitVec.getLsbD_or, Bool.and_or_distrib_left]
  simp [OpcodeRow.matches, hm, hb, hsplit, hres, hlow]

theorem EncodeMatchesRow.nop : EncodeMatchesRow.Statement .nop := fun _ => by decide
theorem EncodeMatchesRow.srst : EncodeMatchesRow.Statement .srst := fun _ => by decide
theorem EncodeMatchesRow.cadd (zd za zb : ZReg) : EncodeMatchesRow.Statement (.cadd zd za zb) := fun _ => by
  cases zd <;> cases za <;> cases zb <;> decide
theorem EncodeMatchesRow.cmul (zd za zb : ZReg) : EncodeMatchesRow.Statement (.cmul zd za zb) := fun _ => by
  cases zd <;> cases za <;> cases zb <;> decide
theorem EncodeMatchesRow.cmag (za : ZReg) : EncodeMatchesRow.Statement (.cmag za) := fun _ => by cases za <;> decide
theorem EncodeMatchesRow.cexp (zd za : ZReg) : EncodeMatchesRow.Statement (.cexp zd za) := fun _ => by
  cases zd <;> cases za <;> decide
theorem EncodeMatchesRow.loadRect : EncodeMatchesRow.Statement .loadRect := fun _ => by decide
theorem EncodeMatchesRow.loadHann : EncodeMatchesRow.Statement .loadHann := fun _ => by decide
theorem EncodeMatchesRow.loadHamm : EncodeMatchesRow.Statement .loadHamm := fun _ => by decide
theorem EncodeMatchesRow.dft : EncodeMatchesRow.Statement .dft := fun _ => by decide
theorem EncodeMatchesRow.power : EncodeMatchesRow.Statement .power := fun _ => by decide
theorem EncodeMatchesRow.getpwr (k : Nat) : EncodeMatchesRow.Statement (.getpwr k) := fun _ =>
  ⟨⟨"GETPWR", 0x00000023#32, 0xFF0000FF#32⟩, by simp [opcodeRows], rfl,
    matches_of_fields (op := .getpwr) (by decide) (by decide) (field_op_encodeK _ _) (reserved_encodeK _ _)⟩
theorem EncodeMatchesRow.peakre (lo hi : Nat) : EncodeMatchesRow.Statement (.peakre lo hi) := fun _ =>
  ⟨⟨"PEAKRE", 0x00000024#32, 0xF00000FF#32⟩, by simp [opcodeRows], rfl,
    matches_of_fields (op := .peakre) (by decide) (by decide) (field_op_encodeR _ _ _) (reserved_encodeR _ _ _)⟩
theorem EncodeMatchesRow.peakpw (lo hi : Nat) : EncodeMatchesRow.Statement (.peakpw lo hi) := fun _ =>
  ⟨⟨"PEAKPW", 0x00000025#32, 0xF00000FF#32⟩, by simp [opcodeRows], rfl,
    matches_of_fields (op := .peakpw) (by decide) (by decide) (field_op_encodeR _ _ _) (reserved_encodeR _ _ _)⟩
theorem EncodeMatchesRow.melfb : EncodeMatchesRow.Statement .melfb := fun _ => by decide
theorem EncodeMatchesRow.dct : EncodeMatchesRow.Statement .dct := fun _ => by decide
theorem EncodeMatchesRow.frame : EncodeMatchesRow.Statement .frame := fun _ => by decide
theorem EncodeMatchesRow.mfcc : EncodeMatchesRow.Statement .mfcc := fun _ => by decide

end Sys2Proof.Laws
end

