-- ==== Sys2Proof/Laws/Rounding.lean ====
section
/-! SUPPORT. Rounding is to nearest, ties to even: the magnitudes in their order, the grid they form at the size of a value,
and the two neighbours between which `roundBody` chooses. -/

namespace Sys2Proof.Machine

/-- The body of `m` steps of weight `2^p`, where a body with that weight exists. -/
theorem bodyMag_steps {p m : Nat} (hm : m ≤ 2 ^ 53) (hp : p = 0 ∨ 2 ^ 52 ≤ m) : bodyMag (p * 2 ^ 52 + m) = m * 2 ^ p := by
  rcases hp with rfl | hlow
  · rw [Nat.zero_mul, Nat.zero_add, pow_zero, Nat.mul_one]
    rcases Nat.lt_or_ge m (2 ^ 53) with h | h
    · exact bodyMag_small h
    · rw [Nat.le_antisymm hm h]; decide +kernel
  · obtain ⟨f, rfl⟩ := Nat.exists_eq_add_of_le hlow
    have hf : f ≤ 2 ^ 52 := by
      rw [show (2 : Nat) ^ 53 = 2 ^ 52 + 2 ^ 52 by norm_num] at hm
      exact Nat.le_of_add_le_add_left hm
    rcases Nat.lt_or_ge f (2 ^ 52) with h | h
    · have hdiv : (p * 2 ^ 52 + (2 ^ 52 + f)) / 2 ^ 52 = p + 1 := by
        rw [show p * 2 ^ 52 + (2 ^ 52 + f) = f + 2 ^ 52 * (p + 1) by ring, Nat.add_mul_div_left _ _ (by positivity),
          Nat.div_eq_of_lt h, Nat.zero_add]
      have hmod : (p * 2 ^ 52 + (2 ^ 52 + f)) % 2 ^ 52 = f := by
        rw [show p * 2 ^ 52 + (2 ^ 52 + f) = f + 2 ^ 52 * (p + 1) by ring, Nat.add_mul_mod_self_left, Nat.mod_eq_of_lt h]
      rw [(bodyMag_normal hdiv).1, hmod]
    · obtain rfl := Nat.le_antisymm hf h
      have hdiv : (p * 2 ^ 52 + (2 ^ 52 + 2 ^ 52)) / 2 ^ 52 = (p + 1) + 1 := by
        rw [show p * 2 ^ 52 + (2 ^ 52 + 2 ^ 52) = 2 ^ 52 * (p + 1 + 1) by ring, Nat.mul_div_cancel_left _ (by positivity)]
      have hmod : (p * 2 ^ 52 + (2 ^ 52 + 2 ^ 52)) % 2 ^ 52 = 0 := by
        rw [show p * 2 ^ 52 + (2 ^ 52 + 2 ^ 52) = 2 ^ 52 * (p + 1 + 1) by ring, Nat.mul_mod_right]
      rw [(bodyMag_normal hdiv).1, hmod, pow_succ]
      ring

/-- A body and the next one. -/
theorem bodyMag_succ (b : Nat) : bodyMag b < bodyMag (b + 1) := by
  have hdm := Nat.div_add_mod b (2 ^ 52)
  have hlt := Nat.mod_lt b (show 0 < 2 ^ 52 by positivity)
  rcases Nat.eq_zero_or_pos (b / 2 ^ 52) with h0 | hpos
  · have hb : b < 2 ^ 52 := (Nat.div_eq_zero_iff_lt (by positivity)).mp h0
    rw [bodyMag_small (hb.trans (by norm_num)), bodyMag_small (lt_of_le_of_lt hb (by norm_num))]
    exact Nat.lt_succ_self b
  · obtain ⟨e, he⟩ : ∃ e, b / 2 ^ 52 = e + 1 := ⟨b / 2 ^ 52 - 1, by omega⟩
    have hb : b = e * 2 ^ 52 + (2 ^ 52 + b % 2 ^ 52) := by
      rw [he] at hdm
      rw [← Nat.add_assoc, ← Nat.succ_mul, Nat.mul_comm]; exact hdm.symm
    generalize b % 2 ^ 52 = f at hb hlt
    have hle : 2 ^ 52 + (f + 1) ≤ 2 ^ 53 := by
      rw [show (2 : Nat) ^ 53 = 2 ^ 52 + 2 ^ 52 by norm_num]; exact Nat.add_le_add_left hlt _
    rw [hb, show e * 2 ^ 52 + (2 ^ 52 + f) + 1 = e * 2 ^ 52 + (2 ^ 52 + (f + 1)) by ring,
      bodyMag_steps (m := 2 ^ 52 + f) (Nat.le_of_succ_le hle) (.inr (Nat.le_add_right _ _)),
      bodyMag_steps hle (.inr (Nat.le_add_right _ _))]
    exact Nat.mul_lt_mul_of_pos_right (Nat.lt_succ_self _) (by positivity)

/-- The magnitudes are in the order of the bodies. -/
theorem bodyMag_strictMono : StrictMono bodyMag := strictMono_nat_of_lt_succ bodyMag_succ

/-- No magnitude lies strictly between two neighbours of the grid of weight `2^p`. -/
theorem bodyMag_grid {p q : Nat} (hq : q < 2 ^ 53) (hp : p = 0 ∨ 2 ^ 52 ≤ q) (c : Nat) :
    bodyMag c ≤ q * 2 ^ p ∨ (q + 1) * 2 ^ p ≤ bodyMag c := by
  have h0 := bodyMag_steps hq.le hp
  have h1 := bodyMag_steps (p := p) (m := q + 1) hq (hp.imp id (Nat.le_succ_of_le))
  rw [← h0, ← h1]
  rcases Nat.lt_or_ge (p * 2 ^ 52 + q) c with h | h
  · exact .inr (bodyMag_strictMono.monotone h)
  · exact .inl (bodyMag_strictMono.monotone h)

/-- What `roundBody` does: with `q` whole steps and `r` left over, it takes the body of `q` or of `q + 1` steps, the nearer
one, the even one at the middle, and infinity where that body would be beyond the finite ones. -/
theorem roundBody_spec (num : Nat) {den : Nat} (hd : 0 < den) :
    ∃ p q r n : Nat, num = q * (den * 2 ^ p) + r ∧ r < den * 2 ^ p ∧ q < 2 ^ 53 ∧ (p = 0 ∨ 2 ^ 52 ≤ q) ∧
      (n = q ∧ (2 * r < den * 2 ^ p ∨ 2 * r = den * 2 ^ p ∧ q % 2 = 0) ∨
        n = q + 1 ∧ (den * 2 ^ p < 2 * r ∨ 2 * r = den * 2 ^ p ∧ q % 2 = 1)) ∧
      roundBody num den = min (p * 2 ^ 52 + n) infBody := by
  have hs : ∀ p, 0 < den * 2 ^ p := fun p => Nat.mul_pos hd (Nat.pow_pos (by omega))
  obtain ⟨p, hpdef⟩ : ∃ p, Nat.log2 (num / den) - 52 = p := ⟨_, rfl⟩
  have hqdiv : num / (den * 2 ^ p) = num / den / 2 ^ p := (Nat.div_div_eq_div_mul num den (2 ^ p)).symm
  have hq : num / (den * 2 ^ p) < 2 ^ 53 := by
    rw [hqdiv, Nat.div_lt_iff_lt_mul (by positivity), ← pow_add]
    exact lt_of_lt_of_le (Nat.lt_log2_self) (Nat.pow_le_pow_right (by omega) (by omega))
  have hp : p = 0 ∨ 2 ^ 52 ≤ num / (den * 2 ^ p) := by
    rcases Nat.eq_zero_or_pos p with h | h
    · exact .inl h
    · refine .inr ?_
      have hn : num / den ≠ 0 := fun h0 => by rw [h0] at hpdef; simp at hpdef; omega
      rw [hqdiv, Nat.le_div_iff_mul_le (by positivity), ← pow_add]
      exact le_trans (Nat.pow_le_pow_right (by omega) (by omega)) (Nat.log2_self_le hn)
  refine ⟨p, num / (den * 2 ^ p), num % (den * 2 ^ p), if den * 2 ^ p < 2 * (num % (den * 2 ^ p)) ∨
      2 * (num % (den * 2 ^ p)) = den * 2 ^ p ∧ num / (den * 2 ^ p) % 2 = 1 then num / (den * 2 ^ p) + 1
      else num / (den * 2 ^ p), ?_, Nat.mod_lt _ (hs p), hq, hp, ?_, ?_⟩
  · rw [Nat.mul_comm]; exact (Nat.div_add_mod num (den * 2 ^ p)).symm
  · generalize den * 2 ^ p = step
    generalize num / step = q
    generalize num % step = r
    by_cases h : step < 2 * r ∨ 2 * r = step ∧ q % 2 = 1
    · rw [if_pos h]; exact .inr ⟨rfl, h⟩
    · rw [if_neg h]; refine .inl ⟨rfl, ?_⟩; omega
  · unfold roundBody
    simp only [hpdef]

/-- The distance of a magnitude from an exact value of `num / den` units, times `den`. -/
def missBy (num den b : Nat) : Nat := ((bodyMag b * den : Int) - num).natAbs

/-- Rounding is to nearest, ties to even: where the result is finite, no other finite magnitude is nearer to the exact
value, and one that is as near has another value only when the result is even. -/
theorem roundBody_nearest (num : Nat) {den : Nat} (hd : 0 < den) (hfin : roundBody num den < infBody) (c : Nat) :
    missBy num den (roundBody num den) ≤ missBy num den c ∧
      (missBy num den (roundBody num den) = missBy num den c → c = roundBody num den ∨ roundBody num den % 2 = 0) := by
  obtain ⟨p, q, r, n, hnum, hr, hq, hp, hn, hb⟩ := roundBody_spec num hd
  have hbody : roundBody num den = p * 2 ^ 52 + n := by
    rw [hb] at hfin ⊢
    exact Nat.min_eq_left (by omega)
  have hnle : n ≤ 2 ^ 53 := by omega
  have hnp : p = 0 ∨ 2 ^ 52 ≤ n := hp.imp id (fun h => by omega)
  have hmag : bodyMag (roundBody num den) = n * 2 ^ p := by rw [hbody, bodyMag_steps hnle hnp]
  have hpar : roundBody num den % 2 = n % 2 := by rw [hbody]; omega
  have hgrid := bodyMag_grid hq hp c
  have hsame : bodyMag c = n * 2 ^ p → c = roundBody num den := fun h =>
    bodyMag_strictMono.injective (by rw [h, hmag])
  have hscale : ∀ k : Nat, ((k * 2 ^ p : Nat) : Int) * den = k * (den * 2 ^ p : Nat) := fun k => by push_cast; ring
  have hmiss : missBy num den (roundBody num den) = ((n : Int) * (den * 2 ^ p : Nat) - num).natAbs := by
    unfold missBy; rw [hmag, hscale]
  rw [hmiss]
  unfold missBy
  rw [hpar]
  have hnumz : (num : Int) = q * (den * 2 ^ p : Nat) + r := by rw [hnum]; push_cast; ring
  have hlow : bodyMag c ≤ q * 2 ^ p → (bodyMag c : Int) * den ≤ q * (den * 2 ^ p : Nat) := fun h => by
    rw [← hscale]; exact mul_le_mul_of_nonneg_right (by exact_mod_cast h) (by positivity)
  have hhigh : (q + 1) * 2 ^ p ≤ bodyMag c → (q : Int) * (den * 2 ^ p : Nat) + (den * 2 ^ p : Nat) ≤ bodyMag c * den := fun h => by
    have := hscale (q + 1)
    push_cast at this ⊢
    rw [← add_one_mul, ← this]
    exact mul_le_mul_of_nonneg_right (by exact_mod_cast h) (by positivity)
  have heqlow : (bodyMag c : Int) * den = q * (den * 2 ^ p : Nat) → bodyMag c = q * 2 ^ p := fun h => by
    rw [← hscale] at h
    exact_mod_cast mul_right_cancel₀ (by exact_mod_cast hd.ne') h
  have heqhigh : (bodyMag c : Int) * den = (q : Int) * (den * 2 ^ p : Nat) + (den * 2 ^ p : Nat) →
      bodyMag c = (q + 1) * 2 ^ p := fun h => by
    have h2 := hscale (q + 1)
    push_cast at h2 h
    rw [← add_one_mul, ← h2] at h
    exact_mod_cast mul_right_cancel₀ (by exact_mod_cast hd.ne') h
  have hnext : ((q + 1 : Nat) : Int) * (den * 2 ^ p : Nat) = q * (den * 2 ^ p : Nat) + (den * 2 ^ p : Nat) := by
    push_cast; ring
  clear hmiss hmag hpar hbody hfin hb hnle hnp hscale hnum
  generalize (bodyMag c : Int) * den = X at *
  generalize den * 2 ^ p = S at *
  rw [hnumz]
  rcases hn with ⟨rfl, hcase⟩ | ⟨rfl, hcase⟩
  · generalize (n : Int) * (S : Int) = Q at *
    refine ⟨by rcases hgrid with h | h <;> [have := hlow h; have := hhigh h] <;> omega, fun heq => ?_⟩
    rcases hgrid with h | h
    · have h1 := hlow h
      exact .inl (hsame (heqlow (by omega)))
    · have h1 := hhigh h
      right; omega
  · rw [hnext]
    clear hnext
    generalize (q : Int) * (S : Int) = Q at *
    refine ⟨by rcases hgrid with h | h <;> [have := hlow h; have := hhigh h] <;> omega, fun heq => ?_⟩
    rcases hgrid with h | h
    · have h1 := hlow h
      right; omega
    · have h1 := hhigh h
      exact .inl (hsame (heqhigh (by omega)))

/-- Rounding keeps the order: a value that does not exceed a finite magnitude is not rounded above it. -/
theorem roundBody_le_of_le {num den b : Nat} (hd : 0 < den) (h : num ≤ bodyMag b * den) :
    roundBody num den ≤ b := by
  obtain ⟨p, q, r, n, hnum, hr, hq, hp, hn, hround⟩ := roundBody_spec num hd
  by_contra hgt
  have hgt : b < roundBody num den := Nat.lt_of_not_le hgt
  have hbn : b < p * 2 ^ 52 + n := lt_of_lt_of_le hgt (by rw [hround]; exact Nat.min_le_left _ _)
  have hqb : num ≤ q * (den * 2 ^ p) := by
    rcases hn with ⟨rfl, _⟩ | ⟨rfl, _⟩
    · have h1 := bodyMag_steps hq.le hp
      have h2 := bodyMag_strictMono hbn
      rw [h1] at h2
      have h3 : bodyMag b * den < n * 2 ^ p * den := Nat.mul_lt_mul_of_pos_right h2 hd
      have h4 : n * 2 ^ p * den = n * (den * 2 ^ p) := by ring
      omega
    · have h1 := bodyMag_steps hq.le hp
      have h2 : bodyMag b ≤ bodyMag (p * 2 ^ 52 + q) := bodyMag_strictMono.monotone (by omega)
      rw [h1] at h2
      have h3 : bodyMag b * den ≤ q * 2 ^ p * den := Nat.mul_le_mul_right den h2
      have h4 : q * 2 ^ p * den = q * (den * 2 ^ p) := by ring
      omega
  have hr0 : r = 0 := by omega
  subst hr0
  have hsp : 0 < den * 2 ^ p := Nat.mul_pos hd (Nat.pow_pos (by omega))
  rcases hn with ⟨rfl, _⟩ | ⟨_, hbad⟩
  · have h1 := bodyMag_steps hq.le hp
    have h2 := bodyMag_strictMono hbn
    rw [h1] at h2
    have h3 : bodyMag b * den < n * 2 ^ p * den := Nat.mul_lt_mul_of_pos_right h2 hd
    have h4 : n * 2 ^ p * den = n * (den * 2 ^ p) := by ring
    omega
  · omega

/-- Rounding keeps the order: a value that is at least a magnitude is not rounded below it. -/
theorem le_roundBody_of_le {num den b : Nat} (hd : 0 < den) (hb : b ≤ infBody) (h : bodyMag b * den ≤ num) :
    b ≤ roundBody num den := by
  obtain ⟨p, q, r, n, hnum, hr, hq, hp, hn, hround⟩ := roundBody_spec num hd
  rw [hround]
  refine le_min ?_ hb
  by_contra hgt
  have hsucc : p * 2 ^ 52 + n + 1 ≤ b := Nat.lt_of_not_le hgt
  have hqn : q ≤ n := by clear hb hround hgt hsucc; omega
  have h1 := bodyMag_strictMono.monotone (show p * 2 ^ 52 + (q + 1) ≤ b by
    rw [← Nat.add_assoc]; exact le_trans (Nat.succ_le_succ (Nat.add_le_add_left hqn _)) hsucc)
  rw [bodyMag_steps (m := q + 1) hq (hp.imp id Nat.le_succ_of_le)] at h1
  have h2 : (q + 1) * 2 ^ p * den ≤ bodyMag b * den := Nat.mul_le_mul_right den h1
  have h3 : (q + 1) * 2 ^ p * den = q * (den * 2 ^ p) + den * 2 ^ p := by ring
  clear hb hround hgt hsucc
  omega

/-- A body whose exponent field is at least `e + 1` has a magnitude that is a multiple of `2^e`. -/
theorem dvd_bodyMag {b e : Nat} (h : (e + 1) * 2 ^ 52 ≤ b) : 2 ^ e ∣ bodyMag b := by
  have hdiv : e + 1 ≤ b / 2 ^ 52 := (Nat.le_div_iff_mul_le (by positivity)).mpr h
  obtain ⟨d, hd⟩ := Nat.exists_eq_add_of_le hdiv
  rw [(bodyMag_normal (e := e + d) (by omega)).1, pow_add]
  exact Dvd.dvd.mul_left (Dvd.intro _ rfl) _

/-- The integer square root is the integer part of the root. -/
theorem natSqrt_spec (fuel n : Nat) (h : n < 4 ^ fuel) :
    natSqrt fuel n * natSqrt fuel n ≤ n ∧ n < (natSqrt fuel n + 1) * (natSqrt fuel n + 1) := by
  induction fuel generalizing n with
  | zero => simp at h; subst h; decide
  | succ fuel ih =>
    rw [pow_succ] at h
    obtain ⟨h1, h2⟩ := ih (n / 4) (by omega)
    simp only [natSqrt]
    generalize natSqrt fuel (n / 4) = r at h1 h2
    have e1 : (2 * r + 1) * (2 * r + 1) = 4 * (r * r) + 4 * r + 1 := by ring
    have e2 : (2 * r + 1 + 1) * (2 * r + 1 + 1) = 4 * ((r + 1) * (r + 1)) := by ring
    have e3 : 2 * r * (2 * r) = 4 * (r * r) := by ring
    split
    · rename_i hle
      exact ⟨hle, by omega⟩
    · rename_i hle
      exact ⟨by omega, Nat.lt_of_not_le hle⟩

end Sys2Proof.Machine
end

