-- ==== Sys2Proof/Laws/RealRounding.lean ====
section
/-! SUPPORT. Rounding in real numbers: a datum packed from a rounded body is its exact value rounded once. -/

namespace Sys2Proof.Machine

/-- The magnitude of the body of an infinity, were it a finite one: the first value beyond the finite data. -/
theorem bodyMag_infBody : bodyMag infBody = 2 ^ 2098 := by
  have h : infBody / 2 ^ 52 = 2046 + 1 := by unfold infBody; norm_num
  rw [(bodyMag_normal h).1, show infBody % 2 ^ 52 = 0 by unfold infBody; norm_num, Nat.add_zero, ← pow_add]

/-- Half a unit in the last place above the largest finite magnitude, in units. -/
def overflowUnits : Nat := (2 ^ 54 - 1) * 2 ^ 2044

/-- Rounding gives infinity exactly from half a unit in the last place above the largest finite magnitude on (R125). -/
theorem roundBody_eq_infBody_iff (num : Nat) {den : Nat} (hd : 0 < den) :
    roundBody num den = infBody ↔ overflowUnits * den ≤ num := by
  obtain ⟨p, q, r, n, hnum, hr, hq, hp, hn, hb⟩ := roundBody_spec num hd
  have hinf : infBody = 2047 * 2 ^ 52 := rfl
  have key : roundBody num den = infBody ↔ 2047 * 2 ^ 52 ≤ p * 2 ^ 52 + n := by
    rw [hb, hinf]; exact min_eq_right_iff
  rw [key]
  clear key hb hinf
  unfold overflowUnits
  have hH : 0 < 2 ^ 2044 := by
    generalize 2044 = n
    positivity
  rcases Nat.lt_or_ge p 2045 with hp1 | hp1
  · -- below the top binade
    have hno : ¬ 2047 * 2 ^ 52 ≤ p * 2 ^ 52 + n := by omega
    refine ⟨fun h => absurd h hno, fun h => absurd h (Nat.not_le.mpr ?_)⟩
    have hpow : 2 ^ p ≤ 2 ^ 2044 := Nat.pow_le_pow_right Nat.zero_lt_two (Nat.le_of_lt_succ hp1)
    have h1 : num < (q + 1) * (den * 2 ^ p) := by rw [Nat.succ_mul]; omega
    have h2 : (q + 1) * (den * 2 ^ p) ≤ 2 ^ 53 * (den * 2 ^ 2044) :=
      Nat.mul_le_mul hq (Nat.mul_le_mul_left _ hpow)
    have h3 : 2 ^ 53 * (den * 2 ^ 2044) ≤ (2 ^ 54 - 1) * 2 ^ 2044 * den := by
      rw [Nat.mul_comm den, ← Nat.mul_assoc]
      exact Nat.mul_le_mul_right _ (Nat.mul_le_mul_right _ (by norm_num))
    omega
  · rcases Nat.lt_or_ge p 2046 with hp2 | hp2
    · obtain rfl : p = 2045 := by omega
      have hstep : den * 2 ^ 2045 = 2 * (den * 2 ^ 2044) := by rw [pow_succ]; ring
      have hbound : (2 ^ 54 - 1) * 2 ^ 2044 * den = (2 ^ 54 - 1) * (den * 2 ^ 2044) := by ring
      rw [hbound]
      rw [hstep] at hnum hr hn
      have hS : 0 < den * 2 ^ 2044 := Nat.mul_pos hd hH
      clear hstep hbound hH hp hp1 hp2
      generalize den * 2 ^ 2044 = S at *
      obtain ⟨qs, hqs⟩ : ∃ x, x = q * (2 * S) := ⟨_, rfl⟩
      rw [← hqs] at hnum
      constructor
      · intro h
        have hq1 : q = 2 ^ 53 - 1 := by omega
        have hr1 : S ≤ r := by omega
        rw [hq1] at hqs
        have : (2 ^ 54 - 1) * S = (2 ^ 53 - 1) * (2 * S) + S := by
          norm_num; ring
        omega
      · intro h
        by_contra hlt
        have hcase : q + 1 ≤ 2 ^ 53 - 1 ∨ (q = 2 ^ 53 - 1 ∧ r < S) := by omega
        rcases hcase with hc | ⟨hc, hr1⟩
        · have h1 : (q + 1) * (2 * S) ≤ (2 ^ 53 - 1) * (2 * S) := Nat.mul_le_mul_right _ hc
          rw [Nat.succ_mul] at h1
          have : (2 ^ 54 - 1) * S = (2 ^ 53 - 1) * (2 * S) + S := by
            norm_num; ring
          omega
        · rw [hc] at hqs
          have : (2 ^ 54 - 1) * S = (2 ^ 53 - 1) * (2 * S) + S := by
            norm_num; ring
          omega
    · have hq52 : 2 ^ 52 ≤ q := hp.resolve_left (by omega)
      refine ⟨fun _ => ?_, fun _ => by omega⟩
      have hpow : 2 ^ 2046 ≤ 2 ^ p := Nat.pow_le_pow_right (by omega) hp2
      have h1 : 2 ^ 52 * (den * 2 ^ 2046) ≤ q * (den * 2 ^ p) := Nat.mul_le_mul hq52 (Nat.mul_le_mul_left _ hpow)
      have h2 : (2 ^ 54 - 1) * 2 ^ 2044 * den ≤ 2 ^ 52 * (den * 2 ^ 2046) := by
        have : 2 ^ 52 * (den * 2 ^ 2046) = 2 ^ 54 * 2 ^ 2044 * den := by
          rw [show (2046 : Nat) = 2 + 2044 by norm_num, pow_add 2 2 2044]; ring
        rw [this]
        exact Nat.mul_le_mul_right _ (Nat.mul_le_mul_right _ (by norm_num))
      omega

/-- One unit, in real numbers. -/
noncomputable def realUnit : ℝ := (2 : ℝ) ^ (1074 : ℕ)

theorem realUnit_pos : 0 < realUnit := by
  unfold realUnit
  generalize 1074 = n
  positivity

/-- The sign of a packed datum as a real factor. -/
noncomputable def signFactor (neg : Bool) : ℝ := if neg then -1 else 1

theorem abs_signFactor (neg : Bool) : |signFactor neg| = 1 := by cases neg <;> simp [signFactor]

theorem signFactor_mul_self (neg : Bool) : signFactor neg * signFactor neg = 1 := by cases neg <;> simp [signFactor]

/-- The value of a finite datum from its sign and magnitude. -/
theorem fvalue_eq (x : F64) : fvalue x = signFactor (fsign x) * (bodyMag (fbody x) / realUnit) := by
  unfold fvalue fint signFactor realUnit
  rw [fmag_eq_bodyMag]
  generalize (2 : ℝ) ^ 1074 = u
  split <;> push_cast <;> ring

theorem fvalue_packF64 (neg : Bool) {b : Nat} (hb : b < 2 ^ 63) :
    fvalue (packF64 neg b) = signFactor neg * (bodyMag b / realUnit) := by
  rw [fvalue_eq, fsign_packF64 neg hb, fbody_packF64 neg hb]

/-- The distance of a magnitude from an exact value, in real units. -/
theorem abs_sub_eq_missBy (num b : Nat) {den : Nat} (hd : 0 < den) :
    |(bodyMag b : ℝ) - num / den| = missBy num den b / den := by
  have hd' : (0 : ℝ) < den := by exact_mod_cast hd
  rw [eq_div_iff hd'.ne', missBy, ← abs_of_pos hd', ← abs_mul, abs_of_pos hd', sub_mul, div_mul_cancel₀ _ hd'.ne',
    Nat.cast_natAbs]
  push_cast
  rfl

theorem ffrac_packF64_mod_two (neg : Bool) {b : Nat} (hb : b < 2 ^ 63) : ffrac (packF64 neg b) % 2 = b % 2 := by
  rw [ffrac_eq, fbody_packF64 neg hb]; omega

/-- A finite body whose magnitude is nearest to an exact magnitude, the even one at the middle, packed with a sign, is nearest
to the exact value of that sign, ties to even: the data of the other sign are no nearer than zero is. -/
theorem nearestEven_of_body (neg : Bool) {x : ℝ} (hx : 0 ≤ x) {b : Nat} (hfin : b < infBody)
    (h : ∀ d, |(bodyMag b : ℝ) - x| ≤ |(bodyMag d : ℝ) - x| ∧
      (|(bodyMag b : ℝ) - x| = |(bodyMag d : ℝ) - x| → d = b ∨ b % 2 = 0)) :
    NearestEven (signFactor neg * (x / realUnit)) (packF64 neg b) := by
  have hb := lt_trans hfin infBody_lt
  have hu := realUnit_pos
  refine ⟨(isFinite_iff _).mpr (by rw [fbody_packF64 neg hb]; exact hfin), fun c _ => ?_⟩
  rw [fvalue_packF64 neg hb, ffrac_packF64_mod_two neg hb, fvalue_eq c]
  have hself : ∀ y : ℝ, |signFactor neg * (y / realUnit) - signFactor neg * (x / realUnit)| = |y - x| / realUnit := by
    intro y
    rw [← mul_sub, abs_mul, abs_signFactor, one_mul, ← sub_div, abs_div, abs_of_pos hu]
  rw [hself]
  by_cases hs : fsign c = neg
  · rw [hs, hself]
    obtain ⟨hle, heq⟩ := h (fbody c)
    refine ⟨by gcongr, fun he => ?_⟩
    rcases heq ((div_left_inj' hu.ne').mp he) with h2 | h2
    · left; rw [h2]
    · exact .inr h2
  · have hopp : signFactor (fsign c) = -signFactor neg := by
      cases hcs : fsign c <;> cases neg <;> simp_all [signFactor]
    have hc0 : (0 : ℝ) ≤ bodyMag (fbody c) := Nat.cast_nonneg _
    have hfar : |signFactor (fsign c) * (bodyMag (fbody c) / realUnit) - signFactor neg * (x / realUnit)| =
        (bodyMag (fbody c) + x) / realUnit := by
      rw [hopp, show -signFactor neg * ((bodyMag (fbody c) : ℝ) / realUnit) - signFactor neg * (x / realUnit) =
        -(signFactor neg * ((bodyMag (fbody c) + x) / realUnit)) by ring, abs_neg, abs_mul, abs_signFactor, one_mul,
        abs_of_nonneg (by positivity)]
    obtain ⟨hle, heq⟩ := h 0
    have h0 : |(bodyMag 0 : ℝ) - x| = x := by
      rw [show bodyMag 0 = 0 by decide, Nat.cast_zero, zero_sub, abs_neg, abs_of_nonneg hx]
    rw [h0] at hle heq
    rw [hfar]
    refine ⟨?_, fun he => ?_⟩
    · rw [div_le_div_iff_of_pos_right hu]; linarith
    · have h1 := (div_left_inj' hu.ne').mp he
      have hcz : (bodyMag (fbody c) : ℝ) = 0 := by linarith
      rcases heq (by linarith) with h3 | h3
      · left
        rw [hcz, ← h3, show bodyMag 0 = 0 by decide]
        simp
      · exact .inr h3

/-- A rounded body that is finite, packed with a sign, is nearest to the exact value of that sign, ties to even. -/
theorem nearestEven_pack (neg : Bool) (num : Nat) {den : Nat} (hd : 0 < den) (hfin : roundBody num den < infBody) :
    NearestEven (signFactor neg * (num / den / realUnit)) (packF64 neg (roundBody num den)) := by
  have hd' : (0 : ℝ) < den := by exact_mod_cast hd
  refine nearestEven_of_body neg (by positivity) hfin fun d => ?_
  rw [abs_sub_eq_missBy _ _ hd, abs_sub_eq_missBy _ _ hd]
  obtain ⟨hle, heq⟩ := roundBody_nearest num hd hfin d
  refine ⟨?_, fun h => heq (by exact_mod_cast (div_left_inj' hd'.ne').mp h)⟩
  have : (missBy num den (roundBody num den) : ℝ) ≤ missBy num den d := by exact_mod_cast hle
  gcongr

/-- The bound of R125 in units. -/
theorem overflowBound_eq : overflowBound = (overflowUnits : ℝ) / realUnit := by
  have hU : ∀ n : Nat, (((2 ^ 54 - 1) * 2 ^ n : Nat) : ℝ) = (2 : ℝ) ^ (54 : ℕ) * 2 ^ n - 2 ^ n := fun n => by
    rw [Nat.cast_mul, Nat.cast_sub (by norm_num)]
    push_cast
    ring
  rw [show overflowUnits = (2 ^ 54 - 1) * 2 ^ 2044 from rfl]
  rw [hU, overflowBound, realUnit, eq_div_iff (by positivity), sub_mul, ← pow_add, ← pow_add, ← pow_add]

/-- A rounded body packed with a sign is the exact value of that sign rounded once. -/
theorem roundsOnce_pack (neg : Bool) (num : Nat) {den : Nat} (hd : 0 < den) :
    RoundsOnce (signFactor neg * (num / den / realUnit)) (packF64 neg (roundBody num den)) := by
  have hd' : (0 : ℝ) < den := by exact_mod_cast hd
  have hu := realUnit_pos
  have hn0 : (0 : ℝ) ≤ (num : ℝ) / den / realUnit := by positivity
  have hbig : overflowBound ≤ (num : ℝ) / den / realUnit ↔ roundBody num den = infBody := by
    rw [roundBody_eq_infBody_iff num hd, overflowBound_eq, div_le_div_iff_of_pos_right hu, le_div_iff₀ hd']
    generalize overflowUnits = U
    rw [← Nat.cast_mul, Nat.cast_le]
  have hpos : 0 < overflowBound := by
    have hnat : ∀ n : Nat, 0 < (2 ^ 54 - 1) * 2 ^ n := fun n => Nat.mul_pos (by norm_num) (Nat.pow_pos (by omega))
    have hunits : (0 : ℝ) < overflowUnits := Nat.cast_pos.mpr (hnat 2044)
    rw [overflowBound_eq]
    exact div_pos hunits hu
  refine ⟨fun h => ?_, fun h => ?_, fun h => ?_⟩
  · rw [abs_mul, abs_signFactor, one_mul, abs_of_nonneg hn0] at h
    refine nearestEven_pack neg num hd (lt_of_le_of_ne (roundBody_le num den) fun he => ?_)
    exact absurd (hbig.mpr he) (not_le.mpr h)
  · cases neg
    · rw [signFactor, if_neg (by simp), one_mul] at h
      rw [hbig.mp h]; rfl
    · rw [signFactor, if_pos rfl] at h; linarith
  · cases neg
    · rw [signFactor, if_neg (by simp), one_mul] at h; linarith
    · rw [signFactor, if_pos rfl] at h
      rw [hbig.mp (by linarith)]; rfl

/-- The magnitude of 1.0, as the real unit. -/
theorem unitsPerOne_cast : (unitsPerOne : ℝ) = realUnit := by
  unfold unitsPerOne realUnit
  generalize 1074 = n
  push_cast
  rfl

theorem unitsPerOne_pos : 0 < unitsPerOne := by
  unfold unitsPerOne
  generalize 1074 = n
  positivity

theorem signFactor_bne (p q : Bool) : signFactor (p != q) = signFactor p * signFactor q := by
  cases p <;> cases q <;> simp [signFactor]

/-- `fneg` negates the value (R128). -/
theorem fvalue_fneg (a : F64) : fvalue (fneg a) = -fvalue a := by
  rw [fvalue_eq, fvalue_eq, fsign_fneg, fbody_fneg]
  cases fsign a <;> simp [signFactor]

/-- A whole number of units, rounded with its own sign. -/
theorem roundsOnce_int (n : Int) (neg : Bool) (h : n = 0 ∨ neg = decide (n < 0)) :
    RoundsOnce ((n : ℝ) / realUnit) (packF64 neg (roundBody n.natAbs 1)) := by
  have hround := roundsOnce_pack neg n.natAbs (den := 1) (by omega)
  have hval : signFactor neg * (n.natAbs : ℝ) = n := by
    rw [Nat.cast_natAbs, Int.cast_abs]
    rcases h with rfl | rfl
    · simp
    · by_cases hn : n < 0
      · have : (n : ℝ) < 0 := by exact_mod_cast hn
        simp [signFactor, hn, abs_of_neg this]
      · have : (0 : ℝ) ≤ n := by exact_mod_cast not_lt.mp hn
        simp [signFactor, hn, abs_of_nonneg this]
  rw [Nat.cast_one, div_one, ← mul_div_assoc, hval] at hround
  exact hround

/-- `fdiv` on finite data with a divisor that is not a zero is the exact quotient rounded once. -/
theorem fdiv_of_finite {a b : F64} (ha : isFinite a = true) (hb : isFinite b = true) (hz : isZero b = false) :
    fdiv a b = packF64 (fsign a != fsign b) (roundBody (fmag a * unitsPerOne) (fmag b)) := by
  simp [fdiv, isFinite_not_special ha, isFinite_not_special hb, hz]

/-- A value strictly between two even multiples of `2^e`, at least 2^56 of them, rounds like the odd multiple between them:
no datum and no middle of two neighbours lies that close. -/
theorem nearest_of_between {root e : Nat} {exact : ℝ} (hroot : 2 ^ 55 ≤ root)
    (hlow : (2 * root : ℝ) * 2 ^ e < exact) (hhigh : exact < (2 * root + 2 : ℝ) * 2 ^ e)
    (hfin : roundBody ((2 * root + 1) * 2 ^ e) 1 < infBody) (c : Nat) :
    c = roundBody ((2 * root + 1) * 2 ^ e) 1 ∨
      |(bodyMag (roundBody ((2 * root + 1) * 2 ^ e) 1) : ℝ) - exact| < |(bodyMag c : ℝ) - exact| := by
  obtain ⟨b, hb⟩ : ∃ b, roundBody ((2 * root + 1) * 2 ^ e) 1 = b := ⟨_, rfl⟩
  have hbase : (e + 4) * 2 ^ 52 + 2 ^ 52 ≤ b := by
    by_contra hlt
    have hmag : bodyMag ((e + 4) * 2 ^ 52 + 2 ^ 52) = 2 ^ 52 * 2 ^ (e + 4) :=
      bodyMag_steps (by norm_num) (.inr (Nat.le_refl _))
    have hval : bodyMag ((e + 4) * 2 ^ 52 + 2 ^ 52) * 1 ≤ (2 * root + 1) * 2 ^ e := by
      rw [hmag, Nat.mul_one, show 2 ^ 52 * 2 ^ (e + 4) = (2 * 2 ^ 55) * 2 ^ e by rw [pow_add]; ring]
      exact Nat.mul_le_mul_right _ (by omega)
    have hinf : (e + 4) * 2 ^ 52 + 2 ^ 52 ≤ infBody := by
      by_contra hbig
      have h1 := le_roundBody_of_le (b := infBody) (num := (2 * root + 1) * 2 ^ e) (den := 1) Nat.one_pos (Nat.le_refl _)
        (le_trans (Nat.mul_le_mul_right 1 (bodyMag_strictMono.monotone (Nat.le_of_lt (Nat.lt_of_not_le hbig)))) hval)
      exact absurd hfin (Nat.not_lt.mpr h1)
    have := le_roundBody_of_le Nat.one_pos hinf hval
    rw [hb] at this
    exact hlt this
  have hnear := fun d => (roundBody_nearest ((2 * root + 1) * 2 ^ e) Nat.one_pos hfin d).1
  simp only [hb] at hnear ⊢
  clear hfin
  have hE : (0 : ℝ) < 2 ^ e := by positivity
  have hdvd : ∀ d, b ≤ d + 1 → 4 * 2 ^ e ∣ bodyMag d := fun d hd =>
    Dvd.dvd.trans (Dvd.intro 2 (by rw [pow_add]; ring)) (dvd_bodyMag (e := e + 3)
      (Nat.le_of_lt_succ (lt_of_lt_of_le (Nat.lt_of_lt_of_le (Nat.lt_add_of_pos_right (by norm_num)) hbase) hd)))
  have hmiss : ∀ d, (missBy ((2 * root + 1) * 2 ^ e) 1 d : ℝ) = |(bodyMag d : ℝ) - (2 * root + 1) * 2 ^ e| := fun d => by
    have := abs_sub_eq_missBy ((2 * root + 1) * 2 ^ e) d Nat.one_pos
    rw [Nat.cast_one, div_one, div_one] at this
    rw [← this]
    push_cast
    rfl
  have hnear' : ∀ d, |(bodyMag b : ℝ) - (2 * root + 1) * 2 ^ e| ≤ |(bodyMag d : ℝ) - (2 * root + 1) * 2 ^ e| := fun d => by
    rw [← hmiss, ← hmiss]
    exact_mod_cast hnear d
  obtain ⟨x, hx⟩ := hdvd b (by omega)
  have hxr : (bodyMag b : ℝ) = 4 * 2 ^ e * x := by rw [hx]; push_cast; ring
  rcases Nat.lt_trichotomy c b with hc | hc | hc
  · right
    obtain ⟨y, hy⟩ := hdvd (b - 1) (by omega)
    have hyr : (bodyMag (b - 1) : ℝ) = 4 * 2 ^ e * y := by rw [hy]; push_cast; ring
    have hlt : (bodyMag (b - 1) : ℝ) < bodyMag b := by exact_mod_cast bodyMag_strictMono (show b - 1 < b by omega)
    have hle : (bodyMag c : ℝ) ≤ bodyMag (b - 1) := by exact_mod_cast bodyMag_strictMono.monotone (show c ≤ b - 1 by omega)
    have hmid : (bodyMag b : ℝ) + bodyMag (b - 1) ≤ 2 * ((2 * root + 1) * 2 ^ e) := by
      by_contra hgt
      have h1 := hnear' (b - 1)
      rw [← sq_le_sq] at h1
      nlinarith
    have hxy : x + y ≤ root := by
      by_contra hgt
      have h1 : ((root + 1 : ℕ) : ℝ) ≤ ((x + y : ℕ) : ℝ) := by exact_mod_cast Nat.lt_of_not_le hgt
      push_cast at h1
      rw [hxr, hyr] at hmid
      nlinarith
    have hxyr : (x : ℝ) + y ≤ root := by exact_mod_cast hxy
    have hS : (bodyMag b : ℝ) + bodyMag (b - 1) < 2 * exact := by rw [hxr, hyr]; nlinarith
    rw [← sq_lt_sq]
    nlinarith
  · exact .inl hc
  · right
    obtain ⟨y, hy⟩ := hdvd (b + 1) (by omega)
    have hyr : (bodyMag (b + 1) : ℝ) = 4 * 2 ^ e * y := by rw [hy]; push_cast; ring
    have hlt : (bodyMag b : ℝ) < bodyMag (b + 1) := by exact_mod_cast bodyMag_strictMono (Nat.lt_succ_self b)
    have hle : (bodyMag (b + 1) : ℝ) ≤ bodyMag c := by exact_mod_cast bodyMag_strictMono.monotone (show b + 1 ≤ c by omega)
    have hmid : 2 * ((2 * root + 1) * 2 ^ e) ≤ (bodyMag b : ℝ) + bodyMag (b + 1) := by
      by_contra hgt
      have h1 := hnear' (b + 1)
      rw [← sq_le_sq] at h1
      nlinarith
    have hxy : root + 1 ≤ x + y := by
      by_contra hgt
      have h1 : ((x + y : ℕ) : ℝ) ≤ (root : ℝ) := by exact_mod_cast Nat.le_of_lt_succ (Nat.lt_of_not_le hgt)
      push_cast at h1
      rw [hxr, hyr] at hmid
      nlinarith
    have hxyr : (root : ℝ) + 1 ≤ x + y := by exact_mod_cast hxy
    have hS : 2 * exact < (bodyMag b : ℝ) + bodyMag (b + 1) := by rw [hxr, hyr]; nlinarith
    rw [← sq_lt_sq]
    nlinarith

end Sys2Proof.Machine
end

