-- ==== Sys2Proof/Laws/Roots.lean ====
section
/-! SUPPORT. The square root: the mantissa and the exponent `fsqrtFinite` works on, the exact root in units, and that its body is
finite. -/

namespace Sys2Proof.Machine

/-- The exact root of `m * 2^k` parts of `2^n`, written with `m * 2^t` under the root. -/
theorem sqrt_rescale (m k n t e : Nat) (h : 2 + t + 2 * e = k + n) :
    Real.sqrt ((m * 2 ^ k : ℕ) / 2 ^ n) = 2 * Real.sqrt (m * 2 ^ t : ℕ) * 2 ^ e / 2 ^ n := by
  have hr : Real.sqrt (m * 2 ^ t : ℕ) * Real.sqrt (m * 2 ^ t : ℕ) = (m * 2 ^ t : ℕ) := Real.mul_self_sqrt (by positivity)
  rw [Real.sqrt_eq_iff_mul_self_eq (by positivity) (by positivity), div_mul_div_comm,
    div_eq_div_iff (by positivity) (by positivity)]
  have hp : (4 : ℝ) * 2 ^ t * (2 ^ e * 2 ^ e) = 2 ^ k * 2 ^ n := by
    rw [show (4 : ℝ) = 2 ^ 2 by norm_num, ← pow_add, ← pow_add, ← pow_add, ← pow_add, ← h]
    congr 1
    omega
  rw [show 2 * Real.sqrt (m * 2 ^ t : ℕ) * 2 ^ e * (2 * Real.sqrt (m * 2 ^ t : ℕ) * 2 ^ e) =
    4 * (Real.sqrt (m * 2 ^ t : ℕ) * Real.sqrt (m * 2 ^ t : ℕ)) * (2 ^ e * 2 ^ e) by ring, hr]
  push_cast
  rw [show 4 * ((m : ℝ) * 2 ^ t) * (2 ^ e * 2 ^ e) * 2 ^ n = m * (4 * 2 ^ t * (2 ^ e * 2 ^ e)) * 2 ^ n by ring, hp]
  ring

/-- The number under the root of a finite datum that is not a zero: below `4^83` and at least `2^112`, so that its integer root
has 57 bits or more; the datum's exact root in units; and the datum `fsqrtFinite` gives. -/
theorem fsqrtFinite_parts {a : F64} (hz : isZero a = false) :
    ∃ n e : Nat, e < 1504 ∧ 2 ^ 112 ≤ n ∧ n < 4 ^ 83 ∧
      Real.sqrt (bodyMag (fbody a) / realUnit) = 2 * Real.sqrt n * 2 ^ e / realUnit ∧
      fsqrtFinite a = packF64 false
        (roundBody ((2 * natSqrt 83 n + if natSqrt 83 n * natSqrt 83 n = n then 0 else 1) * 2 ^ e) 1) := by
  have hf : ffrac a < 2 ^ 52 := by rw [ffrac_eq]; exact Nat.mod_lt _ (by norm_num)
  have he : fexp a < 2048 := (a.extractLsb' 52 11).isLt
  obtain ⟨m, hm⟩ : ∃ m, (if fexp a = 0 then ffrac a else 2 ^ 52 + ffrac a) = m := ⟨_, rfl⟩
  have hpos : 0 < m := by
    rw [← hm]
    split
    · rename_i h
      rcases Nat.eq_zero_or_pos (ffrac a) with h0 | h0
      · simp [isZero, h, h0] at hz
      · exact h0
    · positivity
  have hlt : m < 2 ^ 53 := by rw [← hm]; split <;> omega
  have hmag : bodyMag (fbody a) = m * 2 ^ (fexp a - 1) := by
    rw [← fmag_eq_bodyMag, ← hm]
    unfold fmag
    split
    · rename_i h; simp [h]
    · rfl
  refine ⟨m * 2 ^ (112 + (fexp a - 1) % 2), (fexp a - 1 - (fexp a - 1) % 2) / 2 + 480, by omega, ?_, ?_, ?_, ?_⟩
  · exact le_trans (Nat.pow_le_pow_right Nat.zero_lt_two (Nat.le_add_right _ _)) (Nat.le_mul_of_pos_left _ hpos)
  · have h1 : m * 2 ^ (112 + (fexp a - 1) % 2) < 2 ^ 53 * 2 ^ 113 :=
      Nat.mul_lt_mul_of_lt_of_le hlt (Nat.pow_le_pow_right Nat.zero_lt_two (by omega)) (Nat.pow_pos Nat.zero_lt_two)
    exact lt_of_lt_of_eq h1 (by norm_num)
  · rw [hmag]
    exact sqrt_rescale m _ 1074 _ _ (by omega)
  · unfold fsqrtFinite
    simp only [hm]

/-- The body of a rounded root is finite. -/
theorem roundBody_root_lt {r e : Nat} (hr : r < 2 ^ 85) (he : e < 1504) : roundBody (r * 2 ^ e) 1 < infBody := by
  refine lt_of_le_of_ne (roundBody_le _ _) fun h => ?_
  rw [roundBody_eq_infBody_iff _ Nat.one_pos, Nat.mul_one] at h
  have hgen : ∀ N, 1590 ≤ N → r * 2 ^ e < (2 ^ 54 - 1) * 2 ^ N := by
    intro N hN
    have h1 : r * 2 ^ e < 2 ^ 85 * 2 ^ e := Nat.mul_lt_mul_of_pos_right hr (Nat.pow_pos Nat.zero_lt_two)
    have h2 : 2 ^ 85 * 2 ^ e ≤ 2 ^ N := by
      rw [← pow_add]
      exact Nat.pow_le_pow_right Nat.zero_lt_two (by omega)
    exact lt_of_lt_of_le h1 (le_trans h2 (Nat.le_mul_of_pos_left _ (by norm_num)))
  exact absurd h (Nat.not_le.mpr (hgen 2044 (by norm_num)))

end Sys2Proof.Machine
end

