-- ==== Sys2Proof/Laws/Specials.lean ====
section
/-! SUPPORT. The values that are not ordinary: infinities, zeros and NaNs under the operations, the comparisons as an order on
the values, the exact conversion of small integers, and the range and the special results of the elementary units. -/

namespace Sys2Proof.Machine

theorem finf_facts (p : Bool) :
    isNaN (finf p) = false ∧ isInf (finf p) = true ∧ isZero (finf p) = false ∧ fsign (finf p) = p ∧ isFinite (finf p) = false := by
  cases p <;> decide

theorem fneg_finf (p : Bool) : fneg (finf p) = finf (!p) := by cases p <;> decide

/-- A zero is neither a NaN nor an infinity. -/
theorem isZero_not_special {z : F64} (h : isZero z = true) : isNaN z = false ∧ isInf z = false :=
  isFinite_not_special (isFinite_of_isZero h)

/-- A datum is finite, a NaN, or one of the two infinities. -/
theorem finite_nan_or_finf (x : F64) : isFinite x = true ∨ isNaN x = true ∨ ∃ p, x = finf p := by
  rcases float_cases x with h | h | h
  · exact .inl h
  · rw [isInf_iff] at h
    exact .inr (.inr ⟨fsign x, by rw [finf, ← h, packF64_fsign_fbody]⟩)
  · exact .inr (.inl h)

/-- A datum that is not a NaN is finite or an infinity. -/
theorem isFinite_or_isInf {x : F64} (h : isNaN x = false) : isFinite x = true ∨ isInf x = true := by
  rcases float_cases x with hf | hi | hn
  · exact .inl hf
  · exact .inr hi
  · rw [h] at hn; cases hn

/-- A datum is an infinity exactly when it is the infinity of its sign. -/
theorem eq_finf_of_isInf {x : F64} (h : isInf x = true) : x = finf (fsign x) := by
  rw [isInf_iff] at h
  rw [finf, ← h, packF64_fsign_fbody]

/-! A NaN or an infinity is never lost: what is not finite stays so under sums, and under products with finite data. -/

theorem isFinite_finf (p : Bool) : isFinite (finf p) = false := (finf_facts p).2.2.2.2

theorem not_finite_of_isNaN {x : F64} (h : isNaN x = true) : isFinite x = false :=
  Bool.eq_false_iff.mpr fun hf => by rw [(isFinite_not_special hf).1] at h; cases h

theorem not_finite_nanResult (op : Config.FloatOp) (a b : F64) : isFinite (nanResult op a b) = false :=
  not_finite_of_isNaN (isNaN_nanResult op a b)

/-- `fadd` with a first operand that is not finite (R124, R125). -/
theorem not_finite_fadd_left {a : F64} (b : F64) (h : isFinite a = false) : isFinite (fadd a b) = false := by
  rcases float_cases a with hf | hi | hn
  · rw [h] at hf; cases hf
  · unfold fadd
    simp only [hi, if_true]
    split
    · exact not_finite_nanResult ..
    · split
      · exact not_finite_nanResult ..
      · exact h
  · exact not_finite_of_isNaN (isNaN_fadd_left _ hn)

/-- `fadd` with a second operand that is not finite (R124, R125). -/
theorem not_finite_fadd_right (a : F64) {b : F64} (h : isFinite b = false) : isFinite (fadd a b) = false := by
  cases ha : isFinite a with
  | false => exact not_finite_fadd_left b ha
  | true =>
    rcases float_cases b with hf | hi | hn
    · rw [h] at hf; cases hf
    · obtain ⟨han, hai⟩ := isFinite_not_special ha
      unfold fadd
      simp only [hi, hai, if_true, Bool.false_eq_true, if_false]
      split
      · exact not_finite_nanResult ..
      · exact h
    · exact not_finite_of_isNaN (isNaN_fadd_right _ hn)

/-- `fmul` with a first operand that is not finite (R124, R125). -/
theorem not_finite_fmul_left {a : F64} (b : F64) (h : isFinite a = false) : isFinite (fmul a b) = false := by
  rcases float_cases a with hf | hi | hn
  · rw [h] at hf; cases hf
  · unfold fmul
    simp only [hi, Bool.true_or, if_true]
    split
    · exact not_finite_nanResult ..
    · split
      · exact not_finite_nanResult ..
      · exact isFinite_finf _
  · exact not_finite_of_isNaN (isNaN_fmul_left _ hn)

/-- A complex product whose first factor has a part that is not finite has no finite part (R152: no infinity is recovered). -/
theorem not_finite_cmul {z : Cplx} (w : Cplx) (h : isFinite z.re = false ∨ isFinite z.im = false) :
    isFinite (cmul z w).re = false ∧ isFinite (cmul z w).im = false := by
  unfold cmul fsub
  rcases h with h | h
  · exact ⟨not_finite_fadd_left _ (not_finite_fmul_left _ h), not_finite_fadd_left _ (not_finite_fmul_left _ h)⟩
  · refine ⟨not_finite_fadd_right _ ?_, not_finite_fadd_right _ (not_finite_fmul_left _ h)⟩
    rw [isFinite_fneg]
    exact not_finite_fmul_left _ h

/-! Comparisons. -/

theorem fgt_iff {a b : F64} (ha : isNaN a = false) (hb : isNaN b = false) : fgt a b = true ↔ fkey b < fkey a := by
  simp [fgt, ha, hb]

theorem feq_iff {a b : F64} (ha : isNaN a = false) (hb : isNaN b = false) : feq a b = true ↔ fkey a = fkey b := by
  simp [feq, ha, hb]

/-- The order of the bodies with their signs is the order of the integers they stand for. -/
theorem fkey_lt_iff {a b : F64} : fkey b < fkey a ↔ fint b < fint a := by
  unfold fkey fint
  rw [fmag_eq_bodyMag, fmag_eq_bodyMag]
  have hm := bodyMag_strictMono.lt_iff_lt (a := fbody a) (b := fbody b)
  have hm2 := bodyMag_strictMono.lt_iff_lt (a := fbody b) (b := fbody a)
  have h0 : ∀ n, 0 < bodyMag n ↔ 0 < n := fun n => by
    have := bodyMag_strictMono.lt_iff_lt (a := 0) (b := n)
    rwa [show bodyMag 0 = 0 by decide] at this
  have ha := h0 (fbody a)
  have hb := h0 (fbody b)
  generalize bodyMag (fbody a) = A at *
  generalize bodyMag (fbody b) = B at *
  cases fsign a <;> cases fsign b <;> simp <;> omega

/-- The order of the bodies with their signs is the order of the values. -/
theorem fvalue_lt_iff {a b : F64} : fvalue b < fvalue a ↔ fkey b < fkey a := by
  rw [fkey_lt_iff]
  unfold fvalue
  rw [div_lt_div_iff_of_pos_right (by positivity)]
  exact Int.cast_lt

theorem fvalue_le_iff {a b : F64} : fvalue a ≤ fvalue b ↔ fkey a ≤ fkey b := by
  rw [← not_lt, ← not_lt, fvalue_lt_iff]

theorem fkey_finf (p : Bool) : fkey (finf p) = if p then -(infBody : Int) else infBody := by cases p <;> decide

/-- Finite data lie strictly between the infinities. -/
theorem fkey_between {x : F64} (h : isFinite x = true) : -(infBody : Int) < fkey x ∧ fkey x < infBody := by
  rw [isFinite_iff] at h
  unfold fkey
  generalize infBody = B at *
  split <;> omega

theorem fkey_zero {z : F64} (h : isZero z = true) : fkey z = 0 := by
  rw [isZero_iff] at h
  unfold fkey
  rw [h]
  split <;> rfl

/-- What exceeds `+0.0` is not a NaN and carries no sign. -/
theorem fgt_zero {x : F64} (h : fgt x 0#64 = true) : isNaN x = false ∧ fsign x = false ∧ isZero x = false := by
  have hn : isNaN x = false := by
    by_contra hc
    simp [fgt, Bool.eq_true_of_not_eq_false hc] at h
  rw [fgt_iff hn (by decide), fkey_zero (by decide)] at h
  refine ⟨hn, ?_, ?_⟩
  · by_contra hc
    rw [fkey, if_pos (Bool.eq_true_of_not_eq_false hc)] at h
    omega
  · by_contra hc
    rw [fkey_zero (Bool.eq_true_of_not_eq_false hc)] at h
    omega

/-- A datum without sign exceeds nothing below `+0.0`: no zero and no signed datum exceeds `+0.0`. -/
theorem not_fgt_zero {x : F64} (h : fsign x = true ∨ isZero x = true) : fgt x 0#64 = false := by
  by_contra hc
  obtain ⟨-, hs, hz⟩ := fgt_zero (Bool.eq_true_of_not_eq_false hc)
  rcases h with h | h
  · rw [hs] at h; cases h
  · rw [hz] at h; cases h

/-! Signs of results. -/

theorem fsign_packF64_round (neg : Bool) (num den : Nat) : fsign (packF64 neg (roundBody num den)) = neg :=
  fsign_packF64 neg (roundBody_lt num den)

theorem isNaN_packF64_round (neg : Bool) (num den : Nat) : isNaN (packF64 neg (roundBody num den)) = false := by
  rw [Bool.eq_false_iff, Ne, isNaN_iff, fbody_packF64 neg (roundBody_lt num den)]
  exact Nat.not_lt.mpr (roundBody_le num den)

/-- A square is a NaN exactly when its root is, and carries no sign. -/
theorem fmul_self_cases (x : F64) :
    (isNaN x = true ∧ isNaN (fmul x x) = true) ∨ (isNaN x = false ∧ isNaN (fmul x x) = false ∧ fsign (fmul x x) = false) := by
  rcases finite_nan_or_finf x with h | h | ⟨p, rfl⟩
  · obtain ⟨hn, -⟩ := isFinite_not_special h
    rw [fmul_of_finite h h, bne_self_eq_false]
    exact .inr ⟨hn, isNaN_packF64_round _ _ _, fsign_packF64_round _ _ _⟩
  · exact .inl ⟨h, isNaN_fmul_left x h⟩
  · refine .inr ⟨(finf_facts p).1, ?_⟩
    cases p <;> decide

/-- The square of an infinity is `+inf`. -/
theorem fmul_self_finf (p : Bool) : fmul (finf p) (finf p) = finf false := by cases p <;> decide

/-- A sum of two data without sign is a NaN exactly when one of them is, and carries no sign. -/
theorem fadd_unsigned {a b : F64} (ha : isNaN a = false) (hb : isNaN b = false) (sa : fsign a = false) (sb : fsign b = false) :
    isNaN (fadd a b) = false ∧ fsign (fadd a b) = false := by
  rcases isFinite_or_isInf ha with fa | ia
  · rcases isFinite_or_isInf hb with fb | ib
    · rw [fadd_of_finite fa fb]
      unfold faddFinite
      refine ⟨isNaN_packF64_round _ _ _, ?_⟩
      rw [fsign_packF64_round]
      have hpos : 0 ≤ fint a + fint b := by unfold fint; rw [sa, sb]; simp; omega
      split
      · rw [sa]; rfl
      · exact decide_eq_false (not_lt.mpr hpos)
    · obtain ⟨hn, hi⟩ := isFinite_not_special fa
      simp [fadd, ha, hb, hi, ib, sb]
  · simp [fadd, ha, hb, ia, sa, sb]

/-- An infinite summand makes a sum of data without sign `+inf`. -/
theorem fadd_unsigned_inf {a b : F64} (ha : isNaN a = false) (hb : isNaN b = false) (sa : fsign a = false) (sb : fsign b = false)
    (h : isInf a = true ∨ isInf b = true) : fadd a b = finf false := by
  by_cases ia : isInf a = true
  · have := eq_finf_of_isInf ia
    rw [sa] at this
    simp [fadd, ha, hb, ia, sa, sb, ← this]
  · have ib := h.resolve_left ia
    have := eq_finf_of_isInf ib
    rw [sb] at this
    simp [fadd, ha, hb, ia, ib, ← this]

/-! The conversion of integers. -/

@[simp] theorem ffloat_zero : ffloat 0 = 0#64 := by decide +kernel

theorem fsign_ffloat (n : Int) : fsign (ffloat n) = decide (n < 0) := fsign_packF64 _ (roundBody_lt _ _)

/-- The value of `float` of an integer below 2^53 in magnitude: the integer itself. -/
theorem fvalue_ffloat {n : Int} (h : n.natAbs < 2 ^ 53) : isFinite (ffloat n) = true ∧ fvalue (ffloat n) = n := by
  have hex : ∃ b, b < infBody ∧ bodyMag b = n.natAbs * unitsPerOne := by
    rcases Nat.eq_zero_or_pos n.natAbs with h0 | hpos
    · exact ⟨0, by decide, by rw [h0]; decide +kernel⟩
    · -- shift the number up to 53 bits
      have hlog := Nat.log2_self_le (Nat.pos_iff_ne_zero.mp hpos)
      have hlt : n.natAbs < 2 ^ (n.natAbs.log2 + 1) := Nat.lt_log2_self
      generalize n.natAbs = m at *
      generalize hk : m.log2 = k at *
      have hk53 : k < 53 := by
        by_contra hc
        have : 2 ^ 53 ≤ 2 ^ k := Nat.pow_le_pow_right (by omega) (by omega)
        omega
      have hsplit : (2 : Nat) ^ 52 = 2 ^ k * 2 ^ (52 - k) := by rw [← pow_add]; congr 1; omega
      have hlow : 2 ^ 52 ≤ m * 2 ^ (52 - k) := by rw [hsplit]; exact Nat.mul_le_mul_right _ hlog
      have hhigh : m * 2 ^ (52 - k) < 2 ^ 53 := by
        have : (2 : Nat) ^ 53 = 2 ^ (k + 1) * 2 ^ (52 - k) := by rw [← pow_add]; congr 1; omega
        rw [this]
        exact Nat.mul_lt_mul_of_pos_right hlt (Nat.two_pow_pos _)
      refine ⟨(1022 + k) * 2 ^ 52 + m * 2 ^ (52 - k), ?_, ?_⟩
      · have hi : infBody = 2047 * 2 ^ 52 := rfl
        rw [hi]
        have : (1022 + k) * 2 ^ 52 ≤ 1074 * 2 ^ 52 := Nat.mul_le_mul_right _ (by omega)
        generalize (2 : Nat) ^ (52 - k) = w at *
        omega
      · rw [bodyMag_steps (Nat.le_of_lt hhigh) (.inr hlow), mul_assoc, ← pow_add, unitsPerOne]
        congr 2
        omega
  obtain ⟨b, hb, hmag⟩ := hex
  have hround : ffloat n = packF64 (decide (n < 0)) b := by
    unfold ffloat
    have := roundBody_bodyMag hb Nat.one_pos
    rw [Nat.mul_one, hmag] at this
    rw [this]
  have hlt : b < 2 ^ 63 := lt_trans hb infBody_lt
  refine ⟨by rw [hround, isFinite_iff, fbody_packF64 _ hlt]; exact hb, ?_⟩
  rw [hround, fvalue_packF64 _ hlt, hmag]
  push_cast
  rw [unitsPerOne_cast, mul_div_assoc, div_self realUnit_pos.ne', mul_one]
  unfold signFactor
  rcases lt_or_ge n 0 with hn | hn
  · rw [decide_eq_true hn, ← Int.cast_natCast, Int.ofNat_natAbs_of_nonpos (le_of_lt hn)]
    simp
  · rw [decide_eq_false (not_lt.mpr hn), ← Int.cast_natCast, Int.natAbs_of_nonneg hn]
    simp

/-! The elementary units. -/

theorem isNaN_asNaN (y : F64) : isNaN (asNaN y) = true := by
  unfold asNaN
  split
  · assumption
  · exact isNaN_quietNaN y

theorem fabs_facts (x : F64) : fbody (fabs x) = fbody x ∧ fsign (fabs x) = false ∧ fabs (fneg x) = fabs x := by
  refine ⟨?_, ?_, ?_⟩
  · rw [fbody_eq, fbody_eq, fabs, BitVec.toNat_and]
    have : (0x7FFFFFFFFFFFFFFF#64).toNat = 2 ^ 63 - 1 := by decide
    rw [this, Nat.and_two_pow_sub_one_eq_mod]
    simp
  · simp [fsign, fabs]
  · unfold fabs fneg
    apply BitVec.eq_of_getLsbD_eq
    intro i hi
    interval_cases i <;> simp

/-- What `inUnitRange` accepts is finite and lies in `[-1.0, 1.0]`. -/
theorem abs_fvalue_le_one {y : F64} (h : inUnitRange y = true) : isFinite y = true ∧ |fvalue y| ≤ 1 := by
  simp only [inUnitRange, Bool.and_eq_true, decide_eq_true_eq] at h
  refine ⟨h.1, ?_⟩
  rw [fvalue_eq, abs_mul, abs_signFactor, one_mul, abs_of_nonneg (div_nonneg (Nat.cast_nonneg _) realUnit_pos.le),
    div_le_one realUnit_pos, ← unitsPerOne_cast, ← fmag_eq_bodyMag]
  exact_mod_cast h.2

/-- The cosine of a finite argument passes `inUnitRange`. -/
theorem inUnitRange_cosUnit {x : F64} (h : isFinite x = true) : inUnitRange (cosUnit x) = true := by
  have hone : inUnitRange fone = true := by decide +kernel
  unfold cosUnit
  simp only [h, if_true]
  split
  · exact hone
  · split
    · assumption
    · exact hone

/-- The sine of a finite argument passes `inUnitRange`. -/
theorem inUnitRange_sinUnit {x : F64} (h : isFinite x = true) : inUnitRange (sinUnit x) = true := by
  have hfneg : ∀ y, inUnitRange y = true → inUnitRange (fneg y) = true := fun y hy => by
    simp only [inUnitRange, Bool.and_eq_true, isFinite_fneg, fmag_eq_bodyMag, fbody_fneg] at hy ⊢
    exact hy
  have hpos : ∀ y, isFinite y = true → inUnitRange (sinPositive y) = true := fun y hy => by
    unfold sinPositive
    simp only [hy, if_true]
    split
    · assumption
    · decide +kernel
  unfold sinUnit
  split
  · rename_i hz
    simp [inUnitRange, h, fmag_of_isZero hz]
  · rw [(isFinite_not_special h).1]
    simp only [Bool.false_eq_true, if_false]
    split
    · refine hfneg _ (hpos _ ?_)
      rw [isFinite_iff, (fabs_facts x).1, ← isFinite_iff]
      exact h
    · exact hpos x h

theorem isFinite_cosUnit {x : F64} (h : isFinite x = true) : isFinite (cosUnit x) = true :=
  (abs_fvalue_le_one (inUnitRange_cosUnit h)).1

theorem isFinite_sinUnit {x : F64} (h : isFinite x = true) : isFinite (sinUnit x) = true :=
  (abs_fvalue_le_one (inUnitRange_sinUnit h)).1

theorem cosUnit_of_isZero {x : F64} (h : isZero x = true) : cosUnit x = fone := by simp [cosUnit, h]

theorem sinUnit_of_isZero {x : F64} (h : isZero x = true) : sinUnit x = x := by simp [sinUnit, h]

/-- The cosine does not read the sign of its argument. -/
theorem cosUnit_fneg (x : F64) : cosUnit (fneg x) = cosUnit x := by
  unfold cosUnit
  rw [(fabs_facts x).2.2, isZero_fneg, isFinite_fneg]

/-- The sine is odd in every argument that is not a NaN. -/
theorem sinUnit_fneg {x : F64} (h : isNaN x = false) : sinUnit (fneg x) = fneg (sinUnit x) := by
  have habs : ∀ y : F64, fsign y = false → fabs y = y := fun y hy => by
    rw [← packF64_fsign_fbody (fabs y), (fabs_facts y).1, (fabs_facts y).2.1, ← hy, packF64_fsign_fbody]
  have hneg : fneg (fneg x) = x := by simp [fneg]
  unfold sinUnit
  rw [isZero_fneg, isNaN_fneg, h, fsign_fneg, (fabs_facts x).2.2]
  by_cases hz : isZero x = true
  · simp [hz]
  · simp only [hz, if_false, Bool.false_eq_true]
    cases hs : fsign x
    · simp [habs x hs]
    · have := habs (fneg x) (by rw [fsign_fneg, hs]; rfl)
      rw [(fabs_facts x).2.2] at this
      simp [this, fneg]

end Sys2Proof.Machine
end

