-- ==== Sys2Proof/Laws/Transform.lean ====
section
/-! SUPPORT. What the transform needs of its twiddle factors: they are finite, so that a zero sample contributes signed zeros,
and an accumulator that is no negative zero keeps its value under them. -/

namespace Sys2Proof.Machine

theorem fmag_ffloat {n : Int} (h : n.natAbs < 2 ^ 53) : fmag (ffloat n) = n.natAbs * unitsPerOne := by
  obtain ⟨hf, hv⟩ := fvalue_ffloat h
  have hr : (fint (ffloat n) : ℝ) = (n * unitsPerOne : Int) := by
    unfold fvalue at hv
    have hu : (2 : ℝ) ^ (1074 : ℕ) = (unitsPerOne : ℝ) := by unfold unitsPerOne; rw [Nat.cast_pow, Nat.cast_ofNat]
    have hpos : (0 : ℝ) < unitsPerOne := Nat.cast_pos.mpr unitsPerOne_pos
    rw [hu, div_eq_iff hpos.ne'] at hv
    rw [hv]
    push_cast
    rfl
  have hi : fint (ffloat n) = n * unitsPerOne := by exact_mod_cast hr
  rw [← natAbs_fint, hi, Int.natAbs_mul, Int.natAbs_natCast]

/-- A product of finite data whose exact value does not exceed a magnitude does not exceed it after rounding. -/
theorem fbody_fmul_le {a b : F64} {c : Nat} (ha : isFinite a = true) (hb : isFinite b = true)
    (h : fmag a * fmag b ≤ bodyMag c * unitsPerOne) : fbody (fmul a b) ≤ c := by
  rw [fmul_of_finite ha hb, fbody_packF64 _ (roundBody_lt _ _)]
  exact roundBody_le_of_le unitsPerOne_pos h

/-- A quotient by 512 is no larger than what is divided. -/
theorem fbody_fdiv_512_le {a : F64} (ha : isFinite a = true) : fbody (fdiv a fF512) ≤ fbody a := by
  have hm : fmag fF512 = 512 * unitsPerOne := by decide +kernel
  rw [fdiv_of_finite ha (by decide) (by decide), fbody_packF64 _ (roundBody_lt _ _)]
  refine roundBody_le_of_le (by rw [hm]; exact Nat.mul_pos (by decide) unitsPerOne_pos) ?_
  rw [hm, fmag_eq_bodyMag]
  exact Nat.mul_le_mul_left _ (Nat.le_mul_of_pos_left _ (by decide))

/-- The angle of every product of two indices is finite (R182: the largest is below 3205). -/
theorem isFinite_twiddleAngle {p : Nat} (h : p ≤ 2 ^ 18) : isFinite (twiddleAngle p) = true := by
  have hp : (p : Int).natAbs < 2 ^ 53 := by rw [Int.natAbs_natCast]; omega
  have hf : isFinite (ffloat (p : Int)) = true := (fvalue_ffloat hp).1
  have hpi : fmag fTWO_PI ≤ 2 ^ 1077 := by decide +kernel
  have hbody : fbody (fmul fTWO_PI (ffloat (p : Int))) ≤ 1043 * 2 ^ 52 + 2 ^ 52 := by
    refine fbody_fmul_le (by decide) hf ?_
    rw [fmag_ffloat hp, Int.natAbs_natCast, ← mul_assoc,
      bodyMag_steps (p := 1043) (m := 2 ^ 52) (Nat.pow_le_pow_right (by decide) (by decide)) (.inr le_rfl), ← pow_add]
    refine Nat.mul_le_mul_right _ (le_trans (Nat.mul_le_mul hpi h) ?_)
    rw [← pow_add]
  have hprod : isFinite (fmul fTWO_PI (ffloat (p : Int))) = true := by
    rw [isFinite_iff]
    exact lt_of_le_of_lt hbody (by decide)
  rw [isFinite_iff]
  exact lt_of_le_of_lt (fbody_fdiv_512_le hprod) ((isFinite_iff _).mp hprod)

/-- Both parts of every twiddle factor are finite. -/
theorem isFinite_twiddle {k t : Nat} (hk : k < 512) (ht : t < 512) :
    isFinite (twiddle k t).re = true ∧ isFinite (twiddle k t).im = true := by
  have h : isFinite (fneg (twiddleAngle (k * t))) = true := by
    rw [isFinite_fneg]
    refine isFinite_twiddleAngle (le_trans (Nat.mul_le_mul (Nat.le_of_lt hk) (Nat.le_of_lt ht)) (by decide))
  have hre := isFinite_cosUnit h
  have him := isFinite_sinUnit h
  simp only [twiddle, cexp]
  exact ⟨hre, him⟩

/-- The twiddle factor of index 0 (R182). -/
theorem twiddle_index_zero (k : Nat) : twiddle k 0 = ⟨fone, 0x8000000000000000#64⟩ := by
  have hang : fneg (twiddleAngle (k * 0)) = 0x8000000000000000#64 := by rw [Nat.mul_zero]; decide +kernel
  have hz : isZero 0x8000000000000000#64 = true := by decide
  simp only [twiddle, cexp, hang, cosUnit_of_isZero hz, sinUnit_of_isZero hz]

/-- The twiddle factor of bin 0 (R182). -/
theorem twiddle_bin_zero (t : Nat) : twiddle 0 t = ⟨fone, 0x8000000000000000#64⟩ := by
  have h : twiddle 0 t = twiddle 0 0 := by unfold twiddle; rw [Nat.zero_mul, Nat.zero_mul]
  rw [h, twiddle_index_zero]

/-- The product of a zero sample and a finite factor: both parts are zeros. -/
theorem cmul_zero_sample {w : Cplx} (hre : isFinite w.re = true) (him : isFinite w.im = true) :
    isZero (cmul ⟨0#64, 0#64⟩ w).re = true ∧ isZero (cmul ⟨0#64, 0#64⟩ w).im = true := by
  have hz : isZero 0#64 = true := by decide
  unfold cmul fsub
  simp only [fmul_zero_left hz hre, fmul_zero_left hz him]
  have h := isZero_packF64_zero
  constructor
  · rw [fadd_zero_zero (h _) (by rw [isZero_fneg]; exact h _)]
    exact h _
  · rw [fadd_zero_zero (h _) (h _)]
    exact h _

/-- An accumulator that is `+0.0`, or finite and no zero, keeps its value when a zero is added. -/
theorem fadd_zero_keeps {x z : F64} (hx : x = 0#64 ∨ (isFinite x = true ∧ isZero x = false)) (hz : isZero z = true) :
    fadd x z = x := by
  rcases hx with rfl | ⟨hf, hn⟩
  · rw [fadd_zero_zero (by decide) hz, show fsign 0#64 = false by decide, Bool.false_and]
    decide
  · exact fadd_zero_right hf hn hz

/-- A running sum whose terms keep the accumulator ends with what it began with. -/
theorem foldl_keeps {α β : Type} {f : β → α → β} {b : β} {l : List α} (h : ∀ a ∈ l, f b a = b) : l.foldl f b = b := by
  induction l with
  | nil => rfl
  | cons a l ih =>
    rw [List.foldl_cons, h a List.mem_cons_self]
    exact ih fun c hc => h c (List.mem_cons_of_mem _ hc)

end Sys2Proof.Machine
end

