-- ==== Sys2Proof/Tests/Slice0.lean ====
section
/-! SUPPORT. The model's own tests: expected results are taken from the spec (95_test_vectors.md, 96_programs.md and the
examples of the rules), never from the model. The second half shows, for every statement that has hypotheses, a concrete
case that meets them. -/

namespace Sys2Proof.Tests

-- One test at a time: every test waits for the kernel, and a thread for each that waits would take its stack's memory.
set_option Elab.async false

open Sys2Proof Sys2Proof.Machine

/-! Well-formedness: an ill-formed term for each check, and the boundary that passes. -/

theorem test_wellFormed_refuses_wide_bin : (Instr.getpwr 65536).wellFormed = false := by decide
theorem test_wellFormed_refuses_wide_peakre_lo : (Instr.peakre 1024 0).wellFormed = false := by decide
theorem test_wellFormed_refuses_wide_peakre_hi : (Instr.peakre 0 1024).wellFormed = false := by decide
theorem test_wellFormed_refuses_wide_peakpw_lo : (Instr.peakpw 1024 0).wellFormed = false := by decide
theorem test_wellFormed_refuses_wide_peakpw_hi : (Instr.peakpw 0 1024).wellFormed = false := by decide
theorem test_wellFormed_takes_the_widest :
    (Instr.getpwr 65535).wellFormed = true ∧ (Instr.peakre 1023 1023).wellFormed = true ∧
      (Instr.peakpw 1023 1023).wellFormed = true := by decide

/-! Decoding, bit by bit from the formats of R91 and the words of 95_test_vectors.md section 2.1. -/

/-- Formats N: the opcode in the low byte, every other bit 0 (V-E1, V-E2, V-E13). -/
theorem test_decode_format_n :
    decode 0b00000000000000000000000000000000#32 = .command .nop ∧
    decode 0b00000000000000000000000000000001#32 = .command .srst ∧
    decode 0b00000000000000000000000000100001#32 = .command .dft ∧
    decode 0b00000000000000000000000000100010#32 = .command .power ∧
    decode 0b00000000000000000000000000101000#32 = .command .melfb ∧
    decode 0b00000000000000000000000000101001#32 = .command .dct ∧
    decode 0b00000000000000000000000000110000#32 = .command .frame ∧
    decode 0b00000000000000000000000000110001#32 = .command .mfcc := by decide

/-- Formats Z3, Z2, Z1: `zb` in 13:12, `za` in 11:10, `zd` in 9:8 (V-E3, V-E4, V-E5, V-E7). -/
theorem test_decode_formats_z :
    decode 0b00000000000000000001001000010000#32 = .command (.cadd .z2 .z0 .z1) ∧
    decode 0b00000000000000000011111100010001#32 = .command (.cmul .z3 .z3 .z3) ∧
    decode 0b00000000000000000000110000010010#32 = .command (.cmag .z3) ∧
    decode 0b00000000000000000000000100010011#32 = .command (.cexp .z1 .z0) := by decide

/-- Format W: `wsel` in 9:8 (V-E10). -/
theorem test_decode_format_w :
    decode 0b00000000000000000000000000100000#32 = .command .loadRect ∧
    decode 0b00000000000000000000000100100000#32 = .command .loadHann ∧
    decode 0b00000000000000000000001000100000#32 = .command .loadHamm := by decide

/-- Formats K and R: `k` in 23:8; `hi` in 27:18, `lo` in 17:8 (V-E15, V-E16, V-E18 to V-E21). -/
theorem test_decode_formats_k_r :
    decode 0b00000000000000000000010100100011#32 = .command (.getpwr 5) ∧
    decode 0b00000000111111111111111100100011#32 = .command (.getpwr 65535) ∧
    decode 0b00000100000000000000000100100100#32 = .command (.peakre 1 256) ∧
    decode 0b00000100000000000000001000100101#32 = .command (.peakpw 2 256) ∧
    decode 0b00001111111111111111111100100100#32 = .command (.peakre 1023 1023) := by decide

/-- The illegal words of V-E6, V-E8, V-E9, V-E11, V-E12, V-E14, V-E17, V-E22 and V-E23. -/
theorem test_decode_illegal :
    decode 0x00000112#32 = .illegal .reservedBit ∧ decode 0x00001113#32 = .illegal .reservedBit ∧
    decode 0x00005210#32 = .illegal .reservedBit ∧ decode 0x00000320#32 = .illegal .reservedWindow ∧
    decode 0x00000420#32 = .illegal .reservedBit ∧ decode 0x00000121#32 = .illegal .reservedBit ∧
    decode 0x01000523#32 = .illegal .reservedBit ∧ decode 0x14000124#32 = .illegal .reservedBit ∧
    decode 0x00000026#32 = .illegal .unassignedOpcode ∧ decode 0xFFFFFFFF#32 = .illegal .unassignedOpcode := by decide

/-- The table's numbering of a word, and a word longer than a command. -/
theorem test_decodeTableWord :
    decodeTableWord 32 0x00001210 = some (.cadd .z2 .z0 .z1) ∧ decodeTableWord 32 0x00000320 = none ∧
      decodeTableWord 64 0 = none := by decide

/-- The pseudo-commands of R99 are the words of V-E18, V-E19 and V-E20. -/
theorem test_pseudo_commands :
    encode frameMaxRe = 0x04000124#32 ∧ encode frameMaxPw = 0x04000225#32 ∧ encode saMaxRe = 0x08000124#32 ∧
      encode (caccCommand .z0 .z0) = 0x00000010#32 := by decide

/-! Small states. -/

/-- What a reading of the next state gives; none where the step stopped. -/
def after {α : Type} (o : Host.Outcome State Fault Refusal) (read : State → α) : Option α :=
  match o with
  | .next t => some (read t)
  | .fault _ => none
  | .refused _ => none

/-- The reset state with two complex registers loaded. -/
def withZ (a b : Cplx) : State := (State.reset.setZ .z0 a).setZ .z1 b

/-- The reset state with elements of `XOUT` loaded, in some stage. -/
def withXout (g : Stage) (bins : List (Nat × Cplx)) : State :=
  bins.foldl (fun s b => s.storeCplxs (0x4000 + 16 * b.1) [b.2]) (State.reset.setStage g)

/-- The reset state with elements of `PWR` loaded, in some stage. -/
def withPwr (g : Stage) (bins : List (Nat × F64)) : State :=
  bins.foldl (fun s b => s.storeF64s (0x1000 + 8 * b.1) [b.2]) (State.reset.setStage g)

/-- The reset state with the word that holds `SMP[0]` and `SMP[1]` loaded, and `SILENCE`. -/
def withSamples (silence : BitVec 16) (w : Word32) : State := { State.reset.storeWord 0x0400 w with silence := silence }

/-- The reset state with one host access pending. -/
def withAccess (a : HostAccess) : State := { State.reset with pending := [.host a] }

/-! The commands. -/

/-- V-C5. -/
theorem test_cadd_rounds :
    after (exec (.cadd .z2 .z0 .z1) (withZ ⟨0x3FB999999999999A#64, 0x3FC999999999999A#64⟩
      ⟨0x3FD3333333333333#64, 0x3FD999999999999A#64⟩)) (·.z2) =
      some ⟨0x3FD999999999999A#64, 0x3FE3333333333334#64⟩ := by decide +kernel

/-- V-C3: the destination is both sources. -/
theorem test_cadd_aliases :
    after (exec (.cadd .z0 .z0 .z0) (withZ ⟨0x3FF0000000000000#64, 0x4000000000000000#64⟩ ⟨0#64, 0#64⟩)) (·.z0) =
      some ⟨0x4000000000000000#64, 0x4010000000000000#64⟩ := by decide +kernel

/-- V-C6: six roundings, no fused operation. -/
theorem test_cmul_rounds :
    after (exec (.cmul .z2 .z0 .z1) (withZ ⟨0x3FB999999999999A#64, 0x3FC999999999999A#64⟩
      ⟨0x3FD3333333333333#64, 0x3FD999999999999A#64⟩)) (·.z2) =
      some ⟨0xBFA999999999999C#64, 0x3FB999999999999A#64⟩ := by decide +kernel

/-- V-C4: the old value feeds all four products. -/
theorem test_cmul_aliases :
    after (exec (.cmul .z1 .z1 .z1) (withZ ⟨0#64, 0#64⟩ ⟨0x3FF0000000000000#64, 0x3FF0000000000000#64⟩)) (·.z1) =
      some ⟨0#64, 0x4000000000000000#64⟩ := by decide +kernel

/-- V-C14. -/
theorem test_cmag_rounds :
    after (exec (.cmag .z0) (withZ ⟨0x3FF0000000000000#64, 0x3FF0000000000000#64⟩ ⟨0#64, 0#64⟩)) (·.result) =
      some 0x3FF6A09E667F3BCD#64 := by decide +kernel

/-- V-C15. -/
theorem test_cmag_of_tenths :
    after (exec (.cmag .z0) (withZ ⟨0x3FB999999999999A#64, 0x3FC999999999999A#64⟩ ⟨0#64, 0#64⟩)) (·.result) =
      some 0x3FCC9F25C5BFEDDA#64 := by decide +kernel

/-- V-C21: the real part is ignored and the sign of a zero imaginary part is kept. -/
theorem test_cexp_of_negative_zero :
    after (exec (.cexp .z1 .z0) (withZ ⟨0x7FF8000000000000#64, 0x8000000000000000#64⟩ ⟨0#64, 0#64⟩)) (·.z1) =
      some ⟨0x3FF0000000000000#64, 0x8000000000000000#64⟩ := by decide +kernel

/-- V-W6: the difference does not wrap at 16 bits. -/
theorem test_loadRect_does_not_wrap :
    windowedFrame .rect 64#16 [64#16, 0x8000#16] = [⟨0#64, 0#64⟩, ⟨0xC0E0080000000000#64, 0#64⟩] := by decide +kernel

/-- V-W4, the first sample, and the status after a `LOAD`. -/
theorem test_loadRect_copies :
    windowedFrame .rect 0#16 [0xFF00#16] = [⟨0xC070000000000000#64, 0#64⟩] ∧
      after (exec .loadRect State.reset) statusWord = some 0x00000100#32 := by decide +kernel

/-- V-W1: the fixed window value 0.5 at index 0. -/
theorem test_loadHann_halves_the_first_sample :
    windowedFrame .hann 0#16 [0xFF00#16] = [⟨0xC060000000000000#64, 0#64⟩] ∧
      after (exec .loadHann State.reset) statusWord = some 0x00000100#32 := by decide +kernel

/-- The `wang` column of 95_test_vectors.md section 2.4 at 3, 100, 257 and 511. -/
theorem test_windowAngle :
    windowAngle 3 = 0x3FA2D97C7F3321D2#64 ∧ windowAngle 100 = 0x3FF3A28C59D5433B#64 ∧
      windowAngle 257 = 0x40093B1D4F987145#64 ∧ windowAngle 511 = 0x4019156A569A0B01#64 := by decide +kernel

/-- The `whamm` column at index 0 with the reference coefficients, and V-W5 at index 0. -/
theorem test_hamming_at_zero :
    hammingWindow refHammingA0 refHammingA1 0 = 0x3FB47AE147AE147C#64 ∧
      fmul (hammingWindow refHammingA0 refHammingA1 0) (ffloat (-256)) = 0xC0347AE147AE147C#64 := by decide +kernel

/-- `LOAD.HAMM` of a frame without signal (V-W3 at the status). -/
theorem test_loadHamm_status : after (exec .loadHamm State.reset) statusWord = some 0x00000100#32 := by decide +kernel

/-- V-D1 and V-D3 on the one element that is not zero. -/
theorem test_dft_of_impulse :
    dftBin [⟨0x3FF0000000000000#64, 0#64⟩] 257 = ⟨0x3FF0000000000000#64, 0#64⟩ ∧
      dftBin [⟨0#64, 0x4000000000000000#64⟩] 3 = ⟨0#64, 0x4000000000000000#64⟩ := by decide +kernel

/-- `DFT` runs in stage `EMPTY` and ends in stage `DFT`. -/
theorem test_dft_status : after (exec .dft State.reset) statusWord = some 0x00000200#32 := by decide +kernel

/-- V-P1, V-P2 and V-P14, and the status after a `POWER`. -/
theorem test_power :
    binPower ⟨0x3FF0000000000000#64, 0#64⟩ = 0x3F60000000000000#64 ∧
      binPower ⟨0x4008000000000000#64, 0x4010000000000000#64⟩ = 0x3FA9000000000000#64 ∧
      binPower ⟨0x6974E718D7D7625A#64, 0#64⟩ = 0x7FF0000000000000#64 ∧
      after (exec .power (withXout .dft [])) statusWord = some 0x00000300#32 := by decide +kernel

/-- V-P4. -/
theorem test_power_out_of_order :
    after (exec .power (withXout .windowed [])) statusWord = some 0x00000121#32 := by decide +kernel

/-- V-P2 and V-P15: from `XOUT`, not from `PWR`. -/
theorem test_getpwr :
    after (exec (.getpwr 5) (withXout .empty [(5, ⟨0x4008000000000000#64, 0x4010000000000000#64⟩)])) (·.result) =
      some 0x3FA9000000000000#64 := by decide +kernel

/-- V-P3. -/
theorem test_getpwr_out_of_range :
    after (exec (.getpwr 512) { State.reset with result := 1#64, fail := true, errcode := .seq })
      (fun t => (t.result, statusWord t)) = some (0#64, 0#32) := by decide +kernel

/-- R195 on the bins of V-P13: a NaN is never selected and the first infinity wins. -/
theorem test_peakre :
    after (exec (.peakre 1 16) (withXout .empty [(3, ⟨0x7FF8000000000000#64, 0#64⟩), (4, ⟨0x4000000000000000#64, 0#64⟩),
      (9, ⟨0x7FF0000000000000#64, 0#64⟩), (12, ⟨0x7FF0000000000000#64, 0#64⟩)])) (fun t => (t.peakval, t.peakidx)) =
      some (0x7FF0000000000000#64, 9#10) := by decide +kernel

/-- R195: the upper bound is clipped to 512, and of two bins the greater is found (the bins of V-P11). -/
theorem test_peakre_clips :
    after (exec (.peakre 490 1023) (withXout .empty [(500, ⟨0x4018000000000000#64, 0#64⟩), (491, ⟨0x4014000000000000#64, 0#64⟩)]))
      (fun t => (t.peakval, t.peakidx)) = some (0x4018000000000000#64, 500#10) := by decide +kernel

/-- R195 on the bins of V-P10: bin 1 is skipped. -/
theorem test_peakpw :
    after (exec (.peakpw 2 16) (withPwr .power [(1, 0x4020000000000000#64), (2, 0x4008000000000000#64)]))
      (fun t => (t.peakval, t.peakidx)) = some (0x4008000000000000#64, 2#10) := by decide +kernel

/-- V-P12: an empty range. -/
theorem test_peakpw_empty_range :
    after (exec (.peakpw 300 2) { State.reset with peakval := 1#64, peakidx := 7#10 }) (fun t => (t.peakval, t.peakidx)) =
      some (0#64, 0#10) := by decide +kernel

/-- V-L2: the energies of filters 1 and 2 where bin 6 alone holds 512.0. -/
theorem test_melfb_energy :
    melEnergy 2 5 8 [0#64, 0#64, 0#64, 0#64, 0#64, 0#64, 0x4080000000000000#64, 0#64] = 0x4075555555555555#64 ∧
      melEnergy 5 8 12 [0#64, 0#64, 0#64, 0#64, 0#64, 0#64, 0x4080000000000000#64, 0#64] = 0x4065555555555555#64 := by
  decide +kernel

/-- V-L8 and V-L10: out of order with the unit, absent without it. -/
theorem test_melfb_refused :
    statusWord (performMelfbWith true refMelEdges refMelZeroSubst (State.reset.setStage .dft)).report = 0x00000221#32 ∧
      statusWord (performMelfbWith false refMelEdges refMelZeroSubst (State.reset.setStage .dft)).report = 0x00000211#32 := by
  decide +kernel

/-- The angles of V-L6 at 11, of V-L7 at 11 and of V-L11. -/
theorem test_dct_angle :
    dctAngle 11 0 = 0x3FE544236EAFD762#64 ∧ dctAngle 11 25 = 0x4040F24C3C341FA3#64 ∧ dctAngle 2 6 = 0x3FF921FB54442D19#64 := by
  decide +kernel

/-- R219 at coefficient 0, where every cosine is 1.0, on three elements of 1.0; and V-L9. -/
theorem test_dct :
    dctCoefficient (List.replicate 3 0x3FF0000000000000#64) 0 = 0x4008000000000000#64 ∧
      statusWord (performDctWith true (State.reset.setStage .power)).report = 0x00000321#32 := by decide +kernel

/-- V-X1. -/
theorem test_nop_clears_the_report :
    after (exec .nop { State.reset with fail := true, errcode := .seq }) statusWord = some 0#32 := by decide +kernel

/-- V-X2. -/
theorem test_srst :
    after (exec .srst { withPwr .power [(5, 0x4000000000000000#64)] with
      silence := 64#16, peakidx := 5#10, peakval := 0x4000000000000000#64, result := 0x4014000000000000#64 })
      (fun t => (statusWord t, t.silence, t.peakidx, t.peakval, t.result, t.pwr 5)) =
      some (0#32, 0#16, 0#10, 0#64, 0#64, 0x4000000000000000#64) := by decide +kernel

/-- V-X5: the status, and the three stages on the one sample that is not silent. -/
theorem test_frame :
    after (exec .frame (withSamples 0#16 0x000003E8#32)) statusWord = some 0x00000300#32 ∧
      windowedFrame .hann 0#16 [0x03E8#16] = [⟨0x407F400000000000#64, 0#64⟩] ∧
      dftBin [⟨0x407F400000000000#64, 0#64⟩] 511 = ⟨0x407F400000000000#64, 0#64⟩ ∧
      binPower ⟨0x407F400000000000#64, 0#64⟩ = 0x407E848000000000#64 := by decide +kernel

/-- V-X6 and V-X7, the status. -/
theorem test_mfcc :
    statusWord (performMfccWith false refMelEdges refMelZeroSubst State.reset).report = 0x00000311#32 ∧
      statusWord (performMfccWith true refMelEdges refMelZeroSubst State.reset).report = 0x0000C500#32 := by decide +kernel

/-! Host accesses (95_test_vectors.md section 2.2). -/

/-- V-M5: two samples in one word, the lower index in the low half. -/
theorem test_write_samples :
    after (step (withAccess (.write 0x0400 4 0x0002FFFF#32))) (fun t => (t.smp 0, t.smp 1, readWord t 0x0400)) =
      some (0xFFFF#16, 2#16, some 0x0002FFFF#32) := by decide +kernel

/-- V-M6. -/
theorem test_write_silence :
    after (step (withAccess (.write 0x0010 4 0xFFFF0040#32))) (fun t => (t.silence, readWord t 0x0010)) =
      some (64#16, some 0x00000040#32) := by decide +kernel

/-- V-M8 and V-M9: half of a binary64 written. -/
theorem test_write_half_of_a_double :
    after (step ({ withAccess (.write 0x2000 4 0x00000001#32) with mem := ⟨[(0x2006, 0xF0#8), (0x2007, 0x3F#8)]⟩ }))
      (fun t => (t.xin 0).re) = some 0x3FF0000000000001#64 := by decide +kernel

/-- V-M10 and V-M11. -/
theorem test_bus_errors :
    after (step (withAccess (.read 0x0402 2))) (·.response) = some (some .busError) ∧
      after (step (withAccess (.write 0x0400 1 0#8))) (·.response) = some (some .busError) ∧
      after (step (withAccess (.read 0x0002 4))) (·.response) = some (some .busError) ∧
      after (step (withAccess (.write 0x2001 4 0#32))) (·.response) = some (some .busError) := by decide +kernel

/-- V-M1, V-M4 and V-M14. -/
theorem test_reads :
    after (step (withAccess (.read 0x0000 4))) (·.response) = some (some (.data 0x54464444#32)) ∧
      after (step (withAccess (.read 0x0008 4))) (·.response) = some (some (.data 0#32)) ∧
      after (step (withAccess (.read 0x000C 4))) (·.response) = some (some (.data 0#32)) := by decide +kernel

/-- A command placed for the next step runs in it (V-C1). -/
theorem test_withFetchWord_runs :
    after (step ((withZ ⟨0x3FF0000000000000#64, 0x4000000000000000#64⟩
      ⟨0x4008000000000000#64, 0x4010000000000000#64⟩).withFetchWord 32 0x00001210)) (fun t => (t.z2, t.response)) =
      some (⟨0x4010000000000000#64, 0x4018000000000000#64⟩, some .written) := by decide +kernel

/-! Witnesses: for every statement with hypotheses, cases that meet them, one for each clause at a boundary of its range. -/

/-- The reset state with the impulse of V-D1 in `XIN`. -/
def impulse : State := State.reset.storeCplxs 0x2000 [⟨0x3FF0000000000000#64, 0#64⟩]

/-- A NaN, both zeros, both infinities, the largest finite datum and 1.0, named for the witnesses. -/
def someNaN : F64 := 0x7FF8000000000000#64
def negZero : F64 := 0x8000000000000000#64
def largest : F64 := 0x7FEFFFFFFFFFFFFF#64

theorem witness_DecodeEncodeEveryCommand :
    (Instr.getpwr 65535).WellFormed ∧ (Instr.peakre 1023 0).WellFormed ∧ (Instr.cadd .z3 .z0 .z1).WellFormed := by decide

theorem witness_DecodedWordIsItsEncoding : decode 0x0FFFFF24#32 = .command (.peakre 1023 1023) := by decide

theorem witness_OpcodeMapDecidesTheCommand :
    (⟨"GETPWR", 0x00000023#32, 0xFF0000FF#32⟩ : OpcodeRow) ∈ opcodeRows ∧
      0x00FFFF23#32 &&& 0xFF0000FF#32 = 0x00000023#32 ∧ ∀ r ∈ opcodeRows, 0x00000320#32 &&& r.mask ≠ r.matchBits := by decide

theorem witness_StepRunsTheDecodedCommand :
    (withAccess (.write 0x0008 4 0x00000523#32)).pending = .host (.write 0x0008 4 0x00000523#32) :: [] ∧
      decode 0x00000523#32 = .command (.getpwr 5) := by decide

theorem witness_IllegalWordOnlyReportsIllcmd :
    (∀ o ∈ Opcode.all, o.code ≠ (0x00000026#32).extractLsb' 0 8) ∧
      (Opcode.dft.code = (0x00000121#32).extractLsb' 0 8 ∧ 0x00000121#32 &&& Opcode.dft.format.reserved ≠ 0#32) ∧
      (withAccess (.write 0x0008 4 0x00000320#32)).pending = .host (.write 0x0008 4 0x00000320#32) :: [] := by decide

theorem witness_BusErrors_clauses :
    ([0x28, 0x3C, 0x80, 0x3FC, 0x8D0, 0x8FC, 0x960, 0xFFC].all fun off => (rowAt off).isNone) = true ∧
      ([0, 0x24, 0x40, 0x7C, 0x400, 0x8CC, 0x900, 0x95C, 0x1000, 0x5FFC].all fun off => (rowAt off).isSome) = true := by decide

theorem witness_BusErrorsAreExactlyTheBadAccesses :
    (withAccess (.read 0x5FFC 4)).pending = .host (.read 0x5FFC 4) :: [] ∧ (HostAccess.read 0x5FFC 4).offset < 0x6000 ∧
      (HostAccess.read 0x5FFD 4).offset % 4 ≠ 0 ∧ (HostAccess.read 0x5FFC 8).size ≠ 4 := by decide

theorem witness_ReadsHaveNoSideEffect :
    (withAccess (.read 0x5FFC 4)).pending = .host (.read 0x5FFC 4) :: [] ∧ AccessibleOffset 0x5FFC := by decide

/-- An RW location, `SILENCE` and an RO location. -/
theorem witness_WriteReplacesOnlyItsWord :
    (withAccess (.write 0x3FFC 4 7#32)).pending = .host (.write 0x3FFC 4 7#32) :: [] ∧
      rowAt 0x3FFC = some ⟨.xin, 0x2000, 8192, .rw⟩ ∧ rowAt 0x0010 = some ⟨.silence, 0x0010, 4, .rw⟩ ∧
      rowAt 0x4000 = some ⟨.xout, 0x4000, 8192, .ro⟩ := by decide

theorem witness_HalfWrittenDoubleIsMixed :
    (withAccess (.write (0x2000 + 16 * 511) 4 7#32)).pending = .host (.write (0x2000 + 16 * 511) 4 7#32) :: [] ∧
      (withAccess (.write (0x2004 + 16 * 0) 4 7#32)).pending = .host (.write (0x2004 + 16 * 0) 4 7#32) :: [] ∧
      (withAccess (.write (0x2008 + 16 * 0) 4 7#32)).pending = .host (.write (0x2008 + 16 * 0) 4 7#32) :: [] ∧
      (withAccess (.write (0x200C + 16 * 511) 4 7#32)).pending = .host (.write (0x200C + 16 * 511) 4 7#32) :: [] := by decide

theorem witness_IdleMachineKeepsItsState : State.reset.pending = [] := by decide

theorem witness_StepStopsOnlyOutsideTheContract :
    (withAccess (.read 0x6000 4)).pending = .host (.read 0x6000 4) :: [] ∧ 0x6000 ≤ (HostAccess.read 0x6000 4).offset ∧
      ({ State.reset with pending := [.foreign (.read 0 4)] } : State).pending = .foreign (.read 0 4) :: [] ∧
      (HostAccess.read 0x5FFF 4).offset < 0x6000 := by decide

theorem witness_HardwareResetSetsTheRegisters :
    ({ State.reset with pending := [.reset], silence := 5#16 } : State).pending = .reset :: [] := by decide

theorem witness_BasicOperationsRoundOnce :
    isFinite largest = true ∧ isFinite 0x7C90000000000000#64 = true ∧ isZero 0x0000000000000001#64 = false := by decide

/-- The overflow clause at its bound: the largest finite datum and half its last place. -/
theorem witness_BasicOperationsRoundOnce_overflow : overflowBound ≤ fvalue largest + fvalue 0x7C90000000000000#64 := by
  have h1 : fint largest = (2 ^ 53 - 1) * 2 ^ 2045 := by decide +kernel
  have h2 : fint 0x7C90000000000000#64 = 2 ^ 2044 := by decide +kernel
  unfold overflowBound fvalue
  rw [h1, h2]
  push_cast
  have e1 : (2 : ℝ) ^ 2045 = 2 * 2 ^ 970 * 2 ^ 1074 := by rw [← pow_succ', ← pow_add]
  have e2 : (2 : ℝ) ^ 2044 = 2 ^ 970 * 2 ^ 1074 := by rw [← pow_add]
  have e3 : (2 : ℝ) ^ 1024 = 2 ^ 54 * 2 ^ 970 := by rw [← pow_add]
  have hpos : (2 : ℝ) ^ 1074 ≠ 0 := by positivity
  rw [e1, e2, e3]
  generalize (2 : ℝ) ^ 1074 = u at hpos ⊢
  generalize (2 : ℝ) ^ 970 = v
  rw [← mul_assoc, mul_div_assoc, mul_div_assoc, div_self hpos]
  norm_num
  linarith

/-- The clauses of no overflow. -/
theorem witness_BasicOperationsRoundOnce_inside : |fvalue 0#64 + fvalue 0#64| < overflowBound := by
  have h : fint 0#64 = 0 := by decide
  unfold overflowBound fvalue
  rw [h]
  simp only [Int.cast_zero, zero_div, add_zero, abs_zero, sub_pos]
  exact pow_lt_pow_right₀ (by norm_num) (by norm_num)

theorem witness_SquareRootIsCorrectlyRounded :
    (isFinite 0x0000000000000001#64 = true ∧ fsign 0x0000000000000001#64 = false) ∧ isZero negZero = true ∧
      (isNaN 0x8000000000000001#64 = false ∧ isZero 0x8000000000000001#64 = false ∧ fsign 0x8000000000000001#64 = true) := by
  decide

theorem witness_InvalidOperationsReturnQuietNaN :
    isNaN someNaN = true ∧ isZero negZero = true ∧ (fsign 0xBFF0000000000000#64 = true ∧ isZero 0xBFF0000000000000#64 = false) := by
  decide

theorem witness_StatusWordFields :
    (State.reset.failWith .illcmd).errcode = .illcmd ∧ (State.reset.failWith .seq).errcode = .seq ∧
    (State.reset.failWith .unimpl).errcode = .unimpl ∧ State.reset.succeed.errcode = .ok ∧ State.reset.stage = .empty ∧
    ∀ g, (State.reset.setStage g).stage = g := ⟨rfl, rfl, rfl, rfl, rfl, fun _ => rfl⟩

theorem witness_InfinityArithmetic :
    isFinite largest = true ∧ isZero largest = false ∧ isFinite negZero = true ∧ isZero negZero = true := by decide

theorem witness_SignedZeroRules :
    (isNaN (finf true) = false ∧ isZero (finf true) = false ∧ isZero negZero = true) ∧ isFinite largest = true ∧
      isZero largest = false := by decide

theorem witness_NegateAndFloatAreExact : (-(2 ^ 53 - 1) : Int).natAbs < 2 ^ 53 := by decide

theorem witness_ComparisonsAreByValue : isFinite negZero = true ∧ isFinite largest = true ∧ isNaN someNaN = true := by decide

theorem witness_TrigUnitsKeepTheirProperties :
    isFinite largest = true ∧ isNaN (finf true) = false ∧ isFinite (finf true) = false := by decide

theorem witness_LogUnitKeepsItsProperties :
    isNaN someNaN = true ∧ (fsign 0x8000000000000001#64 = true ∧ isZero 0x8000000000000001#64 = false) := by decide

theorem witness_CexpTakesTheImaginaryPart :
    isZero ((withZ ⟨someNaN, negZero⟩ ⟨0#64, 0#64⟩).getZ .z0).im = true ∧
      isFinite ((withZ ⟨0#64, finf false⟩ ⟨0#64, 0#64⟩).getZ .z0).im = false := by decide

theorem witness_MagnitudeIsNeverNegative :
    isNaN (cmag ⟨negZero, negZero⟩) = false ∧ isNaN (finf true) = false ∧ isInf (finf true) = true := by decide +kernel

/-- The reset memory lists nothing, so every element reads as zeros. -/
theorem reset_xin (i : Nat) : State.reset.xin i = ⟨0#64, 0#64⟩ := by
  change Cplx.mk (((0#8 ++ 0#8 ++ 0#8 ++ 0#8) ++ (0#8 ++ 0#8 ++ 0#8 ++ 0#8)) : F64)
    ((0#8 ++ 0#8 ++ 0#8 ++ 0#8) ++ (0#8 ++ 0#8 ++ 0#8 ++ 0#8)) = _
  decide

theorem reset_smp (i : Nat) : State.reset.smp i = 0#16 := by
  change (0#8 ++ 0#8 : BitVec 16) = _
  decide

theorem impulse_zero {i : Nat} (h : 0 < i) : impulse.xin i = ⟨0#64, 0#64⟩ := by
  have : impulse.xin i = State.reset.xin i :=
    State.xin_congr fun a ha _ => State.byte_storeCplxs State.reset (Or.inr (by simp; omega))
  rw [this]
  exact reset_xin i

theorem witness_ImpulseTransformsToConstant :
    isFinite 0x3FF0000000000000#64 = true ∧ isZero 0x3FF0000000000000#64 = false ∧
      impulse.xin 0 = ⟨0x3FF0000000000000#64, 0#64⟩ ∧ ∀ i < 512, 0 < i → impulse.xin i = ⟨0#64, 0#64⟩ :=
  ⟨by decide, by decide, by decide +kernel, fun _ _ h => impulse_zero h⟩

theorem witness_BinZeroIsTheRunningSum :
    ∀ i < 512, (impulse.xin i).im = 0#64 ∧ isFinite (impulse.xin i).re = true := by
  intro i _
  rcases Nat.eq_zero_or_pos i with rfl | h
  · decide +kernel
  · rw [impulse_zero h]
    decide

theorem witness_NaNInputReachesEveryBin :
    isNaN ((State.reset.storeCplxs (0x2000 + 16 * 511) [⟨0#64, someNaN⟩]).xin 511).im = true ∧
    ((State.reset.storeCplxs (0x2000 + 16 * 0) [⟨finf true, 0#64⟩]).xin 0).re = finf true ∧
    isFinite (finf true) = false := by decide +kernel

theorem witness_PowerWritesThePeriodogram :
    (State.reset.setStage .windowed).stage.code < 2 ∧ 2 ≤ (State.reset.setStage .dft).stage.code := by decide

theorem witness_PowerIsNeverNegative :
    isNaN (binPower ⟨negZero, finf true⟩) = false ∧ isInf (fmul (finf true) (finf true)) = true ∧ isNaN negZero = false ∧
    isInf (fmul largest largest) = true ∧ isZero (fmul 1#64 1#64) = true ∧ isZero (fmul negZero negZero) = true := by
  decide +kernel

theorem witness_GetpwrQueriesOneBin : 511 < 512 ∧ 512 ≤ 65535 ∧ 2 ≤ (State.reset.setStage .dft).stage.code := by decide

theorem witness_SilentFrameHasNoPeak : ∀ i < 512, State.reset.smp i = State.reset.silence := fun i _ => reset_smp i

theorem witness_MelfbWritesTheLogEnergies : 3 ≤ (State.reset.setStage .power).stage.code := by decide

theorem witness_MelStagesCompleteWithTheUnit :
    3 ≤ (State.reset.setStage .power).stage.code ∧ 4 ≤ (State.reset.setStage .mel).stage.code := by decide

theorem witness_MelWeightsLieInUnitInterval : 234 < 255 ∧ 255 < 256 ∧ 256 ≤ 256 ∧ 234 < 235 ∧ 235 < 256 := by decide

theorem witness_DctWritesTheCoefficients : 4 ≤ (State.reset.setStage .mel).stage.code := by decide

theorem witness_FrameOfOneSample :
    (withSamples 0#16 0x000003E8#32).smp 0 ≠ (withSamples 0#16 0x000003E8#32).silence ∧
      ∀ i < 512, 0 < i → (withSamples 0#16 0x000003E8#32).smp i = (withSamples 0#16 0x000003E8#32).silence := by
  decide +kernel

theorem witness_StagePreconditions :
    (State.reset.setStage .windowed).stage.code < 2 ∧ (State.reset.setStage .dft).stage.code < 3 ∧
      (State.reset.setStage .power).stage.code < 4 := by decide

theorem witness_EveryCommandReportsItsEnd : after (exec .power State.reset) (·.fail) = some true := by decide +kernel

theorem witness_StageTransitions : exec .nop State.reset = .next State.reset ∧ State.reset.fail = false := ⟨rfl, rfl⟩

theorem witness_OnlyNamedCommandsWriteEachState : exec .nop State.reset = .next State.reset := rfl

theorem witness_EveryStepKeepsTheInvariant : State.reset.Inv ∧ step State.reset = .next State.reset :=
  ⟨⟨⟨List.Pairwise.nil, fun _ h => (nomatch h)⟩, fun _ h => (nomatch h), by decide, by decide, fun _ => by decide⟩, rfl⟩

end Sys2Proof.Tests
end

section
/-! 00_scope.md: a step whose access is a write to `CMD` runs the word written. -/

namespace Sys2Proof.Machine

/-- A legal word runs the command it decodes to. -/
theorem runCommand_of_decode_command {c : Word32} {i : Instr} (h : decode c = .command i) (s : State) :
    runCommand c s = exec i s := by
  unfold runCommand
  rw [h]

/-- For every word, legal or not, the access is taken and answered before the word is looked at. -/
theorem step_of_write_to_cmd {s : State} {c : Word32} {rest : List BusEvent}
    (h : s.pending = .host (.write 0x0008 4 c) :: rest) :
    step s = runCommand c { s with pending := rest, response := some .written } := by
  rw [step_host h, performAccess_command]
  rfl

/-- Settles O5: the write to `CMD` reaches `runCommand`, which executes the command that the word decodes to. -/
theorem stepRunsTheDecodedCommand : Obligations.StepRunsTheDecodedCommand := by
  intro s c rest i hpending hdecode
  rw [step_of_write_to_cmd hpending, runCommand_of_decode_command hdecode]

end Sys2Proof.Machine
end

section
/-! 10_state.md and 20_memory.md: where the registers stand in the window and what a read of each returns. -/

namespace Sys2Proof.Machine

/-- The rows of the map follow one another without overlap (R61). -/
theorem windowMap_ascending : windowMap.Pairwise fun r q => r.base + r.size ≤ q.base := by decide

/-- Two rows of the map that share an offset are the same row. -/
theorem row_unique {r q : MapRow} (hr : r ∈ windowMap) (hq : q ∈ windowMap) {off : Nat}
    (hro : r.base ≤ off ∧ off < r.base + r.size) (hqo : q.base ≤ off ∧ off < q.base + q.size) : r = q :=
  List.Pairwise.forall_of_forall_of_flip
    (R := fun r q : MapRow => r.base ≤ off ∧ off < r.base + r.size → q.base ≤ off ∧ off < q.base + q.size → r = q)
    (fun _ _ _ _ => rfl) (windowMap_ascending.imp fun _ _ _ => by omega)
    (windowMap_ascending.imp fun _ _ _ => by omega) hr hq hro hqo

/-- The row at an offset is the one row of the map that contains it (R61). -/
theorem rowAt_eq_some_iff {off : Nat} {r : MapRow} :
    rowAt off = some r ↔ r ∈ windowMap ∧ r.base ≤ off ∧ off < r.base + r.size := by
  refine ⟨rowAt_bounds, fun ⟨hr, hoff⟩ => ?_⟩
  obtain ⟨q, hq⟩ := Option.isSome_iff_exists.mp ((rowAt_isSome_iff off).mpr ⟨r, hr, hoff⟩)
  obtain ⟨hqmem, hqoff⟩ := rowAt_bounds hq
  rw [hq, row_unique hqmem hr hqoff hoff]

/-- `ID` reads its constant (R27). -/
theorem readWord_id (s : State) : readWord s 0x0000 = some idWord := rfl

/-- `CAP` reads the word of the configuration (R28). -/
theorem readWord_cap (s : State) : readWord s 0x0004 = some capWord := rfl

/-- `STATUS` reads the word made of the report and the stage (R24). -/
theorem readWord_status (s : State) : readWord s 0x000C = some (statusWord s) := rfl

/-- Word `j` of register `Z[i]` stands at `0x0040 + 16 * i + 4 * j` (R21, R68). -/
theorem readWord_z (s : State) (r : ZReg) {j : Nat} (hj : j < 4) :
    readWord s (0x0040 + 16 * r.code.toNat + 4 * j) = some (cplxWord (s.getZ r) j) := by
  have hcode : r.code.toNat < 4 := r.code.isLt
  have hrow : rowAt (0x0040 + 16 * r.code.toNat + 4 * j) = some ⟨.z, 0x0040, 64, .rw⟩ :=
    rowAt_eq_some_iff.mpr ⟨by simp [windowMap], by simp only; omega, by simp only; omega⟩
  have hreg : zregOfIndex r.code.toNat = r := by cases r <;> rfl
  rw [readWord_of_row hrow, readRegion]
  rw [show (0x0040 + 16 * r.code.toNat + 4 * j - 0x0040) / 16 = r.code.toNat by omega,
    show (0x0040 + 16 * r.code.toNat + 4 * j - 0x0040) % 16 / 4 = j by omega, hreg]

/-- Settles O11: each register has its own row of the map, and a word's place in the row selects the half. -/
theorem registerWordsAreLowWordFirst : Obligations.RegisterWordsAreLowWordFirst := fun s =>
  ⟨rfl, rfl, rfl, rfl, rfl, rfl, fun r =>
    ⟨readWord_z s r (j := 0) (by decide), readWord_z s r (j := 1) (by decide), readWord_z s r (j := 2) (by decide),
      readWord_z s r (j := 3) (by decide)⟩⟩

/-- Settles O13. -/
theorem idAndCapAreConstant : Obligations.IdAndCapAreConstant :=
  ⟨fun s => ⟨readWord_id s, readWord_cap s⟩, by decide, by decide⟩

/-- The word a read of `STATUS` returns, field by field: each is one piece of the concatenation of R24. -/
theorem statusWord_fields (s : State) :
    (statusWord s).extractLsb' 0 1 = BitVec.ofBool s.fail ∧ (statusWord s).extractLsb' 1 1 = 0#1 ∧
    (statusWord s).extractLsb' 2 2 = 0#2 ∧ (statusWord s).extractLsb' 4 4 = BitVec.ofNat 4 s.errcode.code ∧
    (statusWord s).extractLsb' 8 3 = BitVec.ofNat 3 s.stage.code ∧ (statusWord s).extractLsb' 11 1 = 0#1 ∧
    (statusWord s).extractLsb' 12 4 = BitVec.ofNat 4 (mfccCount s.stage) ∧ (statusWord s).extractLsb' 16 16 = 0#16 := by
  unfold statusWord
  refine ⟨?_, ?_, ?_, ?_, ?_, ?_, ?_, ?_⟩ <;>
    simp (disch := omega) only [extract_append_low, extract_append_high, Nat.reduceSub, extract_all]

theorem ErrCode.code_le (c : ErrCode) : c.code ≤ 3 := by cases c <;> decide

theorem Stage.code_le (g : Stage) : g.code ≤ 5 := by cases g <;> decide

/-- `MFCCCNT` counts the coefficients in stage `MFCC` alone (R26). -/
theorem mfccCount_eq (g : Stage) : mfccCount g = if g = .mfcc then 12 else 0 := by cases g <;> decide

/-- Settles O14: every field is a piece of the word, and every code fits its field. -/
theorem statusWordFields : Obligations.StatusWordFields := by
  intro s
  obtain ⟨hfail, hbusy, hlow, herr, hstage, hmid, hcount, hhigh⟩ := statusWord_fields s
  refine ⟨statusWord s, readWord_status s, hfail, hbusy, hlow, ?_, ?_, hmid, ?_, hhigh, ?_⟩
  · have := s.errcode.code_le
    rw [herr, BitVec.toNat_ofNat, Nat.mod_eq_of_lt (by omega)]
  · have := s.stage.code_le
    rw [hstage, BitVec.toNat_ofNat, Nat.mod_eq_of_lt (by omega)]
  · rw [hcount, mfccCount_eq]
    split <;> rfl
  · rw [herr, hstage]
    refine ⟨?_, ?_, ?_, ?_, ?_, ?_, ?_, ?_, ?_, ?_⟩ <;> (intro h; rw [h]; rfl)

/-- A machine without a failure in stage `EMPTY` reads 0 at `STATUS` (R44). -/
theorem statusWord_eq_zero {s : State} (hf : s.fail = false) (hc : s.errcode = .ok) (hg : s.stage = .empty) :
    statusWord s = 0#32 := by
  rw [statusWord_of_fields hf hc hg]
  decide

/-- Settles O17: the reset event writes every stated register and draws only what R44 leaves unspecified. -/
theorem hardwareResetSetsTheRegisters : Obligations.HardwareResetSetsTheRegisters := by
  intro s rest hpending
  refine ⟨_, step_reset hpending, ?_, rfl, rfl, rfl, rfl, rfl, rfl, rfl, readWord_id _, readWord_cap _, rfl⟩
  rw [readWord_status, statusWord_eq_zero rfl rfl rfl]

/-- Settles O18. -/
theorem resetStateRegisters : Obligations.ResetStateRegisters := by
  refine ⟨?_, rfl, rfl, rfl, rfl, rfl, rfl, rfl⟩
  rw [readWord_status, statusWord_eq_zero rfl rfl rfl]

end Sys2Proof.Machine
end

section
/-! 10_state.md, 46_system_macro.md and 60_exceptions.md: how every command ends, and the stage it leaves. -/

namespace Sys2Proof.Machine

/-- The state a command's work ends in, before the report is written. -/
def Ended.state : Ended → State
  | .ran s => s
  | .failed _ s => s

@[simp] theorem Ended.state_ran (s : State) : (Ended.ran s).state = s := rfl
@[simp] theorem Ended.state_failed (c : ErrCode) (s : State) : (Ended.failed c s).state = s := rfl

/-- The work of a command without its report; `exec_eq_report` ties it to `exec`. -/
def perform : Instr → State → Ended
  | .nop, s => .ran s
  | .srst, s => .ran s.softReset
  | .cadd zd za zb, s => .ran (s.setZ zd (cadd (s.getZ za) (s.getZ zb)))
  | .cmul zd za zb, s => .ran (s.setZ zd (cmul (s.getZ za) (s.getZ zb)))
  | .cmag za, s => .ran { s with result := cmag (s.getZ za) }
  | .cexp zd za, s => .ran (s.setZ zd (cexp (s.getZ za)))
  | .loadRect, s => performLoad .rect s
  | .loadHann, s => performLoad .hann s
  | .loadHamm, s => performLoad .hamm s
  | .dft, s => performDft s
  | .power, s => performPower s
  | .getpwr k, s => .ran { s with result := selectedPower k s }
  | .peakre lo hi, s => .ran (s.setPeak (scan (fun k => (s.xout k).re) lo hi))
  | .peakpw lo hi, s => .ran (s.setPeak (scan s.pwr lo hi))
  | .melfb, s => performMelfb s
  | .dct, s => performDct s
  | .frame, s => performFrame s
  | .mfcc, s => performMfcc s

/-- Every command does its work and reports how it ended (R241). -/
theorem exec_eq_report (i : Instr) (s : State) : exec i s = .next (perform i s).report := by cases i <;> rfl

theorem exec_eq_next_iff {i : Instr} {s t : State} : exec i s = .next t ↔ (perform i s).report = t := by
  rw [exec_eq_report, Host.Outcome.next.injEq]

/-- `FAIL` is 0 exactly after a command that ran. -/
theorem Ended.report_fail_eq_false_iff {e : Ended} : e.report.fail = false ↔ ∃ u, e = .ran u := by
  cases e <;> simp

/-- A step of a sequence runs when the steps before it ran and it runs. -/
theorem Ended.andThen_eq_ran_iff {e : Ended} {f : State → Ended} {u : State} :
    e.andThen f = .ran u ↔ ∃ v, e = .ran v ∧ f v = .ran u := by
  cases e <;> simp

/-- A sequence fails where its first failing step fails. -/
theorem Ended.andThen_eq_failed_iff {e : Ended} {f : State → Ended} {c : ErrCode} {u : State} :
    e.andThen f = .failed c u ↔ e = .failed c u ∨ ∃ v, e = .ran v ∧ f v = .failed c u := by
  cases e <;> simp

/-- The two ends of `POWER` (R190). -/
theorem performPower_cases (s : State) :
    performPower s = .failed .seq s ∨
      performPower s = .ran ((s.storeF64s pwrBase (s.xoutAll.map binPower)).setStage .power) := by
  rcases Nat.lt_or_ge s.stage.code 2 with h | h
  · exact .inl (performPower_seq h)
  · exact .inr (performPower_ran h)

/-- The three ends of `MELFB`: it runs only with the Mel/DCT unit (R214, R217). -/
theorem performMelfb_cases (s : State) :
    (performMelfb s = .failed .unimpl s ∨ performMelfb s = .failed .seq s) ∨
      Config.melPresent = true ∧
        performMelfb s = .ran ((s.storeF64s melBase (melFrame melEdges melZeroSubst s.pwrAll)).setStage .mel) := by
  unfold performMelfb
  cases Config.melPresent with
  | false => exact .inl (.inl (performMelfbWith_unimpl _ _ s))
  | true =>
    rcases Nat.lt_or_ge s.stage.code 3 with h | h
    · exact .inl (.inr (performMelfbWith_seq _ _ h))
    · exact .inr ⟨rfl, performMelfbWith_ran _ _ h⟩

/-- The three ends of `DCT`: it runs only with the Mel/DCT unit (R217, R218). -/
theorem performDct_cases (s : State) :
    (performDct s = .failed .unimpl s ∨ performDct s = .failed .seq s) ∨
      Config.melPresent = true ∧ performDct s = .ran ((s.storeF64s mfccBase (dctFrame s.melAll)).setStage .mfcc) := by
  unfold performDct
  cases Config.melPresent with
  | false => exact .inl (.inl (performDctWith_unimpl s))
  | true =>
    rcases Nat.lt_or_ge s.stage.code 4 with h | h
    · exact .inl (.inr (performDctWith_seq h))
    · exact .inr ⟨rfl, performDctWith_ran h⟩

/-- `POWER` fails with `SEQ` alone and changes nothing. -/
theorem performPower_failed {s u : State} {c : ErrCode} (h : performPower s = .failed c u) : c = .seq ∧ u = s := by
  rcases performPower_cases s with hp | hp <;> cases hp.symm.trans h
  exact ⟨rfl, rfl⟩

/-- `MELFB` fails with `UNIMPL` or `SEQ` and changes nothing. -/
theorem performMelfb_failed {s u : State} {c : ErrCode} (h : performMelfb s = .failed c u) :
    (c = .unimpl ∨ c = .seq) ∧ u = s := by
  rcases performMelfb_cases s with (hm | hm) | ⟨-, hm⟩ <;> cases hm.symm.trans h
  · exact ⟨.inl rfl, rfl⟩
  · exact ⟨.inr rfl, rfl⟩

/-- `DCT` fails with `UNIMPL` or `SEQ` and changes nothing. -/
theorem performDct_failed {s u : State} {c : ErrCode} (h : performDct s = .failed c u) :
    (c = .unimpl ∨ c = .seq) ∧ u = s := by
  rcases performDct_cases s with (hd | hd) | ⟨-, hd⟩ <;> cases hd.symm.trans h
  · exact ⟨.inl rfl, rfl⟩
  · exact ⟨.inr rfl, rfl⟩

/-- `FRAME` cannot fail: its `DFT` has just set the stage that `POWER` asks for (R232). -/
theorem performFrame_ne_failed (s u : State) (c : ErrCode) : performFrame s ≠ .failed c u := by
  rw [performFrame_eq]
  exact nofun

/-- `MFCC` fails where its Mel steps do (R233). -/
theorem performMfcc_failed {s u : State} {c : ErrCode} (h : performMfcc s = .failed c u) : c = .unimpl ∨ c = .seq := by
  rw [performMfcc, Ended.andThen_eq_failed_iff, Ended.andThen_eq_failed_iff] at h
  rcases h with (hframe | ⟨_, -, hmelfb⟩) | ⟨_, -, hdct⟩
  · exact absurd hframe (performFrame_ne_failed s u c)
  · exact (performMelfb_failed hmelfb).1
  · exact (performDct_failed hdct).1

/-- The commands that can fail, their codes, and that all but `MFCC` leave the state as it was (R234, R242). -/
theorem perform_failed {i : Instr} {s u : State} {c : ErrCode} (h : perform i s = .failed c u) :
    (c = .unimpl ∨ c = .seq) ∧ (i = .power ∨ i = .melfb ∨ i = .dct ∨ i = .mfcc) ∧ (i ≠ .mfcc → u = s) := by
  cases i with
  | power => exact ⟨.inr (performPower_failed h).1, by simp, fun _ => (performPower_failed h).2⟩
  | melfb => exact ⟨(performMelfb_failed h).1, by simp, fun _ => (performMelfb_failed h).2⟩
  | dct => exact ⟨(performDct_failed h).1, by simp, fun _ => (performDct_failed h).2⟩
  | mfcc => exact ⟨performMfcc_failed h, by simp, fun hne => absurd rfl hne⟩
  | frame => exact absurd h (performFrame_ne_failed s u c)
  | _ => cases h

/-- `fail(code)` changes nothing but the report (R241). -/
theorem failedWith_failWith (c : ErrCode) (s : State) : FailedWith c s (s.failWith c) :=
  ⟨rfl, rfl, rfl, State.getZ_failWith s c, ⟨rfl, rfl, rfl, rfl⟩, fun _ => rfl, rfl, rfl, rfl⟩

/-- Settles O56: the report of a command that ran, or of one of the failures of `perform_failed`. -/
theorem everyCommandReportsItsEnd : Obligations.EveryCommandReportsItsEnd := by
  intro i s
  refine ⟨_, exec_eq_report i s, ?_⟩
  cases h : perform i s with
  | ran u => exact ⟨.inl ⟨rfl, rfl⟩, nofun, nofun⟩
  | failed c u =>
    obtain ⟨hcode, hi, hu⟩ := perform_failed h
    refine ⟨.inr ⟨rfl, hcode⟩, fun _ => hi, fun _ hne => ?_⟩
    rw [hu hne]
    exact failedWith_failWith c s

/-- A `POWER` that runs sets its stage (R190). -/
theorem stage_of_performPower {s u : State} (h : performPower s = .ran u) : u.stage = .power := by
  rcases performPower_cases s with hp | hp <;> cases hp.symm.trans h
  rfl

/-- A `MELFB` that runs sets its stage (R214). -/
theorem stage_of_performMelfb {s u : State} (h : performMelfb s = .ran u) : u.stage = .mel := by
  rcases performMelfb_cases s with (hm | hm) | ⟨-, hm⟩ <;> cases hm.symm.trans h
  rfl

/-- A `DCT` that runs sets its stage (R218). -/
theorem stage_of_performDct {s u : State} (h : performDct s = .ran u) : u.stage = .mfcc := by
  rcases performDct_cases s with (hd | hd) | ⟨-, hd⟩ <;> cases hd.symm.trans h
  rfl

/-- A `FRAME` that runs leaves the stage of its `POWER` (R232). -/
theorem stage_of_performFrame {s u : State} (h : performFrame s = .ran u) : u.stage = .power := by
  obtain ⟨_, -, hpower⟩ := Ended.andThen_eq_ran_iff.mp h
  exact stage_of_performPower hpower

/-- An `MFCC` that runs leaves the stage of its `DCT` (R233). -/
theorem stage_of_performMfcc {s u : State} (h : performMfcc s = .ran u) : u.stage = .mfcc := by
  obtain ⟨_, -, hdct⟩ := Ended.andThen_eq_ran_iff.mp h
  exact stage_of_performDct hdct

/-- Settles O57: the command ran, so its stage is that of the last stage command it performed. -/
theorem stageTransitions : Obligations.StageTransitions := by
  intro i s t h hok
  rw [exec_eq_next_iff] at h
  subst h
  obtain ⟨u, hu⟩ := Ended.report_fail_eq_false_iff.mp hok
  rw [hu, Ended.report_ran, State.succeed_stage]
  cases i with
  | power => exact stage_of_performPower hu
  | melfb => exact stage_of_performMelfb hu
  | dct => exact stage_of_performDct hu
  | frame => exact stage_of_performFrame hu
  | mfcc => exact stage_of_performMfcc hu
  | cadd | cmul | cexp => cases hu; exact State.setZ_stage _ _ _
  | _ => cases hu; rfl

end Sys2Proof.Machine
end

section
/-! 10_state.md: which command writes which part of the state, and that it writes nothing else. -/

namespace Sys2Proof.Machine

/-- The parts of the state a command may write beside the report, as ranges of the map (R21, R30 to R39). -/
def regionsWritten : Instr → List Region
  | .nop => []
  | .srst => [.silence, .peakidx, .peakval, .result]
  | .cadd _ _ _ => [.z]
  | .cmul _ _ _ => [.z]
  | .cmag _ => [.result]
  | .cexp _ _ => [.z]
  | .loadRect => [.xin]
  | .loadHann => [.xin]
  | .loadHamm => [.xin]
  | .dft => [.xout]
  | .power => [.pwr]
  | .getpwr _ => [.result]
  | .peakre _ _ => [.peakidx, .peakval]
  | .peakpw _ _ => [.peakidx, .peakval]
  | .melfb => [.mel]
  | .dct => [.mfcc]
  | .frame => [.xin, .xout, .pwr]
  | .mfcc => [.xin, .xout, .pwr, .mel, .mfcc]

/-- From `s` to `t` nothing is written outside the ranges `ws`, the report and the stage apart. -/
structure WritesOnly (ws : List Region) (s t : State) : Prop where
  z : .z ∉ ws → SameZ s t
  silence : .silence ∉ ws → t.silence = s.silence
  peakidx : .peakidx ∉ ws → t.peakidx = s.peakidx
  peakval : .peakval ∉ ws → t.peakval = s.peakval
  result : .result ∉ ws → t.result = s.result
  bytes : ∀ r ∈ windowMap, r.region ∉ ws → ∀ a, r.base ≤ a → a < r.base + r.size → t.mem.byte a = s.mem.byte a

namespace WritesOnly

theorem refl (ws : List Region) (s : State) : WritesOnly ws s s :=
  ⟨fun _ _ => rfl, fun _ => rfl, fun _ => rfl, fun _ => rfl, fun _ => rfl, fun _ _ _ _ _ _ => rfl⟩

/-- One step of a sequence after another writes what the two write. -/
theorem trans {ws vs : List Region} {s t u : State} (h : WritesOnly ws s t) (k : WritesOnly vs t u) :
    WritesOnly (ws ++ vs) s u := by
  constructor <;> simp only [List.mem_append, not_or]
  · exact fun ⟨hw, hv⟩ r => (k.z hv r).trans (h.z hw r)
  · exact fun ⟨hw, hv⟩ => (k.silence hv).trans (h.silence hw)
  · exact fun ⟨hw, hv⟩ => (k.peakidx hv).trans (h.peakidx hw)
  · exact fun ⟨hw, hv⟩ => (k.peakval hv).trans (h.peakval hw)
  · exact fun ⟨hw, hv⟩ => (k.result hv).trans (h.result hw)
  · exact fun r hr ⟨hw, hv⟩ a ha hb => (k.bytes r hr hv a ha hb).trans (h.bytes r hr hw a ha hb)

theorem mono {ws vs : List Region} {s t : State} (h : WritesOnly ws s t) (hsub : ws ⊆ vs) : WritesOnly vs s t :=
  ⟨fun hv => h.z (mt (@hsub _) hv), fun hv => h.silence (mt (@hsub _) hv), fun hv => h.peakidx (mt (@hsub _) hv),
    fun hv => h.peakval (mt (@hsub _) hv), fun hv => h.result (mt (@hsub _) hv),
    fun r hr hv => h.bytes r hr (mt (@hsub _) hv)⟩

/-- A sequence that stops early has written no more than one that does not (R234). -/
theorem andThen {ws vs : List Region} {s : State} {e : Ended} {f : State → Ended} (he : WritesOnly ws s e.state)
    (hf : ∀ u, WritesOnly vs u (f u).state) : WritesOnly (ws ++ vs) s (e.andThen f).state := by
  cases e with
  | ran u => exact he.trans (hf u)
  | failed c u => exact he.mono (List.subset_append_left ws vs)

/-- The report is outside what `WritesOnly` speaks of. -/
theorem report {ws : List Region} {s : State} {e : Ended} (h : WritesOnly ws s e.state) : WritesOnly ws s e.report := by
  cases e <;> exact ⟨fun hw r => by simpa using h.z hw r, h.silence, h.peakidx, h.peakval, h.result, h.bytes⟩

/-- A write of a complex register. -/
theorem setZ (s : State) (r : ZReg) (v : Cplx) : WritesOnly [.z] s (s.setZ r v) := by
  constructor <;> simp

/-- A write of `RESULT`. -/
theorem setResult (s : State) (x : F64) : WritesOnly [.result] s { s with result := x } :=
  ⟨fun _ r => by cases r <;> rfl, fun _ => rfl, fun _ => rfl, fun _ => rfl, fun h => absurd (.head _) h,
    fun _ _ _ _ _ _ => rfl⟩

/-- A write of the two peak registers. -/
theorem setPeak (s : State) (best : F64 × Nat) : WritesOnly [.peakidx, .peakval] s (s.setPeak best) := by
  constructor <;> simp [SameZ]

/-- A soft reset writes the four scalar registers. -/
theorem softReset (s : State) : WritesOnly [.silence, .peakidx, .peakval, .result] s s.softReset := by
  constructor <;> simp [SameZ]

/-- A command that leaves the registers alone and stores within one row of the map. -/
theorem of_row {r : MapRow} (hr : r ∈ windowMap) {s t : State} (hz : SameZ s t) (hscalars : SameScalars s t)
    (hbytes : SameBytesOutside r.base r.size s t) : WritesOnly [r.region] s t := by
  obtain ⟨hsilence, hidx, hval, hresult⟩ := hscalars
  refine ⟨fun _ => hz, fun _ => hsilence, fun _ => hidx, fun _ => hval, fun _ => hresult, fun q hq hne a ha hb => ?_⟩
  refine hbytes a ?_
  by_contra hin
  exact hne (by rw [row_unique hq hr (off := a) ⟨ha, hb⟩ (by omega)]; exact List.mem_singleton_self _)

/-- Complex elements stored to the whole of a row. -/
theorem storeCplxs {r : MapRow} (hr : r ∈ windowMap) (s : State) (g : Stage) {vs : List Cplx}
    (hlen : 16 * vs.length = r.size) : WritesOnly [r.region] s ((s.storeCplxs r.base vs).setStage g) :=
  of_row hr (fun q => by simp) ⟨rfl, rfl, rfl, rfl⟩ fun _ ha => State.byte_storeCplxs s (hlen ▸ ha)

/-- Binary64 elements stored to the whole of a row. -/
theorem storeF64s {r : MapRow} (hr : r ∈ windowMap) (s : State) (g : Stage) {vs : List F64}
    (hlen : 8 * vs.length = r.size) : WritesOnly [r.region] s ((s.storeF64s r.base vs).setStage g) :=
  of_row hr (fun q => by simp) ⟨rfl, rfl, rfl, rfl⟩ fun _ ha => State.byte_storeF64s s (hlen ▸ ha)

end WritesOnly

/-- The row of `SMP` (R34, R61). -/
def smpRow : MapRow := ⟨.smp, 0x0400, 1024, .rw⟩

/-- The row of `MEL` (R38, R61). -/
def melRow : MapRow := ⟨.mel, 0x0800, 208, .ro⟩

/-- The row of `MFCC` (R39, R61). -/
def mfccRow : MapRow := ⟨.mfcc, 0x0900, 96, .ro⟩

/-- The row of `PWR` (R37, R61). -/
def pwrRow : MapRow := ⟨.pwr, 0x1000, 4096, .ro⟩

/-- The row of `XIN` (R35, R61). -/
def xinRow : MapRow := ⟨.xin, 0x2000, 8192, .rw⟩

/-- The row of `XOUT` (R36, R61). -/
def xoutRow : MapRow := ⟨.xout, 0x4000, 8192, .ro⟩

theorem performLoad_writesOnly (w : Window) (s : State) : WritesOnly [.xin] s (performLoad w s).state :=
  WritesOnly.storeCplxs (r := xinRow) (by decide) s .windowed (by simp [xinRow])

theorem performDft_writesOnly (s : State) : WritesOnly [.xout] s (performDft s).state :=
  WritesOnly.storeCplxs (r := xoutRow) (by decide) s .dft (by simp [xoutRow])

theorem performPower_writesOnly (s : State) : WritesOnly [.pwr] s (performPower s).state := by
  rcases performPower_cases s with h | h <;> rw [h]
  · exact .refl _ s
  · exact WritesOnly.storeF64s (r := pwrRow) (by decide) s .power (by simp [pwrRow])

theorem performMelfb_writesOnly (s : State) : WritesOnly [.mel] s (performMelfb s).state := by
  rcases performMelfb_cases s with (h | h) | ⟨-, h⟩ <;> rw [h]
  · exact .refl _ s
  · exact .refl _ s
  · exact WritesOnly.storeF64s (r := melRow) (by decide) s .mel (by simp [melRow])

theorem performDct_writesOnly (s : State) : WritesOnly [.mfcc] s (performDct s).state := by
  rcases performDct_cases s with (h | h) | ⟨-, h⟩ <;> rw [h]
  · exact .refl _ s
  · exact .refl _ s
  · exact WritesOnly.storeF64s (r := mfccRow) (by decide) s .mfcc (by simp [mfccRow])

theorem performFrame_writesOnly (s : State) : WritesOnly [.xin, .xout, .pwr] s (performFrame s).state :=
  ((performLoad_writesOnly .hann s).andThen performDft_writesOnly).andThen performPower_writesOnly

theorem performMfcc_writesOnly (s : State) : WritesOnly [.xin, .xout, .pwr, .mel, .mfcc] s (performMfcc s).state :=
  ((performFrame_writesOnly s).andThen performMelfb_writesOnly).andThen performDct_writesOnly

/-- The frame of every command, its report included. -/
theorem exec_writesOnly {i : Instr} {s t : State} (h : exec i s = .next t) : WritesOnly (regionsWritten i) s t := by
  rw [exec_eq_next_iff] at h
  subst h
  refine WritesOnly.report ?_
  cases i with
  | nop => exact .refl _ s
  | cadd | cmul | cexp => exact .setZ s _ _
  | loadRect | loadHann | loadHamm => exact performLoad_writesOnly _ s
  | dft => exact performDft_writesOnly s
  | power => exact performPower_writesOnly s
  | melfb => exact performMelfb_writesOnly s
  | dct => exact performDct_writesOnly s
  | frame => exact performFrame_writesOnly s
  | mfcc => exact performMfcc_writesOnly s
  | srst => exact .softReset s
  | cmag | getpwr => exact .setResult s _
  | peakre | peakpw => exact .setPeak s _

section Elements

variable {ws : List Region} {s t : State}

/-! A buffer whose row is not written keeps every element. -/

theorem WritesOnly.smp (h : WritesOnly ws s t) (hw : .smp ∉ ws) : ∀ n < 512, t.smp n = s.smp n := fun _ _ =>
  State.smp_congr fun a _ _ =>
    h.bytes smpRow (by decide) hw a (by simp only [smpRow]; omega) (by simp only [smpRow]; omega)

theorem WritesOnly.xin (h : WritesOnly ws s t) (hw : .xin ∉ ws) : ∀ n < 512, t.xin n = s.xin n := fun _ _ =>
  State.xin_congr fun a _ _ =>
    h.bytes xinRow (by decide) hw a (by simp only [xinRow]; omega) (by simp only [xinRow]; omega)

theorem WritesOnly.xout (h : WritesOnly ws s t) (hw : .xout ∉ ws) : ∀ k < 512, t.xout k = s.xout k := fun _ _ =>
  State.xout_congr fun a _ _ =>
    h.bytes xoutRow (by decide) hw a (by simp only [xoutRow]; omega) (by simp only [xoutRow]; omega)

theorem WritesOnly.pwr (h : WritesOnly ws s t) (hw : .pwr ∉ ws) : ∀ k < 512, t.pwr k = s.pwr k := fun _ _ =>
  State.pwr_congr fun a _ _ =>
    h.bytes pwrRow (by decide) hw a (by simp only [pwrRow]; omega) (by simp only [pwrRow]; omega)

theorem WritesOnly.mel (h : WritesOnly ws s t) (hw : .mel ∉ ws) : ∀ m < 26, t.mel m = s.mel m := fun _ _ =>
  State.mel_congr fun a _ _ =>
    h.bytes melRow (by decide) hw a (by simp only [melRow]; omega) (by simp only [melRow]; omega)

theorem WritesOnly.mfcc (h : WritesOnly ws s t) (hw : .mfcc ∉ ws) : ∀ n < 12, t.mfcc n = s.mfcc n := fun _ _ =>
  State.mfcc_congr fun a _ _ =>
    h.bytes mfccRow (by decide) hw a (by simp only [mfccRow]; omega) (by simp only [mfccRow]; omega)

end Elements

/-- Settles O58: in each clause the commands left are those whose `regionsWritten` lacks the register or buffer. -/
theorem onlyNamedCommandsWriteEachState : Obligations.OnlyNamedCommandsWriteEachState := by
  intro i s t h
  have hw := exec_writesOnly h
  refine ⟨hw.smp ?_, fun _ _ _ => hw.z ?_, fun _ => hw.silence ?_, fun _ _ _ => ⟨hw.peakidx ?_, hw.peakval ?_⟩,
    fun _ _ _ => hw.result ?_, fun _ _ _ _ _ => hw.xin ?_, fun _ _ _ => hw.xout ?_, fun _ _ _ => hw.pwr ?_,
    fun _ _ => hw.mel ?_, fun _ _ => hw.mfcc ?_⟩ <;>
    (cases i <;> simp_all [regionsWritten])

end Sys2Proof.Machine
end

section
/-! 10_state.md: the invariant of the machine, update by update, command by command, and for every step. -/

namespace Sys2Proof.Machine

/-- Settles O60: the reset state lists no byte, reports nothing and is in stage `EMPTY`. -/
theorem resetMeetsTheInvariant : Obligations.ResetMeetsTheInvariant where
  canonical := ⟨List.Pairwise.nil, nofun⟩
  cells := nofun
  report := by decide
  peak := by decide
  stage := fun _ => by decide

/-- The fields the invariant speaks of decide it. -/
theorem State.Inv.congr {s t : State} (h : s.Inv) (hmem : t.mem = s.mem) (hfail : t.fail = s.fail)
    (herr : t.errcode = s.errcode) (hpeak : t.peakidx = s.peakidx) (hstage : t.stage = s.stage) : t.Inv where
  canonical := hmem ▸ h.canonical
  cells := fun c hc => h.cells c (hmem ▸ hc)
  report := by rw [State.ReportAgrees, hfail, herr]; exact h.report
  peak := hpeak ▸ h.peak
  stage := fun hp => hstage ▸ h.stage hp

theorem State.Inv.setZ {s : State} (h : s.Inv) (r : ZReg) (v : Cplx) : (s.setZ r v).Inv :=
  h.congr (s.setZ_mem r v) (s.setZ_fail r v) (s.setZ_errcode r v) (s.setZ_peakidx r v) (s.setZ_stage r v)

theorem State.Inv.respond {s : State} (h : s.Inv) (b : BusResponse) : (s.respond b).Inv := h.congr rfl rfl rfl rfl rfl

theorem State.Inv.setStage {s : State} (h : s.Inv) {g : Stage} (hg : Config.melPresent = false → g.code ≤ 3) :
    (s.setStage g).Inv := ⟨h.canonical, h.cells, h.report, h.peak, hg⟩

theorem State.Inv.setPeak {s : State} (h : s.Inv) {best : F64 × Nat} (hb : best.2 < 512) : (s.setPeak best).Inv where
  canonical := h.canonical
  cells := h.cells
  report := h.report
  peak := by rw [State.setPeak_peakidx, BitVec.toNat_ofNat]; omega
  stage := h.stage

theorem State.Inv.softReset {s : State} (h : s.Inv) : s.softReset.Inv :=
  ⟨h.canonical, h.cells, h.report, Nat.zero_lt_succ 511, fun _ => Nat.zero_le 3⟩

/-- A store within a buffer. -/
theorem State.Inv.store {s : State} (h : s.Inv) {a : Nat} {bs : List Byte}
    (hin : ∀ x, a ≤ x → x < a + bs.length → inBuffers x = true) : State.Inv { s with mem := s.mem.store a bs } where
  canonical := Memory.canonical_store h.canonical a bs
  cells := fun c hc => (Memory.mem_store hc).elim (h.cells c) fun hrun => hin c.1 hrun.1 hrun.2
  report := h.report
  peak := h.peak
  stage := h.stage

/-- The rows of the buffers. -/
def bufferRows : List MapRow := [smpRow, melRow, mfccRow, pwrRow, xinRow, xoutRow]

/-- The rows of the buffers hold offsets of the buffers alone. -/
theorem inBuffers_of_row {r : MapRow} (hr : r ∈ bufferRows) {x : Nat}
    (hx : r.base ≤ x ∧ x < r.base + r.size) : inBuffers x = true := by
  simp only [inBuffers, Bool.or_eq_true, Bool.and_eq_true, decide_eq_true_eq]
  simp only [smpBase, melBase, mfccBase, pwrBase, xinBase, xoutBase]
  simp only [bufferRows, List.mem_cons, List.not_mem_nil, or_false] at hr
  rcases hr with rfl | rfl | rfl | rfl | rfl | rfl <;>
    (simp only [smpRow, melRow, mfccRow, pwrRow, xinRow, xoutRow] at hx; omega)

theorem State.Inv.storeCplxs {s : State} (h : s.Inv) {r : MapRow}
    (hr : r ∈ bufferRows) {vs : List Cplx} (hlen : 16 * vs.length = r.size) :
    (s.storeCplxs r.base vs).Inv :=
  h.store fun _ hlo hhi => inBuffers_of_row hr ⟨hlo, by rwa [length_flatMap_bytesCplx, hlen] at hhi⟩

theorem State.Inv.storeF64s {s : State} (h : s.Inv) {r : MapRow}
    (hr : r ∈ bufferRows) {vs : List F64} (hlen : 8 * vs.length = r.size) :
    (s.storeF64s r.base vs).Inv :=
  h.store fun _ hlo hhi => inBuffers_of_row hr ⟨hlo, by rwa [length_flatMap_bytes64, hlen] at hhi⟩

/-- A report of success, or of a failure whose code is not `OK`, is consistent. -/
theorem State.Inv.succeed {s : State} (h : s.Inv) : s.succeed.Inv :=
  ⟨h.canonical, h.cells, iff_of_true rfl rfl, h.peak, h.stage⟩

theorem State.Inv.failWith {s : State} (h : s.Inv) {c : ErrCode} (hc : c ≠ .ok) : (s.failWith c).Inv :=
  ⟨h.canonical, h.cells, iff_of_false nofun hc, h.peak, h.stage⟩

/-- A scan ends at a bin of its clipped range, or at 0 (R195). -/
theorem scan_snd_lt (v : Nat → F64) (lo hi : Nat) : (scan v lo hi).2 < 512 := by
  rcases foldl_scanStep v (fzero, 0) (scanBins lo hi) with h | ⟨hmem, -, -⟩
  · rw [scan, h]; decide
  · rw [scanBins, List.mem_range'_1] at hmem
    rw [scan, scanBins]
    omega

/-- A sequence keeps the invariant when its steps do, also where it stops early. -/
theorem Ended.inv_andThen {e : Ended} {f : State → Ended} (he : e.state.Inv)
    (hf : ∀ u : State, u.Inv → (f u).state.Inv) : (e.andThen f).state.Inv := by
  cases e with
  | ran u => exact hf u he
  | failed c u => exact he

theorem performLoad_inv (w : Window) {s : State} (h : s.Inv) : (performLoad w s).state.Inv :=
  (h.storeCplxs (r := xinRow) (by decide) (by simp [xinRow])).setStage fun _ => by decide

theorem performDft_inv {s : State} (h : s.Inv) : (performDft s).state.Inv :=
  (h.storeCplxs (r := xoutRow) (by decide) (by simp [xoutRow])).setStage fun _ => by decide

theorem performPower_inv {s : State} (h : s.Inv) : (performPower s).state.Inv := by
  rcases performPower_cases s with hp | hp <;> rw [hp]
  · exact h
  · exact (h.storeF64s (r := pwrRow) (by decide) (by simp [pwrRow])).setStage fun _ => by decide

/-- `MELFB` reaches its stage only with the Mel/DCT unit. -/
theorem performMelfb_inv {s : State} (h : s.Inv) : (performMelfb s).state.Inv := by
  rcases performMelfb_cases s with (hm | hm) | ⟨hunit, hm⟩ <;> rw [hm]
  · exact h
  · exact h
  · exact (h.storeF64s (r := melRow) (by decide) (by simp [melRow])).setStage fun hno => by simp [hunit] at hno

/-- `DCT` reaches its stage only with the Mel/DCT unit. -/
theorem performDct_inv {s : State} (h : s.Inv) : (performDct s).state.Inv := by
  rcases performDct_cases s with (hd | hd) | ⟨hunit, hd⟩ <;> rw [hd]
  · exact h
  · exact h
  · exact (h.storeF64s (r := mfccRow) (by decide) (by simp [mfccRow])).setStage fun hno => by simp [hunit] at hno

theorem performFrame_inv {s : State} (h : s.Inv) : (performFrame s).state.Inv :=
  Ended.inv_andThen (Ended.inv_andThen (performLoad_inv .hann h) fun _ => performDft_inv) fun _ => performPower_inv

theorem performMfcc_inv {s : State} (h : s.Inv) : (performMfcc s).state.Inv :=
  Ended.inv_andThen (Ended.inv_andThen (performFrame_inv h) fun _ => performMelfb_inv) fun _ => performDct_inv

theorem perform_inv (i : Instr) {s : State} (h : s.Inv) : (perform i s).state.Inv := by
  cases i with
  | nop => exact h
  | srst => exact h.softReset
  | cadd | cmul | cexp => exact h.setZ _ _
  | cmag | getpwr => exact h.congr rfl rfl rfl rfl rfl
  | peakre | peakpw => exact h.setPeak (scan_snd_lt _ _ _)
  | loadRect | loadHann | loadHamm => exact performLoad_inv _ h
  | dft => exact performDft_inv h
  | power => exact performPower_inv h
  | melfb => exact performMelfb_inv h
  | dct => exact performDct_inv h
  | frame => exact performFrame_inv h
  | mfcc => exact performMfcc_inv h

/-- Every command keeps the invariant. -/
theorem exec_inv {i : Instr} {s t : State} (h : s.Inv) (he : exec i s = .next t) : t.Inv := by
  rw [exec_eq_next_iff] at he
  subst he
  have hstate := perform_inv i h
  cases hend : perform i s with
  | ran u => rw [hend] at hstate; exact hstate.succeed
  | failed c u =>
    rw [hend] at hstate
    exact hstate.failWith fun hc => by simpa [hc] using (perform_failed hend).1

/-- Every word written to `CMD` keeps the invariant, the illegal ones too. -/
theorem runCommand_inv {c : Word32} {s t : State} (h : s.Inv) (hr : runCommand c s = .next t) : t.Inv := by
  cases hd : decode c with
  | command i => exact exec_inv h (runCommand_of_decode_command hd s ▸ hr)
  | illegal why =>
    simp only [runCommand, hd, Host.Outcome.next.injEq] at hr
    exact hr ▸ h.failWith nofun

/-- A word stored at an aligned offset of a buffer lies in the buffer. -/
theorem State.Inv.storeWord {s : State} (h : s.Inv) {r : MapRow}
    (hr : r ∈ bufferRows) {off : Nat} (ha : off % 4 = 0)
    (hoff : r.base ≤ off ∧ off < r.base + r.size) (w : Word32) : (s.storeWord off w).Inv := by
  have haligned : r.base % 4 = 0 ∧ r.size % 4 = 0 := by
    have : ∀ r ∈ bufferRows, r.base % 4 = 0 ∧ r.size % 4 = 0 := by decide
    exact this r hr
  exact h.store fun x hlo hhi => inBuffers_of_row hr ⟨by omega, by rw [length_bytes32] at hhi; omega⟩

/-- A write that executes no command keeps the invariant (R67). -/
theorem writeRegion_inv {s : State} (h : s.Inv) {off : Nat} {r : MapRow} (hrow : rowAt off = some r) (ha : off % 4 = 0)
    (rel : Nat) (w : Word32) : (writeRegion s r.region off rel w).Inv := by
  obtain ⟨hmem, hoff⟩ := rowAt_bounds hrow
  have hbuffer : ∀ q ∈ windowMap, q.region = .smp ∨ q.region = .xin → q ∈ bufferRows := by decide
  cases hg : r.region with
  | silence => exact h.congr rfl rfl rfl rfl rfl
  | z => exact h.setZ _ _
  | smp => exact h.storeWord (hbuffer r hmem (.inl hg)) ha hoff w
  | xin => exact h.storeWord (hbuffer r hmem (.inr hg)) ha hoff w
  | _ => exact h

/-- The accesses that succeed: of a word, aligned and mapped (R63, R246). -/
theorem busErrorOf_eq_false_iff {a : HostAccess} :
    busErrorOf a = false ↔ a.size = 4 ∧ a.offset % 4 = 0 ∧ ∃ r, rowAt a.offset = some r := by
  simp [busErrorOf, and_assoc, ← Option.isSome_iff_exists, Option.isNone_eq_false_iff]

/-- A write to the row of `CMD` runs the word written. -/
theorem performWrite_cmd {r : MapRow} (h : r.region = .cmd) (off : Nat) (v : Word32) (s : State) :
    performWrite r off v s = runCommand v (s.respond .written) := if_pos h

/-- An idle step answers the same state (R257). -/
theorem step_of_pending_nil {s : State} (h : s.pending = []) : step s = .next s := by
  unfold step performEvent
  rw [h]

/-- What an access that answers can have done: nothing but its answer, the command of a word written to `CMD`, or the write
of a word at an aligned mapped offset. -/
theorem performAccess_next {a : HostAccess} {s t : State} (h : performAccess a s = .next t) :
    (∃ b, t = s.respond b) ∨ (∃ c, runCommand c (s.respond .written) = .next t) ∨
      ∃ off r w, rowAt off = some r ∧ off % 4 = 0 ∧ t = (writeRegion s r.region off (off - r.base) w).respond .written := by
  rcases Nat.lt_or_ge a.offset Config.windowBytes with hin | hout
  · cases hbad : busErrorOf a with
    | true =>
      rw [performAccess_busError hin hbad] at h
      exact .inl ⟨_, (Host.Outcome.next.inj h).symm⟩
    | false =>
      obtain ⟨hsize, haligned, r, hrow⟩ := busErrorOf_eq_false_iff.mp hbad
      cases a with
      | read off size =>
        cases hsize
        rw [performAccess_read (off := off) hrow haligned] at h
        exact .inl ⟨_, (Host.Outcome.next.inj h).symm⟩
      | write off size v =>
        cases hsize
        rw [performAccess_write (off := off) hrow haligned] at h
        by_cases hcmd : r.region = .cmd
        · rw [performWrite_cmd hcmd] at h
          exact .inr (.inl ⟨v, h⟩)
        · rw [performWrite_plain hcmd] at h
          exact .inr (.inr ⟨off, r, v, hrow, haligned, (Host.Outcome.next.inj h).symm⟩)
  · rw [performAccess_outside hout] at h
    cases h

/-- Every access that answers keeps the invariant. -/
theorem performAccess_inv {a : HostAccess} {s t : State} (h : s.Inv) (ha : performAccess a s = .next t) : t.Inv := by
  rcases performAccess_next ha with ⟨b, rfl⟩ | ⟨c, hc⟩ | ⟨off, r, w, hrow, haligned, rfl⟩
  · exact h.respond b
  · exact runCommand_inv (h.respond .written) hc
  · exact (writeRegion_inv h hrow haligned _ w).respond .written

/-- A hardware reset meets the invariant whatever the state before: its draws list bytes of the buffers alone (R260). -/
theorem hardwareReset_inv (s : State) : s.hardwareReset.Inv where
  canonical := canonical_unspecifiedMemory s.draws
  cells := cells_unspecifiedMemory s.draws
  report := iff_of_true rfl rfl
  peak := Nat.zero_lt_succ 511
  stage := fun _ => Nat.zero_le 3

/-- Settles O59, by the kinds of the oldest event. -/
theorem everyStepKeepsTheInvariant : Obligations.EveryStepKeepsTheInvariant := by
  intro s t h hstep
  rcases hp : s.pending with _ | ⟨a | _ | a, rest⟩
  · rw [step_of_pending_nil hp] at hstep
    exact Host.Outcome.next.inj hstep ▸ h
  · rw [step_host hp] at hstep
    exact performAccess_inv (s := { s with pending := rest }) (h.congr rfl rfl rfl rfl rfl) hstep
  · rw [step_reset hp] at hstep
    exact Host.Outcome.next.inj hstep ▸ hardwareReset_inv _
  · rw [step_foreign hp] at hstep
    cases hstep

end Sys2Proof.Machine
end

section
/-! 20_memory.md R62, R68, R70: the words of a binary64, of a complex value and of a buffer, read and replaced. -/

namespace Sys2Proof.Machine

@[simp] theorem lowWord_append (x y : Word32) : lowWord (x ++ y) = y := BitVec.extractLsb'_append_eq_right

@[simp] theorem highWord_append (x y : Word32) : highWord (x ++ y) = x := BitVec.extractLsb'_append_eq_left

@[simp] theorem replaceWord_low (x : F64) (w : Word32) : replaceWord x false w = highWord x ++ w := rfl

@[simp] theorem replaceWord_high (x : F64) (w : Word32) : replaceWord x true w = w ++ lowWord x := rfl

/-- Word `j` replaced reads as the word it was replaced by (R67). -/
theorem cplxWord_cplxSetWord_same (v : Cplx) (j : Nat) (w : Word32) : cplxWord (cplxSetWord v j w) j = w := by
  rcases j with _ | _ | _ | j <;> simp [cplxWord, cplxSetWord]

/-- The three words of a complex value that are not replaced stay (R68). -/
theorem cplxWord_cplxSetWord_of_ne (v : Cplx) {j k : Nat} (hj : j < 4) (hk : k < 4) (hne : k ≠ j) (w : Word32) :
    cplxWord (cplxSetWord v j w) k = cplxWord v k := by
  interval_cases j <;> interval_cases k <;> simp [cplxWord, cplxSetWord] at hne ⊢

/-- The four registers of the file are distinct (R21). -/
theorem zregOfIndex_inj : ∀ i < 4, ∀ j < 4, zregOfIndex i = zregOfIndex j → i = j := by decide

/-- A word that a word store does not overlap reads as before. -/
theorem Memory.word_store_of_disjoint (m : Memory) {a b : Nat} (h : b + 4 ≤ a ∨ a + 4 ≤ b) (w : Word32) :
    (m.store a (bytes32 w)).word b = m.word b :=
  Memory.word_congr fun j hj => Memory.byte_store_outside (by rw [length_bytes32]; omega)

/-- A word is two halves, the one at the lower offset in the low bits (R62). -/
theorem Memory.word_eq_halves (m : Memory) (a : Nat) : m.word a = m.half (a + 2) ++ m.half a := by
  unfold Memory.word Memory.half
  rw [BitVec.append_assoc]
  rfl

@[simp] theorem Memory.lowWord_f64 (m : Memory) (a : Nat) : lowWord (m.f64 a) = m.word a := lowWord_append _ _

@[simp] theorem Memory.highWord_f64 (m : Memory) (a : Nat) : highWord (m.f64 a) = m.word (a + 4) := highWord_append _ _

/-- A binary64 whose two words are known. -/
theorem Memory.f64_eq_of_words {m : Memory} {a : Nat} {high low : Word32} (hhigh : m.word (a + 4) = high)
    (hlow : m.word a = low) : m.f64 a = high ++ low := by
  rw [Memory.f64, hhigh, hlow]

/-- A word stored over word `j` of a complex element replaces that word of the element and keeps the others (R67, R68). -/
theorem Memory.cplx_store_word (m : Memory) (a : Nat) {j : Nat} (hj : j < 4) (w : Word32) :
    (m.store (a + 4 * j) (bytes32 w)).cplx a = cplxSetWord (m.cplx a) j w := by
  have hword : ∀ k < 4, (m.store (a + 4 * j) (bytes32 w)).word (a + 4 * k) = if k = j then w else m.word (a + 4 * k) := by
    intro k hk
    split
    next h => rw [h, Memory.word_store]
    next h => exact m.word_store_of_disjoint (by omega) w
  unfold Memory.cplx
  rw [Memory.f64_eq_of_words (a := a) (hword 1 (by decide)) (hword 0 (by decide)),
    Memory.f64_eq_of_words (a := a + 8) (hword 3 (by decide)) (hword 2 (by decide))]
  interval_cases j <;> simp [cplxSetWord, Memory.f64]

/-- The row at an offset of a buffer is the buffer's (R61). -/
theorem rowAt_of_mem_bufferRows {r : MapRow} (hr : r ∈ bufferRows) {off : Nat}
    (hoff : r.base ≤ off ∧ off < r.base + r.size) : rowAt off = some r :=
  have hmap : ∀ q ∈ bufferRows, q ∈ windowMap := by decide
  rowAt_eq_some_iff.mpr ⟨hmap r hr, hoff⟩

/-- In a buffer a read returns the word of the memory (R66). -/
theorem readWord_buffer {r : MapRow} (hr : r ∈ bufferRows) (s : State) {off : Nat}
    (hoff : r.base ≤ off ∧ off < r.base + r.size) : readWord s off = some (s.mem.word off) := by
  rw [readWord_of_row (rowAt_of_mem_bufferRows hr hoff)]
  simp only [bufferRows, List.mem_cons, List.not_mem_nil, or_false] at hr
  rcases hr with rfl | rfl | rfl | rfl | rfl | rfl <;> rfl

/-- Element `k` of a buffer of binary64 data reads low word first (R62). -/
theorem readWord_f64 {r : MapRow} (hr : r ∈ bufferRows) (s : State) {k : Nat} (hk : 8 * k + 8 ≤ r.size) :
    readWord s (r.base + 8 * k) = some (lowWord (s.mem.f64 (r.base + 8 * k))) ∧
    readWord s (r.base + 4 + 8 * k) = some (highWord (s.mem.f64 (r.base + 8 * k))) := by
  constructor <;> rw [readWord_buffer hr s (by omega)]
  · rw [Memory.lowWord_f64]
  · rw [Memory.highWord_f64, Nat.add_right_comm]

/-- Element `k` of a buffer of complex data reads real part first, each part low word first (R62, R68). -/
theorem readWord_cplx {r : MapRow} (hr : r ∈ bufferRows) (s : State) {k : Nat} (hk : 16 * k + 16 ≤ r.size) :
    readWord s (r.base + 16 * k) = some (lowWord (s.mem.cplx (r.base + 16 * k)).re) ∧
    readWord s (r.base + 4 + 16 * k) = some (highWord (s.mem.cplx (r.base + 16 * k)).re) ∧
    readWord s (r.base + 8 + 16 * k) = some (lowWord (s.mem.cplx (r.base + 16 * k)).im) ∧
    readWord s (r.base + 12 + 16 * k) = some (highWord (s.mem.cplx (r.base + 16 * k)).im) := by
  unfold Memory.cplx
  refine ⟨?_, ?_, ?_, ?_⟩ <;> rw [readWord_buffer hr s (by omega)]
  · rw [Memory.lowWord_f64]
  · rw [Memory.highWord_f64, Nat.add_right_comm]
  · rw [Memory.lowWord_f64, Nat.add_right_comm]
  · rw [Memory.highWord_f64, Nat.add_right_comm, Nat.add_assoc _ 8 4]

/-- Two samples stand in a word of `SMP`, the lower index in the low half (R70). -/
theorem readWord_smp (s : State) {j : Nat} (hj : j < 256) :
    readWord s (0x0400 + 4 * j) = some (s.smp (2 * j + 1) ++ s.smp (2 * j)) := by
  rw [readWord_buffer (r := smpRow) (by decide) s (by simp only [smpRow]; omega), Memory.word_eq_halves]
  unfold State.smp smpBase
  rw [show 0x0400 + 2 * (2 * j) = 0x0400 + 4 * j by omega, show 0x0400 + 2 * (2 * j + 1) = 0x0400 + 4 * j + 2 by omega]

/-- Settles O12: every buffer is a row of the map, whose words are those of its elements in order. -/
theorem bufferWordsAtTheirOffsets : Obligations.BufferWordsAtTheirOffsets := by
  intro s
  refine ⟨fun j => readWord_smp s, fun i hi => readWord_cplx (r := xinRow) (by decide) s ?_,
    fun k hk => readWord_cplx (r := xoutRow) (by decide) s ?_, fun k hk => readWord_f64 (r := pwrRow) (by decide) s ?_,
    fun m hm => readWord_f64 (r := melRow) (by decide) s ?_, fun n hn => readWord_f64 (r := mfccRow) (by decide) s ?_⟩ <;>
    simp only [xinRow, xoutRow, pwrRow, melRow, mfccRow] <;> omega

end Sys2Proof.Machine
end

section
/-! 20_memory.md R65, R66, R75, R246: which accesses answer, and with what. -/

namespace Sys2Proof.Machine

theorem SameHostSide.refl (s : State) : SameHostSide s s := ⟨rfl, rfl, rfl⟩

theorem SameHostSide.trans {s t u : State} (h : SameHostSide s t) (k : SameHostSide t u) : SameHostSide s u := by
  obtain ⟨hpending, hresponse, hdraws⟩ := h
  obtain ⟨kpending, kresponse, kdraws⟩ := k
  exact ⟨kpending.trans hpending, kresponse.trans hresponse, kdraws.trans hdraws⟩

theorem SameHostSide.setZ (s : State) (r : ZReg) (v : Cplx) : SameHostSide s (s.setZ r v) :=
  ⟨s.setZ_pending r v, s.setZ_response r v, s.setZ_draws r v⟩

/-- A sequence leaves the model's own fields alone when its steps do, also where it stops early. -/
theorem Ended.sameHostSide_andThen {s : State} {e : Ended} {f : State → Ended} (he : SameHostSide s e.state)
    (hf : ∀ u, SameHostSide u (f u).state) : SameHostSide s (e.andThen f).state := by
  cases e with
  | ran u => exact he.trans (hf u)
  | failed c u => exact he

theorem performPower_sameHostSide (s : State) : SameHostSide s (performPower s).state := by
  rcases performPower_cases s with h | h <;> rw [h] <;> exact ⟨rfl, rfl, rfl⟩

theorem performMelfb_sameHostSide (s : State) : SameHostSide s (performMelfb s).state := by
  rcases performMelfb_cases s with (h | h) | ⟨-, h⟩ <;> rw [h] <;> exact ⟨rfl, rfl, rfl⟩

theorem performDct_sameHostSide (s : State) : SameHostSide s (performDct s).state := by
  rcases performDct_cases s with (h | h) | ⟨-, h⟩ <;> rw [h] <;> exact ⟨rfl, rfl, rfl⟩

theorem performFrame_sameHostSide (s : State) : SameHostSide s (performFrame s).state :=
  Ended.sameHostSide_andThen (Ended.sameHostSide_andThen ⟨rfl, rfl, rfl⟩ fun _ => ⟨rfl, rfl, rfl⟩) performPower_sameHostSide

theorem performMfcc_sameHostSide (s : State) : SameHostSide s (performMfcc s).state :=
  Ended.sameHostSide_andThen (Ended.sameHostSide_andThen (performFrame_sameHostSide s) performMelfb_sameHostSide)
    performDct_sameHostSide

/-- No command touches the accesses pending, the answer given or the count of resets. -/
theorem perform_sameHostSide (i : Instr) (s : State) : SameHostSide s (perform i s).state := by
  cases i with
  | nop => exact .refl s
  | cadd | cmul | cexp => exact .setZ s _ _
  | srst | cmag | getpwr | peakre | peakpw | loadRect | loadHann | loadHamm | dft => exact ⟨rfl, rfl, rfl⟩
  | power => exact performPower_sameHostSide s
  | melfb => exact performMelfb_sameHostSide s
  | dct => exact performDct_sameHostSide s
  | frame => exact performFrame_sameHostSide s
  | mfcc => exact performMfcc_sameHostSide s

/-- The report is outside the model's own fields. -/
theorem Ended.sameHostSide_report {s : State} {e : Ended} (h : SameHostSide s e.state) : SameHostSide s e.report := by
  cases e <;> exact h.trans ⟨rfl, rfl, rfl⟩

/-- Every word written to `CMD`, legal or not, runs to a next state with the model's own fields as they were. -/
theorem runCommand_sameHostSide (c : Word32) (s : State) : ∃ t, runCommand c s = .next t ∧ SameHostSide s t := by
  cases hd : decode c with
  | command i =>
    exact ⟨_, (runCommand_of_decode_command hd s).trans (exec_eq_report i s),
      Ended.sameHostSide_report (perform_sameHostSide i s)⟩
  | illegal why => exact ⟨s.failWith .illcmd, by simp only [runCommand, hd], rfl, rfl, rfl⟩

/-- An access that does not end with `BusError` answers data, or that the word is written (R66, R67). -/
theorem performAccess_answers {a : HostAccess} (h : busErrorOf a = false) (s : State) :
    ∃ t, performAccess a s = .next t ∧ t.response ≠ some .busError := by
  obtain ⟨hsize, haligned, r, hrow⟩ := busErrorOf_eq_false_iff.mp h
  cases a with
  | read off size =>
    cases hsize
    exact ⟨_, performAccess_read (off := off) hrow haligned s, nofun⟩
  | write off size v =>
    cases hsize
    rw [performAccess_write (off := off) hrow haligned]
    by_cases hcmd : r.region = .cmd
    · obtain ⟨t, ht, -, hresponse, -⟩ := runCommand_sameHostSide v (s.respond .written)
      exact ⟨t, (performWrite_cmd hcmd off v s).trans ht, by rw [hresponse]; nofun⟩
    · exact ⟨_, performWrite_plain hcmd off v s, nofun⟩

/-- The accesses of the window that end with `BusError`, with the unmapped offsets written out (R61, R246). -/
theorem busErrorOf_eq_true_iff {a : HostAccess} (hw : a.offset < 0x6000) :
    busErrorOf a = true ↔ a.size ≠ 4 ∨ a.offset % 4 ≠ 0 ∨
      ((0x28 ≤ a.offset ∧ a.offset ≤ 0x3F) ∨ (0x80 ≤ a.offset ∧ a.offset ≤ 0x3FF) ∨
        (0x8D0 ≤ a.offset ∧ a.offset ≤ 0x8FF) ∨ (0x960 ≤ a.offset ∧ a.offset ≤ 0xFFF)) := by
  rw [← Bool.not_eq_false, busErrorOf_eq_false_iff, ← Option.isSome_iff_exists, rowAt_isSome_iff_mapped]
  omega

/-- Settles O7: `busErrorOf` is the bad accesses, and every other access answers. -/
theorem busErrorsAreExactlyTheBadAccesses : Obligations.BusErrorsAreExactlyTheBadAccesses := by
  intro s a rest hpending hwindow
  have hbad := busErrorOf_eq_true_iff hwindow
  rw [step_host hpending]
  refine ⟨fun h => performAccess_busError hwindow (hbad.mpr h) _, fun hsize haligned hmapped => ?_⟩
  refine performAccess_answers (Bool.eq_false_iff.mpr fun h => ?_) _
  rcases hbad.mp h with h | h | h
  · exact h hsize
  · exact h haligned
  · exact hmapped h

/-- Settles O16, by the kinds of the oldest event. -/
theorem stepStopsOnlyOutsideTheContract : Obligations.StepStopsOnlyOutsideTheContract := by
  intro s
  refine ⟨fun a rest hp hout => ?_, fun a rest hp => step_foreign hp, fun hin hown => ?_⟩
  · rw [step_host hp, performAccess_outside hout]
  · rcases hp : s.pending with _ | ⟨a | _ | a, rest⟩
    · exact ⟨s, step_of_pending_nil hp⟩
    · rw [step_host hp]
      cases hbad : busErrorOf a with
      | true => exact ⟨_, performAccess_busError (hin a rest hp) hbad _⟩
      | false =>
        obtain ⟨t, ht, -⟩ := performAccess_answers hbad { s with pending := rest }
        exact ⟨t, ht⟩
    · exact ⟨_, step_reset hp⟩
    · exact absurd hp (hown a rest)

/-- The model's own fields have no part in what a read returns (R66). -/
theorem readWord_hostSide (s : State) (rest : List BusEvent) (b : Option BusResponse) (off : Nat) :
    readWord { s with pending := rest, response := b } off = readWord s off := rfl

/-- A read at an aligned mapped offset takes the access, answers the word there and does nothing else (R66). -/
theorem step_read {s : State} {off : Nat} {rest : List BusEvent} (h : s.pending = .host (.read off 4) :: rest)
    (hoff : AccessibleOffset off) :
    ∃ w, readWord s off = some w ∧ step s = .next { s with pending := rest, response := some (.data w) } := by
  obtain ⟨haligned, hmapped⟩ := hoff
  obtain ⟨r, hrow⟩ := Option.isSome_iff_exists.mp hmapped
  refine ⟨_, (readWord_hostSide s rest s.response off).symm.trans (readWord_of_row hrow _), ?_⟩
  rw [step_host h, performAccess_read hrow haligned]
  rfl

/-- The reserved bits of `STATUS` read 0 (R24): the mask is 0 at each stored field, and each other field is 0. -/
theorem statusWord_reserved (s : State) : statusWord s &&& 0xFFFF080E#32 = 0#32 := by
  rw [show 0xFFFF080E#32 = 0xFFFF#16 ++ 0#4 ++ 1#1 ++ 0#3 ++ 0#4 ++ 3#2 ++ 1#1 ++ 0#1 from rfl]
  unfold statusWord
  iterate 7 rw [BitVec.and_append]
  simp only [BitVec.and_zero, BitVec.zero_and]
  rfl

/-- A word that holds an `n`-bit value has no bit set above it. -/
theorem setWidth_and_high {n : Nat} (x : BitVec n) : x.setWidth 32 &&& (BitVec.allOnes 32 <<< n) = 0#32 := by
  apply BitVec.eq_of_getLsbD_eq
  intro i hi
  by_cases h : i < n
  · simp [h]
  · simp [BitVec.getLsbD_of_ge x i (by omega)]

/-- The reserved bits of `CAP` read 0, with and without the Mel/DCT unit (R28). -/
theorem capWord_reserved : capWord &&& 0xFF00000E#32 = 0#32 := by
  unfold capWord
  cases Config.melPresent <;> decide

/-- Settles O8: the reserved bits are pieces of the word read that are constantly 0. -/
theorem readsHaveNoSideEffect : Obligations.ReadsHaveNoSideEffect :=
  ⟨fun _ _ _ => step_read, fun s => ⟨rfl, ⟨_, readWord_status s, statusWord_reserved s⟩,
    ⟨_, rfl, setWidth_and_high s.silence⟩, ⟨_, rfl, setWidth_and_high s.peakidx⟩,
    ⟨_, readWord_cap s, capWord_reserved⟩⟩⟩

end Sys2Proof.Machine
end

section
/-! 20_memory.md R67, R68: what a write that executes no command changes, and what every other word reads after it. -/

namespace Sys2Proof.Machine

/-- A range of the map has one row (R61). -/
theorem row_of_region : ∀ r ∈ windowMap, ∀ q ∈ windowMap, q.region = r.region → q = r := by decide

/-- The rows are made of whole words (R61). -/
theorem row_aligned : ∀ r ∈ windowMap, r.base % 4 = 0 ∧ r.size % 4 = 0 := by decide

/-- The states before and after a change within the ranges `ws`, the report and the stage kept, read the same words outside
`ws`. -/
theorem WritesOnly.readWord {ws : List Region} {s t : State} (h : WritesOnly ws s t) (hstatus : statusWord t = statusWord s)
    {off : Nat} {r : MapRow} (hrow : rowAt off = some r) (haligned : off % 4 = 0) (hr : r.region ∉ ws) :
    readWord t off = readWord s off := by
  obtain ⟨hmem, hoff⟩ := rowAt_bounds hrow
  obtain ⟨hbase, hsize⟩ := row_aligned r hmem
  have hword : t.mem.word off = s.mem.word off :=
    Memory.word_congr fun j hj => h.bytes r hmem hr (off + j) (by omega) (by omega)
  rw [readWord_of_row hrow, readWord_of_row hrow]
  congr 1
  cases hg : r.region <;> rw [hg] at hr
  case id | cap | cmd => rfl
  case status => exact hstatus
  case silence => exact congrArg (·.setWidth 32) (h.silence hr)
  case peakidx => exact congrArg (·.setWidth 32) (h.peakidx hr)
  case peakval => exact congrArg (halfAt · _) (h.peakval hr)
  case result => exact congrArg (halfAt · _) (h.result hr)
  case z => exact congrArg (cplxWord · _) (h.z hr _)
  case smp | mel | mfcc | pwr | xin | xout => exact hword

/-- A write that executes no command leaves the report, the stage and the model's own fields as they were (R67). -/
theorem writeRegion_frame (s : State) (g : Region) (off rel : Nat) (w : Word32) :
    statusWord (writeRegion s g off rel w) = statusWord s ∧ SameHostSide s (writeRegion s g off rel w) := by
  cases g
  case z =>
    exact ⟨statusWord_congr (State.setZ_fail _ _ _) (State.setZ_errcode _ _ _) (State.setZ_stage _ _ _), .setZ s _ _⟩
  all_goals exact ⟨rfl, rfl, rfl, rfl⟩

/-- A write that executes no command writes its range alone (R67). -/
theorem writeRegion_writesOnly (s : State) {off : Nat} {r : MapRow} (hrow : rowAt off = some r) (haligned : off % 4 = 0)
    (rel : Nat) (w : Word32) : WritesOnly [r.region] s (writeRegion s r.region off rel w) := by
  obtain ⟨hmem, hoff⟩ := rowAt_bounds hrow
  obtain ⟨hbase, hsize⟩ := row_aligned r hmem
  have hstore : WritesOnly [r.region] s (s.storeWord off w) :=
    .of_row hmem (fun q => s.getZ_storeWord off w q) ⟨rfl, rfl, rfl, rfl⟩ fun a ha => s.byte_storeWord (by omega)
  cases hg : r.region with
  | silence =>
    exact ⟨fun _ q => by cases q <;> rfl, fun h => absurd (.head _) h, fun _ => rfl, fun _ => rfl, fun _ => rfl,
      fun _ _ _ _ _ _ => rfl⟩
  | z => exact .setZ s _ _
  | smp | xin => rw [hg] at hstore; exact hstore
  | _ => exact .refl _ s

/-- A word of the complex register file written leaves the other words of the file (R67, R68). -/
theorem cplxWord_setZWord_of_ne (s : State) {rel q : Nat} (hrel : rel < 64) (hq : q < 64) (hne : q / 4 ≠ rel / 4)
    (w : Word32) : cplxWord ((s.setZWord rel w).getZ (zregOfIndex (q / 16))) (q % 16 / 4) =
      cplxWord (s.getZ (zregOfIndex (q / 16))) (q % 16 / 4) := by
  rw [State.setZWord, State.getZ_setZ]
  split
  next h =>
    have := zregOfIndex_inj _ (by omega) _ (by omega) h
    rw [cplxWord_cplxSetWord_of_ne _ (by omega) (by omega) (by omega), h]
  next => rfl

/-- A write that executes no command leaves the other words of its own range (R67). -/
theorem readRegion_writeRegion_of_ne (s : State) {off o : Nat} {r : MapRow} (hrow : rowAt off = some r)
    (hrow' : rowAt o = some r) (haligned : off % 4 = 0) (haligned' : o % 4 = 0) (hne : o ≠ off) (w : Word32) :
    readRegion (writeRegion s r.region off (off - r.base) w) r.region o (o - r.base) =
      readRegion s r.region o (o - r.base) := by
  obtain ⟨hmem, hoff⟩ := rowAt_bounds hrow
  obtain ⟨-, hoff'⟩ := rowAt_bounds hrow'
  cases hg : r.region with
  | silence =>
    rw [row_of_region ⟨.silence, 0x0010, 4, .rw⟩ (by decide) r hmem hg] at hoff hoff'
    simp only at hoff hoff'
    omega
  | z =>
    rw [row_of_region ⟨.z, 0x0040, 64, .rw⟩ (by decide) r hmem hg] at hoff hoff' ⊢
    simp only at hoff hoff' ⊢
    exact cplxWord_setZWord_of_ne s (by omega) (by omega) (by omega) w
  | smp | xin => exact s.mem.word_store_of_disjoint (by omega) w
  | _ => rfl

/-- A write that executes no command leaves every other word of the window (R67). -/
theorem readWord_writeRegion_of_ne (s : State) {off o : Nat} {r : MapRow} (hrow : rowAt off = some r)
    (haligned : off % 4 = 0) (ho : AccessibleOffset o) (hne : o ≠ off) (w : Word32) :
    readWord (writeRegion s r.region off (off - r.base) w) o = readWord s o := by
  obtain ⟨haligned', hmapped⟩ := ho
  obtain ⟨q, hrow'⟩ := Option.isSome_iff_exists.mp hmapped
  by_cases hregion : q.region = r.region
  · obtain rfl := row_of_region r (rowAt_bounds hrow).1 q (rowAt_bounds hrow').1 hregion
    rw [readWord_of_row hrow', readWord_of_row hrow', readRegion_writeRegion_of_ne s hrow hrow' haligned haligned' hne]
  · exact (writeRegion_writesOnly s hrow haligned _ w).readWord (writeRegion_frame s _ off _ w).1 hrow' haligned'
      (mt List.mem_singleton.mp hregion)

/-- An RW range other than `SILENCE` reads as written (R67). -/
theorem readRegion_writeRegion_same (s : State) {g : Region} (hg : g = .z ∨ g = .smp ∨ g = .xin) (off rel : Nat)
    (w : Word32) : readRegion (writeRegion s g off rel w) g off rel = w := by
  rcases hg with rfl | rfl | rfl
  · simp only [readRegion, writeRegion, State.setZWord, State.getZ_setZ, if_true, cplxWord_cplxSetWord_same]
  · exact s.mem.word_store off w
  · exact s.mem.word_store off w

/-- A write to an RO range is ignored (R67). -/
theorem writeRegion_ro {r : MapRow} (hr : r ∈ windowMap) (hro : r.rights = .ro) (s : State) (off rel : Nat) (w : Word32) :
    writeRegion s r.region off rel w = s := by
  have hregion : ∀ q ∈ windowMap, q.rights = .ro →
      q.region ≠ .silence ∧ q.region ≠ .z ∧ q.region ≠ .smp ∧ q.region ≠ .xin := by decide
  obtain ⟨hsilence, hz, hsmp, hxin⟩ := hregion r hr hro
  cases hg : r.region with
  | silence => exact absurd hg hsilence
  | z => exact absurd hg hz
  | smp => exact absurd hg hsmp
  | xin => exact absurd hg hxin
  | _ => rfl

/-- A write at an aligned mapped offset other than `CMD` takes the access, writes the word and answers (R67). -/
theorem step_write {s : State} {off : Nat} {v : Word32} {rest : List BusEvent} {r : MapRow}
    (h : s.pending = .host (.write off 4 v) :: rest) (haligned : off % 4 = 0) (hrow : rowAt off = some r)
    (hcmd : off ≠ 0x0008) :
    step s = .next ((writeRegion { s with pending := rest } r.region off (off - r.base) v).respond .written) := by
  rw [step_host h, performAccess_write hrow haligned]
  refine performWrite_plain (fun hg => hcmd ?_) off v _
  obtain ⟨hmem, hoff⟩ := rowAt_bounds hrow
  rw [row_of_region ⟨.cmd, 0x0008, 4, .wo⟩ (by decide) r hmem hg] at hoff
  simp only at hoff
  omega

/-- Settles O9: the other words by `readWord_writeRegion_of_ne`, the word itself by the row it lies in. -/
theorem writeReplacesOnlyItsWord : Obligations.WriteReplacesOnlyItsWord := by
  intro s off v rest r hpending haligned hrow hcmd
  have hmem := (rowAt_bounds hrow).1
  obtain ⟨-, hpend, -, hdraws⟩ := writeRegion_frame { s with pending := rest } r.region off (off - r.base) v
  refine ⟨_, step_write hpending haligned hrow hcmd, rfl, hpend, hdraws, fun o ho hne => ?_, fun hrw hsilence => ?_,
    fun hsilence => ?_, fun hro => ?_⟩
  · exact readWord_writeRegion_of_ne { s with pending := rest } hrow haligned ho hne v
  · have hregion : ∀ q ∈ windowMap, q.rights = .rw → q = ⟨.silence, 0x0010, 4, .rw⟩ ∨
        q.region = .z ∨ q.region = .smp ∨ q.region = .xin := by decide
    rcases hregion r hmem hrw with rfl | hg
    · have := (rowAt_bounds hrow).2
      simp only at this
      omega
    · exact (readWord_of_row hrow _).trans (congrArg some (readRegion_writeRegion_same _ hg off _ v))
  · subst hsilence
    obtain rfl : r = ⟨.silence, 0x0010, 4, .rw⟩ := Option.some.inj (hrow.symm.trans (by decide))
    exact ⟨rfl, congrArg some (BitVec.setWidth_eq_append (by decide))⟩
  · rw [writeRegion_ro hmem hro]
    rfl

/-- A write of word `j` of element `i` of `XIN` replaces that word of the element (R67, R68). -/
theorem step_write_xin {s : State} {i j off : Nat} {v : Word32} {rest : List BusEvent} (hi : i < 512) (hj : j < 4)
    (hoff : off = 0x2000 + 16 * i + 4 * j) (h : s.pending = .host (.write off 4 v) :: rest) :
    ∃ t, step s = .next t ∧ t.xin i = cplxSetWord (s.xin i) j v := by
  have hrow : rowAt off = some xinRow :=
    rowAt_of_mem_bufferRows (by decide) (by simp only [xinRow]; omega)
  refine ⟨_, step_write h (by omega) hrow (by omega), ?_⟩
  subst hoff
  exact s.mem.cplx_store_word (0x2000 + 16 * i) hj v

/-- Settles O10: the four words of an element are its words 0 to 3. -/
theorem halfWrittenDoubleIsMixed : Obligations.HalfWrittenDoubleIsMixed := fun _ _ _ _ hi =>
  ⟨step_write_xin (j := 0) hi (by decide) (by omega), step_write_xin (j := 1) hi (by decide) (by omega),
    step_write_xin (j := 2) hi (by decide) (by omega), step_write_xin (j := 3) hi (by decide) (by omega)⟩

end Sys2Proof.Machine
end

section
/-! 30_encoding.md R91, R92, R95, R100: decoding and encoding invert each other. -/

namespace Sys2Proof

/-- The fields of a format Z3 word. -/
theorem fields_encodeZ3 (op : Opcode) (zd za zb : ZReg) :
    field (encodeZ3 op zd za zb) 0 8 = op.code ∧ field (encodeZ3 op zd za zb) 8 2 = zd.code ∧
      field (encodeZ3 op zd za zb) 10 2 = za.code ∧ field (encodeZ3 op zd za zb) 12 2 = zb.code := by
  unfold field encodeZ3
  refine ⟨?_, ?_, ?_, ?_⟩ <;>
    simp (disch := omega) only [extract_append_low, extract_append_high, Nat.reduceSub, extract_all]

/-- The fields of a format Z2 word. -/
theorem fields_encodeZ2 (op : Opcode) (zd za : ZReg) :
    field (encodeZ2 op zd za) 0 8 = op.code ∧ field (encodeZ2 op zd za) 8 2 = zd.code ∧
      field (encodeZ2 op zd za) 10 2 = za.code := by
  unfold field encodeZ2
  refine ⟨?_, ?_, ?_⟩ <;>
    simp (disch := omega) only [extract_append_low, extract_append_high, Nat.reduceSub, extract_all]

/-- The fields of a format Z1 word. -/
theorem fields_encodeZ1 (op : Opcode) (za : ZReg) :
    field (encodeZ1 op za) 0 8 = op.code ∧ field (encodeZ1 op za) 10 2 = za.code := by
  unfold field encodeZ1
  refine ⟨?_, ?_⟩ <;>
    simp (disch := omega) only [extract_append_low, extract_append_high, Nat.reduceSub, extract_all]

/-- The reserved mask of format Z3 has ones only where the encoder writes zeros. -/
theorem reserved_encodeZ3 (op : Opcode) (zd za zb : ZReg) : encodeZ3 op zd za zb &&& Format.z3.reserved = 0#32 := by
  rw [encodeZ3, show Format.z3.reserved = BitVec.allOnes 18 ++ 0#2 ++ 0#2 ++ 0#2 ++ 0#8 from rfl]
  iterate 4 rw [BitVec.and_append]
  simp only [BitVec.and_zero, BitVec.zero_and]
  rfl

/-- The reserved mask of format Z2 has ones only where the encoder writes zeros. -/
theorem reserved_encodeZ2 (op : Opcode) (zd za : ZReg) : encodeZ2 op zd za &&& Format.z2.reserved = 0#32 := by
  rw [encodeZ2, show Format.z2.reserved = BitVec.allOnes 20 ++ 0#2 ++ 0#2 ++ 0#8 from rfl]
  iterate 3 rw [BitVec.and_append]
  simp only [BitVec.and_zero, BitVec.zero_and]
  rfl

/-- The reserved mask of format Z1 has ones only where the encoder writes zeros. -/
theorem reserved_encodeZ1 (op : Opcode) (za : ZReg) : encodeZ1 op za &&& Format.z1.reserved = 0#32 := by
  rw [encodeZ1, show Format.z1.reserved = BitVec.allOnes 20 ++ 0#2 ++ BitVec.allOnes 2 ++ 0#8 from rfl]
  iterate 3 rw [BitVec.and_append]
  simp only [BitVec.and_zero, BitVec.zero_and]
  rfl

/-- A word with an assigned opcode and the reserved bits of its format clear decodes to what its operands say (R100). -/
theorem decode_of_fields {c : Word32} {op : Opcode} (hop : field c 0 8 = op.code)
    (hres : c &&& op.format.reserved = 0#32) : decode c = decodeOperands op c := by
  simp only [decode, (Opcode.ofCode_eq_some_iff _ op).mpr hop.symm, hres, if_true]

/-- A word whose opcode byte is none of the 16 is illegal (R96 (a)). -/
theorem decode_of_unassigned {c : Word32} (h : ∀ o : Opcode, o.code ≠ field c 0 8) :
    decode c = .illegal .unassignedOpcode := by
  simp only [decode, (Opcode.ofCode_eq_none_iff _).mpr h]

/-- A word with an assigned opcode and a reserved bit of its format set is illegal (R96 (b)). -/
theorem decode_of_reserved {c : Word32} {op : Opcode} (hop : op.code = field c 0 8)
    (hres : c &&& op.format.reserved ≠ 0#32) : decode c = .illegal .reservedBit := by
  simp only [decode, (Opcode.ofCode_eq_some_iff _ op).mpr hop, if_neg hres]

/-- A word decodes to a command only past the opcode and the reserved-bit checks (R100). -/
theorem decode_eq_command_iff {c : Word32} {i : Instr} :
    decode c = .command i ↔
      ∃ op : Opcode, field c 0 8 = op.code ∧ c &&& op.format.reserved = 0#32 ∧ decodeOperands op c = .command i := by
  refine ⟨fun h => ?_, fun ⟨op, hop, hres, hi⟩ => (decode_of_fields hop hres).trans hi⟩
  by_cases hassigned : ∃ op : Opcode, op.code = field c 0 8
  · obtain ⟨op, hop⟩ := hassigned
    by_cases hres : c &&& op.format.reserved = 0#32
    · exact ⟨op, hop.symm, hres, (decode_of_fields hop.symm hres).symm.trans h⟩
    · cases (decode_of_reserved hop hres).symm.trans h
  · cases (decode_of_unassigned (not_exists.mp hassigned)).symm.trans h

/-- A word of format Z3 decodes by its opcode and its three register numbers. -/
theorem decode_encodeZ3 {op : Opcode} (hf : op.format = .z3) (zd za zb : ZReg) :
    decode (encodeZ3 op zd za zb) = decodeOperands op (encodeZ3 op zd za zb) :=
  decode_of_fields (fields_encodeZ3 op zd za zb).1 (hf ▸ reserved_encodeZ3 op zd za zb)

/-- A word of format R decodes by its opcode and its two bounds. -/
theorem decode_encodeR {op : Opcode} (hf : op.format = .r) (lo hi : Nat) :
    decode (encodeR op lo hi) = decodeOperands op (encodeR op lo hi) :=
  decode_of_fields (field_op_encodeR op lo hi) (hf ▸ reserved_encodeR op lo hi)

/-- Settles O1, format by format: the opcode and the reserved bits pass the checks, and each field is its operand. -/
theorem decodeEncodeEveryCommand : Obligations.DecodeEncodeEveryCommand := by
  intro i hi
  cases i with
  | nop | srst | loadRect | loadHann | loadHamm | dft | power | melfb | dct | frame | mfcc => rfl
  | cadd zd za zb | cmul zd za zb =>
    rw [encode, decode_encodeZ3 rfl]
    simp only [decodeOperands, fields_encodeZ3, ZReg.ofCode_code]
  | cmag za =>
    rw [encode, decode_of_fields (fields_encodeZ1 _ za).1 (reserved_encodeZ1 _ za)]
    simp only [decodeOperands, fields_encodeZ1, ZReg.ofCode_code]
  | cexp zd za =>
    rw [encode, decode_of_fields (fields_encodeZ2 _ zd za).1 (reserved_encodeZ2 _ zd za)]
    simp only [decodeOperands, fields_encodeZ2, ZReg.ofCode_code]
  | getpwr k =>
    have hk := (wellFormed_getpwr k).mp hi
    rw [encode, decode_of_fields (field_op_encodeK _ k) (reserved_encodeK _ k)]
    simp only [decodeOperands, field_k_encodeK, BitVec.toNat_ofNat, Nat.mod_eq_of_lt hk]
  | peakre lo up | peakpw lo up =>
    obtain ⟨hlo, hup⟩ : lo < 1024 ∧ up < 1024 := by simpa using hi
    rw [encode, decode_encodeR rfl]
    simp only [decodeOperands, field_lo_encodeR, field_hi_encodeR, BitVec.toNat_ofNat, Nat.mod_eq_of_lt hlo,
      Nat.mod_eq_of_lt hup]

/-- The window selects that name a window are those the encoder writes (R92). -/
theorem decodeLoad_eq_command {b : BitVec 2} {i : Instr} (h : decodeLoad b = .command i) :
    encode i = encodeW .load b ∧ i.WellFormed := by
  have hselect : ∀ w : BitVec 2, w = 0#2 ∨ w = 1#2 ∨ w = 2#2 ∨ w = 3#2 := by decide
  rcases hselect b with rfl | rfl | rfl | rfl <;> cases h <;> exact ⟨rfl, rfl⟩

/-- The operands read from a word with its reserved bits clear encode to that word, and fit their fields (R91, R92). -/
theorem encode_of_decodeOperands {c : Word32} {op : Opcode} {i : Instr} (hop : field c 0 8 = op.code)
    (hres : c &&& op.format.reserved = 0#32) (h : decodeOperands op c = .command i) : encode i = c ∧ i.WellFormed := by
  cases op with
  | nop | srst | dft | power | melfb | dct | frame | mfcc =>
    cases h
    exact ⟨by rw [word_of_fields_n hres, hop]; rfl, rfl⟩
  | cadd | cmul =>
    cases h
    refine ⟨?_, rfl⟩
    simp only [encode, encodeZ3, ZReg.code_ofCode, ← hop]
    exact (word_of_fields_z3 hres).symm
  | cmag =>
    cases h
    refine ⟨?_, rfl⟩
    simp only [encode, encodeZ1, ZReg.code_ofCode, ← hop]
    exact (word_of_fields_z1 hres).symm
  | cexp =>
    cases h
    refine ⟨?_, rfl⟩
    simp only [encode, encodeZ2, ZReg.code_ofCode, ← hop]
    exact (word_of_fields_z2 hres).symm
  | load =>
    obtain ⟨hencode, hwf⟩ := decodeLoad_eq_command h
    refine ⟨?_, hwf⟩
    rw [hencode, encodeW, ← hop]
    exact (word_of_fields_w hres).symm
  | getpwr =>
    cases h
    refine ⟨?_, (wellFormed_getpwr _).mpr (BitVec.isLt _)⟩
    simp only [encode, encodeK, BitVec.ofNat_toNat, BitVec.setWidth_eq, ← hop]
    exact (word_of_fields_k hres).symm
  | peakre | peakpw =>
    cases h
    refine ⟨?_, by simpa using ⟨(field c 8 10).isLt, (field c 18 10).isLt⟩⟩
    simp only [encode, encodeR, BitVec.ofNat_toNat, BitVec.setWidth_eq, ← hop]
    exact (word_of_fields_r hres).symm

/-- Settles O2: a word that decodes passed the checks, and is then the concatenation of its fields. -/
theorem decodedWordIsItsEncoding : Obligations.DecodedWordIsItsEncoding := by
  intro c i h
  obtain ⟨op, hop, hres, hi⟩ := decode_eq_command_iff.mp h
  exact encode_of_decodeOperands hop hres hi

/-- Settles O4: the legal words are those the encoder writes, and each illegal one fails one check of R96. -/
theorem workedEncodingsDecode : Obligations.WorkedEncodingsDecode :=
  ⟨decodeEncodeEveryCommand (.cadd .z2 .z0 .z1) rfl, decodeEncodeEveryCommand (.cmul .z2 .z0 .z1) rfl,
    decodeEncodeEveryCommand (.cmag .z1) rfl, decodeEncodeEveryCommand (.cexp .z1 .z0) rfl,
    decodeEncodeEveryCommand .loadHann rfl, decodeEncodeEveryCommand (.getpwr 600) rfl,
    decodeEncodeEveryCommand (.peakre 1 256) rfl, decodeEncodeEveryCommand (.peakpw 2 256) rfl,
    decode_of_reserved (op := .cmag) rfl (by decide), decode_of_unassigned fun o => by cases o <;> decide⟩

end Sys2Proof
end

section
/-! 30_encoding.md R93: the rows of the opcode map decide which command a word is. -/

namespace Sys2Proof

/-- The word of every well-formed command matches the row with its mnemonic (R93). -/
theorem encode_matchesRow : ∀ i : Instr, Laws.EncodeMatchesRow.Statement i
  | .nop => Laws.EncodeMatchesRow.nop
  | .srst => Laws.EncodeMatchesRow.srst
  | .cadd zd za zb => Laws.EncodeMatchesRow.cadd zd za zb
  | .cmul zd za zb => Laws.EncodeMatchesRow.cmul zd za zb
  | .cmag za => Laws.EncodeMatchesRow.cmag za
  | .cexp zd za => Laws.EncodeMatchesRow.cexp zd za
  | .loadRect => Laws.EncodeMatchesRow.loadRect
  | .loadHann => Laws.EncodeMatchesRow.loadHann
  | .loadHamm => Laws.EncodeMatchesRow.loadHamm
  | .dft => Laws.EncodeMatchesRow.dft
  | .power => Laws.EncodeMatchesRow.power
  | .getpwr k => Laws.EncodeMatchesRow.getpwr k
  | .peakre lo hi => Laws.EncodeMatchesRow.peakre lo hi
  | .peakpw lo hi => Laws.EncodeMatchesRow.peakpw lo hi
  | .melfb => Laws.EncodeMatchesRow.melfb
  | .dct => Laws.EncodeMatchesRow.dct
  | .frame => Laws.EncodeMatchesRow.frame
  | .mfcc => Laws.EncodeMatchesRow.mfcc

/-- A word that decodes to a command matches a row with the command's mnemonic (R93). -/
theorem exists_row_of_decode {c : Word32} {i : Instr} (h : decode c = .command i) :
    ∃ r ∈ opcodeRows, r.mnemonic = i.mnemonic ∧ c &&& r.mask = r.matchBits := by
  obtain ⟨rfl, hwf⟩ := decodedWordIsItsEncoding c i h
  obtain ⟨r, hr, hname, hmatch⟩ := encode_matchesRow i hwf
  exact ⟨r, hr, hname, by simpa [OpcodeRow.matches] using hmatch⟩

/-- The mnemonic of the command a word decodes to, none for an illegal word. -/
def wordMnemonic (c : Word32) : Option String := (decode c).command?.map Instr.mnemonic

theorem wordMnemonic_eq_some_iff {c : Word32} {m : String} :
    wordMnemonic c = some m ↔ ∃ i, decode c = .command i ∧ i.mnemonic = m := by
  unfold wordMnemonic
  cases decode c <;> simp [Decoded.command?]

/-- The match word of each row is itself a word of the row's command (R93). -/
theorem wordMnemonic_matchBits : ∀ r ∈ opcodeRows, wordMnemonic r.matchBits = some r.mnemonic := by decide

/-- No two rows carry one mnemonic. -/
theorem row_of_mnemonic : ∀ r ∈ opcodeRows, ∀ q ∈ opcodeRows, q.mnemonic = r.mnemonic → q = r := by decide

/-- A row's mask covers the whole word, or the opcode byte and the reserved bits of an opcode other than `LOAD`, and then the
match bits are the opcode alone (R91, R93). -/
theorem row_mask_cases : ∀ r ∈ opcodeRows, r.mask = BitVec.allOnes 32 ∨
    ∃ op ∈ Opcode.all, op ≠ .load ∧ r.mask = op.format.reserved ||| 0xFF#32 ∧
      r.matchBits &&& op.format.reserved = 0#32 ∧ field r.matchBits 0 8 = op.code := by decide

/-- The opcode field sees only the low byte. -/
theorem field_op_and_mask (c : Word32) : field (c &&& 0xFF#32) 0 8 = field c 0 8 := by
  rw [field, field, BitVec.extractLsb'_and, show (0xFF#32).extractLsb' 0 8 = BitVec.allOnes 8 from rfl, BitVec.and_allOnes]

/-- The opcode alone, other than `LOAD`, says which mnemonic a word without reserved bits has. -/
theorem wordMnemonic_congr {c d : Word32} {op : Opcode} (hload : op ≠ .load) (hc : field c 0 8 = op.code)
    (hd : field d 0 8 = op.code) (hcres : c &&& op.format.reserved = 0#32) (hdres : d &&& op.format.reserved = 0#32) :
    wordMnemonic c = wordMnemonic d := by
  rw [wordMnemonic, wordMnemonic, decode_of_fields hc hcres, decode_of_fields hd hdres]
  cases op with
  | load => exact absurd rfl hload
  | _ => rfl

/-- A word that matches a row has the row's mnemonic (R93): it is the row's match word, or agrees with it in the opcode and
the reserved bits. -/
theorem wordMnemonic_of_match {c : Word32} {r : OpcodeRow} (hr : r ∈ opcodeRows) (h : c &&& r.mask = r.matchBits) :
    wordMnemonic c = some r.mnemonic := by
  rw [← wordMnemonic_matchBits r hr]
  rcases row_mask_cases r hr with hfull | ⟨op, -, hload, hmask, hres, hop⟩
  · rw [← h, hfull, BitVec.and_allOnes]
  · have hagree {p : Word32} (hp : r.mask &&& p = p) : c &&& p = r.matchBits &&& p := by
      rw [← h, BitVec.and_assoc, hp]
    have hbyte : c &&& 0xFF#32 = r.matchBits &&& 0xFF#32 :=
      hagree (by rw [hmask]; cases op <;> decide)
    have hbits : c &&& op.format.reserved = r.matchBits &&& op.format.reserved :=
      hagree (by rw [hmask]; cases op <;> decide)
    refine wordMnemonic_congr hload ?_ hop (hbits.trans hres) hres
    rw [← field_op_and_mask, hbyte, field_op_and_mask, hop]

/-- Settles O3: the row a decoded word matches is the one row with its mnemonic. -/
theorem opcodeMapDecidesTheCommand : Obligations.OpcodeMapDecidesTheCommand := by
  refine ⟨fun c r hr => ⟨fun h => wordMnemonic_eq_some_iff.mp (wordMnemonic_of_match hr h), ?_⟩,
    fun c => ⟨fun hnone => ?_, ?_⟩⟩
  · rintro ⟨i, hi, hname⟩
    obtain ⟨q, hq, hqname, hmatch⟩ := exists_row_of_decode hi
    rwa [row_of_mnemonic r hr q hq (hqname.trans hname)] at hmatch
  · cases hd : decode c with
    | illegal why => exact ⟨why, rfl⟩
    | command i =>
      obtain ⟨r, hr, -, hmatch⟩ := exists_row_of_decode hd
      exact absurd hmatch (hnone r hr)
  · rintro ⟨why, hwhy⟩ r hr hmatch
    obtain ⟨i, hi, -⟩ := wordMnemonic_eq_some_iff.mp (wordMnemonic_of_match hr hmatch)
    cases hwhy.symm.trans hi

end Sys2Proof
end

section
/-! 30_encoding.md R96: an illegal word only reports `ILLCMD`. -/

namespace Sys2Proof

/-- The three causes of R96 make a word illegal. -/
theorem decode_illegal_of_cause {c : Word32}
    (h : (∀ o : Opcode, o.code ≠ field c 0 8) ∨
      (∃ o : Opcode, o.code = field c 0 8 ∧ c &&& o.format.reserved ≠ 0#32) ∨ c = 0x00000320#32) :
    ∃ why, decode c = .illegal why := by
  rcases h with hunassigned | ⟨op, hop, hres⟩ | rfl
  · exact ⟨_, decode_of_unassigned hunassigned⟩
  · exact ⟨_, decode_of_reserved hop hres⟩
  · exact ⟨.reservedWindow, rfl⟩

end Sys2Proof

namespace Sys2Proof.Machine

/-- An illegal word executes nothing and fails with `ILLCMD` (R96). -/
theorem runCommand_of_decode_illegal {c : Word32} {why : IllegalReason} (h : decode c = .illegal why) (s : State) :
    runCommand c s = .next (s.failWith .illcmd) := by
  unfold runCommand
  rw [h]

/-- Settles O6: the word reaches `runCommand`, which reports the failure and nothing else. -/
theorem illegalWordOnlyReportsIllcmd : Obligations.IllegalWordOnlyReportsIllcmd := by
  intro s c rest hpending hcause
  obtain ⟨why, hwhy⟩ := decode_illegal_of_cause hcause
  refine ⟨_, ?_, failedWith_failWith .illcmd _⟩
  rw [step_of_write_to_cmd hpending, runCommand_of_decode_illegal hwhy]

end Sys2Proof.Machine
end

section
/-! 40_numerics.md R124, R125, R127: what each operation returns where an operand is a NaN, an infinity or a zero. -/

namespace Sys2Proof.Machine

/-! The infinities, for `simp`. -/

@[simp] theorem isNaN_finf (p : Bool) : isNaN (finf p) = false := (finf_facts p).1

@[simp] theorem isInf_finf (p : Bool) : isInf (finf p) = true := (finf_facts p).2.1

@[simp] theorem isZero_finf (p : Bool) : isZero (finf p) = false := (finf_facts p).2.2.1

@[simp] theorem fsign_finf (p : Bool) : fsign (finf p) = p := (finf_facts p).2.2.2.1

/-! `fadd` and `fsub`. -/

theorem fadd_of_isNaN {a b : F64} (h : isNaN a = true ∨ isNaN b = true) : fadd a b = nanResult .add a b := by
  simp [fadd, h]

/-- A NaN operand of a difference is a NaN operand of the sum it is defined as (R121). -/
theorem fsub_of_isNaN {a b : F64} (h : isNaN a = true ∨ isNaN b = true) : fsub a b = nanResult .add a (fneg b) :=
  fadd_of_isNaN (by rwa [isNaN_fneg])

theorem fadd_finf_finf (p q : Bool) :
    fadd (finf p) (finf q) = if p = q then finf p else nanResult .add (finf p) (finf q) := by
  by_cases h : p = q <;> simp [fadd, h]

theorem fadd_finf_left {x : F64} (p : Bool) (h : isFinite x = true) : fadd (finf p) x = finf p := by
  simp [fadd, isFinite_not_special h]

theorem fadd_finf_right {x : F64} (p : Bool) (h : isFinite x = true) : fadd x (finf p) = finf p := by
  simp [fadd, isFinite_not_special h]

/-! `fmul`. -/

theorem fmul_of_isNaN {a b : F64} (h : isNaN a = true ∨ isNaN b = true) : fmul a b = nanResult .mul a b := by
  simp [fmul, h]

theorem fmul_finf_left {x : F64} (p : Bool) (h : isNaN x = false) :
    fmul (finf p) x = if isZero x then nanResult .mul (finf p) x else finf (p != fsign x) := by
  simp [fmul, h]

theorem fmul_finf_right {x : F64} (p : Bool) (h : isNaN x = false) :
    fmul x (finf p) = if isZero x then nanResult .mul x (finf p) else finf (fsign x != p) := by
  simp [fmul, h]

/-! `fdiv`. -/

theorem fdiv_of_isNaN {a b : F64} (h : isNaN a = true ∨ isNaN b = true) : fdiv a b = nanResult .div a b := by
  simp [fdiv, h]

theorem fdiv_finf_finf (p q : Bool) : fdiv (finf p) (finf q) = nanResult .div (finf p) (finf q) := by simp [fdiv]

theorem fdiv_finf_left {x : F64} (p : Bool) (h : isFinite x = true) : fdiv (finf p) x = finf (p != fsign x) := by
  simp [fdiv, isFinite_not_special h]

theorem fdiv_finf_right {x : F64} (p : Bool) (h : isFinite x = true) : fdiv x (finf p) = packF64 (fsign x != p) 0 := by
  simp [fdiv, isFinite_not_special h]

/-- A division by a zero: invalid for a zero, else an infinity (R124, R125). -/
theorem fdiv_by_zero {x z : F64} (hx : isFinite x = true) (hz : isZero z = true) :
    fdiv x z = if isZero x then nanResult .div x z else finf (fsign x != fsign z) := by
  simp [fdiv, isFinite_not_special hx, isZero_not_special hz, hz]

/-- A zero divided by what is not a zero (R127). -/
theorem fdiv_zero_left {z x : F64} (hz : isZero z = true) (hx : isFinite x = true) (hn : isZero x = false) :
    fdiv z x = packF64 (fsign z != fsign x) 0 := by
  rw [fdiv_of_finite (isFinite_of_isZero hz) hx hn, fmag_of_isZero hz, Nat.zero_mul, roundBody_zero]

/-! `fsqrt`. -/

theorem fsqrt_of_isZero {a : F64} (h : isZero a = true) : fsqrt a = a := by
  simp [fsqrt, isZero_not_special h, h]

/-- A NaN and every negative number, `-inf` included, are invalid (R122, R124). -/
theorem fsqrt_invalid {a : F64} (h : isNaN a = true ∨ (fsign a = true ∧ isZero a = false)) :
    fsqrt a = nanResult .sqrt a a := by
  rcases h with hnan | ⟨hsign, hzero⟩
  · simp [fsqrt, hnan]
  · simp [fsqrt, hsign, hzero]

theorem fsqrt_finf : fsqrt (finf false) = finf false := by simp [fsqrt]

theorem fsqrt_of_positive {a : F64} (hf : isFinite a = true) (hs : fsign a = false) (hz : isZero a = false) :
    fsqrt a = fsqrtFinite a := by
  simp [fsqrt, isFinite_not_special hf, hs, hz]

/-- Settles O21: each case is one of the operations' cases that answer `nanResult`. -/
theorem invalidOperationsReturnQuietNaN : Obligations.InvalidOperationsReturnQuietNaN := by
  refine ⟨fun a b h => ?nanOperand, fun a h => ?root, fun p => ?opposite, fun z p hz => ?zeroTimesInf,
    fun y z hy hz => ?zeroByZero, fun p q => ?infByInf⟩
  case nanOperand =>
    rw [fadd_of_isNaN h, fsub_of_isNaN h, fmul_of_isNaN h, fdiv_of_isNaN h]
    exact ⟨isQuietNaN_nanResult .., isQuietNaN_nanResult .., isQuietNaN_nanResult .., isQuietNaN_nanResult ..⟩
  case root =>
    rw [fsqrt_invalid h]
    exact isQuietNaN_nanResult ..
  case opposite =>
    have hne : p ≠ !p := by simp
    rw [fsub, fneg_finf, fadd_finf_finf, if_neg hne]
    exact ⟨isQuietNaN_nanResult .., isQuietNaN_nanResult ..⟩
  case zeroTimesInf =>
    have hnan := (isZero_not_special hz).1
    rw [fmul_finf_left p hnan, fmul_finf_right p hnan, if_pos hz, if_pos hz]
    exact ⟨isQuietNaN_nanResult .., isQuietNaN_nanResult ..⟩
  case zeroByZero =>
    rw [fdiv_by_zero (isFinite_of_isZero hy) hz, if_pos hy]
    exact isQuietNaN_nanResult ..
  case infByInf =>
    rw [fdiv_finf_finf]
    exact isQuietNaN_nanResult ..

/-- Settles O22, clause by clause from the operations' cases. -/
theorem infinityArithmetic : Obligations.InfinityArithmetic := by
  refine ⟨fun x p hx => ?finite, fun p q => ?infinite⟩
  case finite =>
    have hnan := (isFinite_not_special hx).1
    refine ⟨fadd_finf_left p hx, fadd_finf_right p hx, fun hn => ⟨?_, ?_⟩, fdiv_finf_right p hx, fdiv_finf_left p hx,
      fun z hz hn => ?_⟩
    · rw [fmul_finf_left p hnan, hn]; rfl
    · rw [fmul_finf_right p hnan, hn]; rfl
    · rw [fdiv_by_zero hx hz, hn]; rfl
  case infinite =>
    have hsum : fadd (finf p) (finf p) = finf p := by rw [fadd_finf_finf, if_pos rfl]
    refine ⟨?_, hsum, ?_⟩
    · rw [fmul_finf_left p (isNaN_finf q), isZero_finf, fsign_finf]; rfl
    · rw [fsub, fneg_finf, Bool.not_not, hsum]

end Sys2Proof.Machine
end

section
/-! 40_numerics.md R127, R128: the signs of results and the exact operations. -/

namespace Sys2Proof.Machine

theorem fint_fneg (x : F64) : fint (fneg x) = -fint x := by
  unfold fint
  rw [fsign_fneg, fmag_eq_bodyMag, fmag_eq_bodyMag, fbody_fneg]
  cases fsign x <;> simp

/-- A finite datum and its negation cancel to `+0.0`, whatever their signs (R127). -/
theorem fadd_fneg_self {x : F64} (h : isFinite x = true) : fadd x (fneg x) = 0#64 := by
  have hsum : fint x + fint (fneg x) = 0 := by rw [fint_fneg, add_neg_cancel]
  rw [fadd_of_finite h (by rwa [isFinite_fneg]), faddFinite]
  simp only [hsum, if_true, fsign_fneg, Bool.and_not_self, Int.natAbs_zero, roundBody_zero]
  decide

/-- Adding a zero to what is neither a zero nor a NaN changes nothing, an infinity included (R127). -/
theorem fadd_isZero_right {x z : F64} (hn : isNaN x = false) (hx : isZero x = false) (hz : isZero z = true) :
    fadd x z = x := by
  rcases isFinite_or_isInf hn with hf | hi
  · exact fadd_zero_right hf hx hz
  · rw [eq_finf_of_isInf hi, fadd_finf_left _ (isFinite_of_isZero hz)]

theorem fsign_packF64_zero (neg : Bool) : fsign (packF64 neg 0) = neg := fsign_packF64 neg (by decide)

/-- A product that is not a NaN has the exclusive-or of the signs (R125, R127). -/
theorem fsign_fmul {x y : F64} (h : isNaN (fmul x y) = false) : fsign (fmul x y) = (fsign x != fsign y) := by
  revert h
  unfold fmul
  dsimp only
  split_ifs with hnan hinf hzero <;> intro h
  · rw [isNaN_nanResult] at h; cases h
  · rw [isNaN_nanResult] at h; cases h
  · exact fsign_finf _
  · exact fsign_packF64_round ..

/-- A quotient that is not a NaN has the exclusive-or of the signs (R125, R127). -/
theorem fsign_fdiv {x y : F64} (h : isNaN (fdiv x y) = false) : fsign (fdiv x y) = (fsign x != fsign y) := by
  revert h
  unfold fdiv
  dsimp only
  split_ifs <;> intro h
  · rw [isNaN_nanResult] at h; cases h
  · rw [isNaN_nanResult] at h; cases h
  · exact fsign_finf _
  · exact fsign_packF64_zero _
  · rw [isNaN_nanResult] at h; cases h
  · exact fsign_finf _
  · exact fsign_packF64_round ..

/-- Settles O23. A product or quotient that is a zero is no NaN, so its sign is that of `fsign_fmul` or `fsign_fdiv`. -/
theorem signedZeroRules : Obligations.SignedZeroRules := by
  have hpos : isZero 0#64 = true := by decide
  have hneg : isZero 0x8000000000000000#64 = true := by decide
  refine ⟨?_, ?_, ?_, fun x hx => fadd_fneg_self hx, fun x z hn hx hz => fadd_isZero_right hn hx hz,
    fun x z hx hz => ⟨fmul_zero_right hx hz, fmul_zero_left hz hx⟩, fun x z hx hn hz => fdiv_zero_left hz hx hn,
    fun x y => ⟨fun hz => fsign_fmul (isZero_not_special hz).1, fun hz => fsign_fdiv (isZero_not_special hz).1⟩⟩
  · rw [fadd_zero_zero hpos hneg]; decide
  · rw [fadd_zero_zero hneg hpos]; decide
  · rw [fadd_zero_zero hneg hneg]; decide

/-- `fneg` is the exclusive-or with bit 63 alone (R128). -/
theorem getLsbD_fneg (x : F64) (i : Nat) :
    (fneg x).getLsbD i = if i = 63 then !x.getLsbD i else x.getLsbD i := by
  have hmask : (0x8000000000000000#64).getLsbD i = decide (i = 63) := by
    rw [show 0x8000000000000000#64 = BitVec.twoPow 64 63 by decide, BitVec.getLsbD_twoPow]
    simp [eq_comm]
  rw [fneg, BitVec.getLsbD_xor, hmask]
  by_cases h : i = 63 <;> simp [h]

/-- Settles O24 from the bits of `fneg` and the exact conversion of small integers. -/
theorem negateAndFloatAreExact : Obligations.NegateAndFloatAreExact :=
  ⟨fun x i _ => getLsbD_fneg x i, fun _ hn => fvalue_ffloat hn, ffloat_zero⟩

end Sys2Proof.Machine
end

section
/-! 40_numerics.md R132: the comparisons. -/

namespace Sys2Proof.Machine

theorem fvalue_eq_iff {a b : F64} : fvalue a = fvalue b ↔ fkey a = fkey b := by
  rw [le_antisymm_iff, le_antisymm_iff, fvalue_le_iff, fvalue_le_iff]

/-- A comparison with a NaN is false (R132). -/
theorem compare_of_isNaN {a b : F64} (h : isNaN a = true ∨ isNaN b = true) : fgt a b = false ∧ feq a b = false := by
  rcases h with h | h <;> simp [fgt, feq, h]

/-- Comparisons that are not with a NaN compare the keys (R132). -/
theorem compare_eq_decide {a b : F64} (ha : isNaN a = false) (hb : isNaN b = false) :
    fgt a b = decide (fkey b < fkey a) ∧ feq a b = decide (fkey a = fkey b) := by
  simp [fgt, feq, ha, hb]

/-- A finite datum lies strictly between the infinities (R132). -/
theorem compare_finf {x : F64} (h : isFinite x = true) :
    fgt (finf false) x = true ∧ fgt x (finf true) = true ∧ fgt x (finf false) = false ∧ fgt (finf true) x = false ∧
      ∀ p, feq x (finf p) = false ∧ feq (finf p) x = false := by
  have hnan := (isFinite_not_special h).1
  have hleft := fun p => compare_eq_decide (isNaN_finf p) hnan
  have hright := fun p => compare_eq_decide hnan (isNaN_finf p)
  obtain ⟨hlow, hhigh⟩ := fkey_between h
  have hminus := fkey_finf true
  have hplus := fkey_finf false
  generalize (infBody : Int) = B at *
  simp only [hleft, hright, decide_eq_true_eq, decide_eq_false_iff_not, Bool.forall_bool, hminus, hplus, if_true,
    Bool.false_eq_true, if_false]
  omega

/-- Settles O25: the key is ordered like the values, and an infinity's key lies beyond those of the finite data. -/
theorem comparisonsAreByValue : Obligations.ComparisonsAreByValue := by
  refine ⟨fun a b ha hb => ⟨?_, ?_⟩, fun a b h => compare_of_isNaN h, fun x hx => compare_finf hx, fun p q => ?_⟩
  · rw [fgt_iff (isFinite_not_special ha).1 (isFinite_not_special hb).1, fvalue_lt_iff]
  · rw [feq_iff (isFinite_not_special ha).1 (isFinite_not_special hb).1, fvalue_eq_iff]
  · revert p q
    decide

end Sys2Proof.Machine
end

section
/-! 40_numerics.md R129, R130: the properties guaranteed of the elementary units. -/

namespace Sys2Proof.Machine

/-- `TRIG_NONFINITE` of the cosine (R129). -/
theorem isNaN_cosUnit {x : F64} (h : isFinite x = false) : isNaN (cosUnit x) = true := by
  have hz : isZero x = false := Bool.eq_false_iff.mpr fun hz => by rw [isFinite_of_isZero hz] at h; cases h
  simp [cosUnit, h, hz, isNaN_asNaN]

/-- The sine of what is not finite, before its sign is given to it. -/
theorem isNaN_sinPositive {x : F64} (h : isFinite x = false) : isNaN (sinPositive x) = true := by
  simp [sinPositive, h, isNaN_asNaN]

theorem isFinite_fabs (x : F64) : isFinite (fabs x) = isFinite x := by
  rw [Bool.eq_iff_iff, isFinite_iff, isFinite_iff, (fabs_facts x).1]

/-- `TRIG_NONFINITE` of the sine (R129). -/
theorem isNaN_sinUnit {x : F64} (h : isFinite x = false) : isNaN (sinUnit x) = true := by
  unfold sinUnit
  split_ifs with hz hn hs
  · rw [isFinite_of_isZero hz] at h; cases h
  · exact isNaN_asNaN _
  · rw [isNaN_fneg]
    exact isNaN_sinPositive (by rwa [isFinite_fabs])
  · exact isNaN_sinPositive h

/-- Settles O26: `TRIG_ZERO`, `TRIG_RANGE`, `TRIG_SYM` and `TRIG_NONFINITE` in turn. -/
theorem trigUnitsKeepTheirProperties : Obligations.TrigUnitsKeepTheirProperties := by
  have hpos : isZero 0#64 = true := by decide
  have hneg : isZero 0x8000000000000000#64 = true := by decide
  refine ⟨⟨cosUnit_of_isZero hpos, cosUnit_of_isZero hneg, sinUnit_of_isZero hpos, sinUnit_of_isZero hneg⟩,
    fun x hx => ?range, cosUnit_fneg, fun _ hx => sinUnit_fneg hx, fun _ hx => ⟨isNaN_cosUnit hx, isNaN_sinUnit hx⟩⟩
  case range =>
    obtain ⟨hcosFinite, hcosLe⟩ := abs_fvalue_le_one (inUnitRange_cosUnit hx)
    obtain ⟨hsinFinite, hsinLe⟩ := abs_fvalue_le_one (inUnitRange_sinUnit hx)
    exact ⟨hcosFinite, hcosLe, hsinFinite, hsinLe⟩

theorem logUnit_of_isZero {x : F64} (h : isZero x = true) : logUnit x = finf true := by
  simp [logUnit, isZero_not_special h, h]

theorem logUnit_fone : logUnit fone = 0#64 := by
  have hnan : isNaN fone = false := by decide
  have hzero : isZero fone = false := by decide
  have hsign : fsign fone = false := by decide
  have hinf : isInf fone = false := by decide
  simp [logUnit, hnan, hzero, hsign, hinf, fzero]

theorem logUnit_finf : logUnit (finf false) = finf false := by simp [logUnit]

/-- `LOG_SPECIAL` of a NaN and of a negative number (R130). -/
theorem isNaN_logUnit {x : F64} (h : isNaN x = true ∨ (fsign x = true ∧ isZero x = false)) :
    isNaN (logUnit x) = true := by
  rcases h with hnan | ⟨hsign, hzero⟩
  · simp [logUnit, hnan, isNaN_asNaN]
  · simp [logUnit, hsign, hzero, isNaN_asNaN]

/-- Settles O27: `LOG_ONE`, then the clauses of `LOG_SPECIAL`. -/
theorem logUnitKeepsItsProperties : Obligations.LogUnitKeepsItsProperties :=
  ⟨logUnit_fone, logUnit_of_isZero (by decide), logUnit_of_isZero (by decide), logUnit_finf, fun _ hx => isNaN_logUnit hx⟩

end Sys2Proof.Machine
end

section
/-! 40_numerics.md R121: the basic operations in real numbers. -/

namespace Sys2Proof.Machine

/-- The sum of finite data is their exact sum, rounded once. -/
theorem roundsOnce_fadd {a b : F64} (ha : isFinite a = true) (hb : isFinite b = true) :
    RoundsOnce (fvalue a + fvalue b) (fadd a b) := by
  have hexact : fvalue a + fvalue b = ((fint a + fint b : Int) : ℝ) / realUnit := by
    rw [fvalue, fvalue, ← add_div, Int.cast_add, realUnit]
  rw [hexact, fadd_of_finite ha hb, faddFinite]
  refine roundsOnce_int _ _ ?_
  by_cases hzero : fint a + fint b = 0
  · exact .inl hzero
  · exact .inr (if_neg hzero)

/-- The difference is the sum with the negation (R121), in values too. -/
theorem roundsOnce_fsub {a b : F64} (ha : isFinite a = true) (hb : isFinite b = true) :
    RoundsOnce (fvalue a - fvalue b) (fsub a b) := by
  rw [sub_eq_add_neg, ← fvalue_fneg]
  exact roundsOnce_fadd ha (by rwa [isFinite_fneg])

/-- The product of finite data is their exact product, rounded once. -/
theorem roundsOnce_fmul {a b : F64} (ha : isFinite a = true) (hb : isFinite b = true) :
    RoundsOnce (fvalue a * fvalue b) (fmul a b) := by
  have hexact : fvalue a * fvalue b =
      signFactor (fsign a != fsign b) * (((fmag a * fmag b : ℕ) : ℝ) / unitsPerOne / realUnit) := by
    rw [fvalue_eq, fvalue_eq, signFactor_bne, unitsPerOne_cast, fmag_eq_bodyMag, fmag_eq_bodyMag, Nat.cast_mul]
    ring
  rw [hexact, fmul_of_finite ha hb]
  exact roundsOnce_pack _ _ unitsPerOne_pos

/-- The quotient of finite data by what is not a zero is their exact quotient, rounded once. -/
theorem roundsOnce_fdiv {a b : F64} (ha : isFinite a = true) (hb : isFinite b = true) (hz : isZero b = false) :
    RoundsOnce (fvalue a / fvalue b) (fdiv a b) := by
  have hpos : 0 < fmag b := Nat.pos_of_ne_zero fun h => by rw [fmag_eq_zero_iff, hz] at h; cases h
  have hsign : ∀ p, (signFactor p)⁻¹ = signFactor p := fun p => inv_eq_of_mul_eq_one_left (signFactor_mul_self p)
  have hexact : fvalue a / fvalue b =
      signFactor (fsign a != fsign b) * (((fmag a * unitsPerOne : ℕ) : ℝ) / fmag b / realUnit) := by
    have hunit := realUnit_pos.ne'
    have hmag : (bodyMag (fbody b) : ℝ) ≠ 0 := by rw [← fmag_eq_bodyMag]; exact_mod_cast hpos.ne'
    rw [fvalue_eq, fvalue_eq, signFactor_bne, Nat.cast_mul, unitsPerOne_cast, fmag_eq_bodyMag, fmag_eq_bodyMag,
      mul_div_mul_comm, div_eq_mul_inv (signFactor _), hsign]
    field_simp
  rw [hexact, fdiv_of_finite ha hb hz]
  exact roundsOnce_pack _ _ hpos

/-- Settles O19, operation by operation. -/
theorem basicOperationsRoundOnce : Obligations.BasicOperationsRoundOnce := fun _ _ ha hb =>
  ⟨roundsOnce_fadd ha hb, roundsOnce_fsub ha hb, roundsOnce_fmul ha hb, roundsOnce_fdiv ha hb, rfl⟩

end Sys2Proof.Machine
end

section
/-! 40_numerics.md R122: the square root in real numbers. -/

namespace Sys2Proof.Machine

/-- A finite datum is its own value rounded to nearest. -/
theorem nearestEven_fvalue {a : F64} (h : isFinite a = true) : NearestEven (fvalue a) a := by
  refine ⟨h, fun c _ => ?_⟩
  rw [sub_self, abs_zero]
  exact ⟨abs_nonneg _, fun heq => .inl (sub_eq_zero.mp (abs_eq_zero.mp heq.symm))⟩

theorem fvalue_of_isZero {z : F64} (h : isZero z = true) : fvalue z = 0 := by
  rw [fvalue, fint_of_isZero h, Int.cast_zero, zero_div]

/-- The integer root of a number of the size `fsqrtFinite` works on: large enough for `nearest_of_between`, small enough for
`roundBody_root_lt`. -/
theorem natSqrt_bounds {n : Nat} (hlow : 2 ^ 112 ≤ n) (hhigh : n < 4 ^ 83) :
    2 ^ 55 ≤ natSqrt 83 n ∧ natSqrt 83 n < 2 ^ 83 := by
  obtain ⟨hle, hlt⟩ := natSqrt_spec 83 n hhigh
  constructor
  · by_contra hsmall
    have hsq : (natSqrt 83 n + 1) * (natSqrt 83 n + 1) ≤ 2 ^ 55 * 2 ^ 55 :=
      Nat.mul_le_mul (Nat.lt_of_not_le hsmall) (Nat.lt_of_not_le hsmall)
    omega
  · by_contra hbig
    have hsq : 2 ^ 83 * 2 ^ 83 ≤ natSqrt 83 n * natSqrt 83 n :=
      Nat.mul_le_mul (Nat.le_of_not_lt hbig) (Nat.le_of_not_lt hbig)
    omega

/-- The body that `fsqrtFinite` packs is nearest to twice the real root, ties to even. An exact root is rounded as it is; an
inexact one lies strictly between two even numbers of steps and rounds like the odd number between them. -/
theorem roundBody_natSqrt_nearest {n e : Nat} (he : e < 1504) (hlow : 2 ^ 112 ≤ n) (hhigh : n < 4 ^ 83) :
    NearestEven (2 * Real.sqrt n * 2 ^ e / realUnit)
      (packF64 false
        (roundBody ((2 * natSqrt 83 n + if natSqrt 83 n * natSqrt 83 n = n then 0 else 1) * 2 ^ e) 1)) := by
  obtain ⟨hle, hlt⟩ := natSqrt_spec 83 n hhigh
  obtain ⟨hroot, hbits⟩ := natSqrt_bounds hlow hhigh
  generalize natSqrt 83 n = root at *
  have hpow : (0 : ℝ) < 2 ^ e := by positivity
  have hunsigned : ∀ x : ℝ, x = signFactor false * x := fun x => by simp [signFactor]
  rw [hunsigned (_ / realUnit)]
  by_cases hexact : root * root = n
  · have hsqrt : Real.sqrt n = root := by rw [← hexact, Nat.cast_mul, Real.sqrt_mul_self (Nat.cast_nonneg root)]
    have hnear := nearestEven_pack false ((2 * root) * 2 ^ e) Nat.one_pos (roundBody_root_lt (by omega) he)
    rw [if_pos hexact, Nat.add_zero, hsqrt]
    push_cast [div_one] at hnear
    exact hnear
  · have hfin := roundBody_root_lt (r := 2 * root + 1) (by omega) he
    have hbelow : (root : ℝ) < Real.sqrt n := by
      rw [Real.lt_sqrt (Nat.cast_nonneg root), sq]
      exact_mod_cast lt_of_le_of_ne hle hexact
    have habove : Real.sqrt n < root + 1 := by
      rw [Real.sqrt_lt' (by positivity), sq]
      exact_mod_cast hlt
    rw [if_neg hexact]
    refine nearestEven_of_body false (by positivity) hfin fun d => ?_
    rcases nearest_of_between hroot (exact := 2 * Real.sqrt n * 2 ^ e) (by gcongr)
      (by gcongr; linarith) hfin d with heq | hfar
    · rw [heq]; exact ⟨le_rfl, fun _ => .inl rfl⟩
    · exact ⟨hfar.le, fun heq => absurd heq hfar.ne⟩

/-- The root of a finite datum without sign is its exact root, rounded once. -/
theorem nearestEven_fsqrt {a : F64} (hf : isFinite a = true) (hs : fsign a = false) :
    NearestEven (Real.sqrt (fvalue a)) (fsqrt a) := by
  cases hz : isZero a with
  | true =>
    have hself := nearestEven_fvalue hf
    rw [fvalue_of_isZero hz] at hself ⊢
    rwa [Real.sqrt_zero, fsqrt_of_isZero hz]
  | false =>
    obtain ⟨n, e, he, hlow, hhigh, hsqrt, hpack⟩ := fsqrtFinite_parts hz
    have hvalue : fvalue a = bodyMag (fbody a) / realUnit := by simp [fvalue_eq, hs, signFactor]
    rw [fsqrt_of_positive hf hs hz, hvalue, hsqrt, hpack]
    exact roundBody_natSqrt_nearest he hlow hhigh

/-- Settles O20. -/
theorem squareRootIsCorrectlyRounded : Obligations.SquareRootIsCorrectlyRounded := by
  refine ⟨fun a hf hs => nearestEven_fsqrt hf hs, fun a hz => fsqrt_of_isZero hz, fsqrt_finf, fun a _ hz hs => ?_⟩
  rw [fsqrt_invalid (.inr ⟨hs, hz⟩)]
  exact isQuietNaN_nanResult ..

end Sys2Proof.Machine
end

section
/-! 30_encoding.md R92: a command word as its fields shifted to their places. -/

namespace Sys2Proof

/-- A concatenation seen in a word of any width: the low part, and the high part shifted above it. -/
theorem setWidth_append_eq_or {m n : Nat} (w : Nat) (x : BitVec m) (y : BitVec n) :
    (x ++ y).setWidth w = y.setWidth w ||| x.setWidth w <<< n := by
  apply BitVec.eq_of_getLsbD_eq
  intro i hi
  have hsub : i - n < w := by omega
  simp only [BitVec.getLsbD_setWidth, BitVec.getLsbD_append, BitVec.getLsbD_or, BitVec.getLsbD_shiftLeft, hi, hsub]
  split
  next hlow => simp [hlow]
  next hhigh => simp [hhigh, BitVec.getLsbD_of_ge y i (Nat.le_of_not_lt hhigh)]

/-- A word of format Z3: the opcode in bits 7:0, the registers from bits 8, 10 and 12 (R92). -/
theorem encodeZ3_eq_or (op : Opcode) (zd za zb : ZReg) :
    encodeZ3 op zd za zb = op.code.setWidth 32 ||| zd.code.setWidth 32 <<< 8 ||| za.code.setWidth 32 <<< 10 |||
      zb.code.setWidth 32 <<< 12 := by
  rw [← BitVec.setWidth_eq (encodeZ3 op zd za zb), encodeZ3]
  simp only [setWidth_append_eq_or, BitVec.shiftLeft_or_distrib, ← BitVec.shiftLeft_add]
  simp [BitVec.or_assoc]

/-- A word of format Z2 (R92). -/
theorem encodeZ2_eq_or (op : Opcode) (zd za : ZReg) :
    encodeZ2 op zd za = op.code.setWidth 32 ||| zd.code.setWidth 32 <<< 8 ||| za.code.setWidth 32 <<< 10 := by
  rw [← BitVec.setWidth_eq (encodeZ2 op zd za), encodeZ2]
  simp only [setWidth_append_eq_or, BitVec.shiftLeft_or_distrib, ← BitVec.shiftLeft_add]
  simp [BitVec.or_assoc]

/-- A word of format Z1 (R92). -/
theorem encodeZ1_eq_or (op : Opcode) (za : ZReg) :
    encodeZ1 op za = op.code.setWidth 32 ||| za.code.setWidth 32 <<< 10 := by
  rw [← BitVec.setWidth_eq (encodeZ1 op za), encodeZ1]
  simp only [setWidth_append_eq_or, BitVec.shiftLeft_or_distrib, ← BitVec.shiftLeft_add]
  simp

/-- A well-formed command is what its word decodes to, however the word is written. -/
theorem decode_of_encode_eq {i : Instr} {c : Word32} (hi : i.WellFormed) (h : encode i = c) : decode c = .command i :=
  h ▸ decodeEncodeEveryCommand i hi

end Sys2Proof
end

section
/-! 41_complex.md R151 to R154, R157: the commands of the complex primitive. -/

namespace Sys2Proof.Machine

/-- A command whose work is the write of one complex register succeeds with that register written, and changes nothing else
but the report. The value is one of the old state, so the destination may be a source (R157). -/
theorem exec_of_perform_setZ {i : Instr} {s : State} {r : ZReg} {v : Cplx} (h : perform i s = .ran (s.setZ r v)) :
    ∃ t, exec i s = .next t ∧ t.getZ r = v ∧ (∀ q, q ≠ r → t.getZ q = s.getZ q) ∧ Succeeded t ∧ t.stage = s.stage ∧
      SameScalars s t ∧ SameBytes s t ∧ SameHostSide s t := by
  refine ⟨(s.setZ r v).succeed, by rw [exec_eq_report, h, Ended.report_ran], by simp, fun q hq => by simp [hq],
    ⟨rfl, rfl⟩, by simp, ?scalars, fun a => by simp, Ended.sameHostSide_report (e := .ran _) (.setZ s r v)⟩
  case scalars => simp [SameScalars]

/-- Settles O28: the destination is written with the component sums of the old sources. -/
theorem caddAddsComponents : Obligations.CaddAddsComponents := fun zd za zb _ =>
  ⟨decode_of_encode_eq rfl (encodeZ3_eq_or .cadd zd za zb), exec_of_perform_setZ rfl⟩

/-- Settles O29: the destination is written with the complex product of the old sources. -/
theorem cmulMultiplies : Obligations.CmulMultiplies := fun zd za zb _ =>
  ⟨decode_of_encode_eq rfl (encodeZ3_eq_or .cmul zd za zb), exec_of_perform_setZ rfl⟩

/-- Settles O30: the work of `CMAG` is one write of `RESULT`, which leaves every other field as it was. -/
theorem cmagWritesTheMagnitude : Obligations.CmagWritesTheMagnitude := by
  intro za s
  refine ⟨decode_of_encode_eq rfl (encodeZ1_eq_or .cmag za), _, exec_eq_report (.cmag za) s, rfl, ?registers, ⟨rfl, rfl⟩,
    rfl, rfl, rfl, rfl, fun _ => rfl, rfl, rfl, rfl⟩
  case registers => exact (exec_writesOnly (exec_eq_report (.cmag za) s)).z (by simp [regionsWritten])

/-- Settles O31: the destination is written with `cexp` of the old source, whose corner cases are those of the two
units. -/
theorem cexpTakesTheImaginaryPart : Obligations.CexpTakesTheImaginaryPart := by
  intro zd za s
  obtain ⟨t, hexec, hzd, hframe⟩ := exec_of_perform_setZ (i := .cexp zd za) (s := s) rfl
  refine ⟨decode_of_encode_eq rfl (encodeZ2_eq_or .cexp zd za), t, hexec, hzd, fun hzero => ?zero, fun hinf => ?nonfinite,
    hframe⟩
  case zero => rw [hzd, cexp, cosUnit_of_isZero hzero, sinUnit_of_isZero hzero]
  case nonfinite =>
    rw [hzd]
    exact ⟨isNaN_cosUnit hinf, isNaN_sinUnit hinf⟩

/-! The magnitude: two squares, their sum and its root never carry a sign. -/

/-- The square of what is not a NaN is not one, and carries no sign. -/
theorem fmul_self_unsigned {x : F64} (h : isNaN x = false) : isNaN (fmul x x) = false ∧ fsign (fmul x x) = false := by
  rcases fmul_self_cases x with ⟨hnan, -⟩ | ⟨-, hsquare⟩
  · rw [h] at hnan; cases hnan
  · exact hsquare

/-- The square of an infinity is infinite. -/
theorem isInf_fmul_self {x : F64} (h : isInf x = true) : isInf (fmul x x) = true := by
  rw [eq_finf_of_isInf h, fmul_self_finf, isInf_finf]

/-- The root of what is not a NaN and carries no sign is not a NaN and carries no sign (R122). -/
theorem fsqrt_unsigned {x : F64} (hn : isNaN x = false) (hs : fsign x = false) :
    isNaN (fsqrt x) = false ∧ fsign (fsqrt x) = false := by
  rcases isFinite_or_isInf hn with hfinite | hinf
  · cases hz : isZero x with
    | true => rw [fsqrt_of_isZero hz]; exact ⟨hn, hs⟩
    | false =>
      rw [fsqrt_of_positive hfinite hs hz]
      exact ⟨isNaN_packF64_round .., fsign_packF64_round ..⟩
  · rw [eq_finf_of_isInf hinf, hs, fsqrt_finf]
    exact ⟨isNaN_finf false, fsign_finf false⟩

/-- A NaN part makes the magnitude a NaN (R153). -/
theorem isNaN_cmag_of_isNaN {a : Cplx} (h : isNaN a.re = true ∨ isNaN a.im = true) : isNaN (cmag a) = true := by
  have hsum : isNaN (normSquared a) = true := by
    rcases h with hre | him
    · exact isNaN_fadd_left _ (isNaN_fmul_left _ hre)
    · exact isNaN_fadd_right _ (isNaN_fmul_left _ him)
  rw [cmag, fsqrt_invalid (.inl hsum)]
  exact isNaN_nanResult ..

/-- Without a NaN part the magnitude is not a NaN and carries no sign (R153). -/
theorem cmag_unsigned {a : Cplx} (hre : isNaN a.re = false) (him : isNaN a.im = false) :
    isNaN (cmag a) = false ∧ fsign (cmag a) = false := by
  obtain ⟨hreNan, hreSign⟩ := fmul_self_unsigned hre
  obtain ⟨himNan, himSign⟩ := fmul_self_unsigned him
  obtain ⟨hsumNan, hsumSign⟩ := fadd_unsigned hreNan himNan hreSign himSign
  exact fsqrt_unsigned hsumNan hsumSign

/-- Without a NaN part an infinite part makes the magnitude `+inf` (R153). -/
theorem cmag_of_isInf {a : Cplx} (hre : isNaN a.re = false) (him : isNaN a.im = false)
    (h : isInf a.re = true ∨ isInf a.im = true) : cmag a = finf false := by
  obtain ⟨hreNan, hreSign⟩ := fmul_self_unsigned hre
  obtain ⟨himNan, himSign⟩ := fmul_self_unsigned him
  rw [cmag, normSquared,
    fadd_unsigned_inf hreNan himNan hreSign himSign (h.imp isInf_fmul_self isInf_fmul_self), fsqrt_finf]

/-- Settles O32: with a NaN part the magnitude is a NaN; without one it is not, and carries no sign. -/
theorem magnitudeIsNeverNegative : Obligations.MagnitudeIsNeverNegative := by
  intro a
  by_cases hpart : isNaN a.re = true ∨ isNaN a.im = true
  · have hnan := isNaN_cmag_of_isNaN hpart
    exact ⟨iff_of_true hnan hpart, fun h => absurd hnan (by simp [h]), cmag_of_isInf⟩
  · obtain ⟨hre, him⟩ : isNaN a.re = false ∧ isNaN a.im = false := by simpa using hpart
    obtain ⟨hnan, hsign⟩ := cmag_unsigned hre him
    exact ⟨iff_of_false (by simp [hnan]) hpart, fun _ => hsign, cmag_of_isInf⟩

end Sys2Proof.Machine
end

section
/-! 42_window.md R171: the range of the Hann window. -/

namespace Sys2Proof.Machine

/-! Data in the range of the cosine, as factors and as summands. -/

/-- The units' range is that of the bodies up to the body of 1.0. -/
theorem inUnitRange_iff_fbody_le {y : F64} : inUnitRange y = true ↔ fbody y ≤ fbody fone := by
  have hone : unitsPerOne = bodyMag (fbody fone) := by decide +kernel
  have hmag : fmag y ≤ unitsPerOne ↔ fbody y ≤ fbody fone := by
    rw [hone, fmag_eq_bodyMag, bodyMag_strictMono.le_iff_le]
  rw [inUnitRange, Bool.and_eq_true, decide_eq_true_eq, hmag, isFinite_iff, and_iff_right_iff_imp]
  exact fun h => lt_of_le_of_lt h (by decide)

/-- A factor in the units' range does not enlarge a product, rounding included. -/
theorem fbody_fmul_le_left {a y : F64} (ha : isFinite a = true) (hy : inUnitRange y = true) :
    fbody (fmul a y) ≤ fbody a := by
  obtain ⟨hfinite, hle⟩ : isFinite y = true ∧ fmag y ≤ unitsPerOne := by simpa [inUnitRange] using hy
  refine fbody_fmul_le ha hfinite ?_
  rw [← fmag_eq_bodyMag]
  exact Nat.mul_le_mul_left _ hle

/-- The exact sum of a datum and an unsigned one of at least its magnitude is not negative and at most twice the latter. -/
theorem fint_add_bounds {a b : F64} (hb : fsign b = false) (h : fbody a ≤ fbody b) :
    0 ≤ fint a + fint b ∧ fint a + fint b ≤ 2 * fmag b := by
  have hmag : fmag a ≤ fmag b := by
    rw [fmag_eq_bodyMag, fmag_eq_bodyMag]
    exact bodyMag_strictMono.monotone h
  unfold fint
  rw [hb]
  generalize fmag a = m at *
  generalize fmag b = n at *
  cases fsign a <;> simp <;> omega

/-- A sum with an unsigned summand whose exact value is not negative carries no sign (R127). -/
theorem fsign_faddFinite_of_nonneg {a b : F64} (hb : fsign b = false) (h : 0 ≤ fint a + fint b) :
    fsign (faddFinite a b) = false := by
  rw [faddFinite, fsign_packF64_round]
  split
  · rw [hb, Bool.and_false]
  · exact decide_eq_false (not_lt.mpr h)

/-- Adding 0.5 to what lies in `[-0.5, 0.5]` gives what lies in `[+0.0, 1.0]`, rounding included. -/
theorem fadd_half_range {p : F64} (h : fbody p ≤ fbody fHALF) :
    inUnitRange (fadd p fHALF) = true ∧ fsign (fadd p fHALF) = false := by
  have hp : isFinite p = true := (isFinite_iff p).mpr (lt_of_le_of_lt h (by decide))
  have htwice : 2 * fmag fHALF = bodyMag (fbody fone) := by decide +kernel
  obtain ⟨hlow, hhigh⟩ := fint_add_bounds (b := fHALF) (by decide) h
  rw [fadd_of_finite hp (by decide), inUnitRange_iff_fbody_le]
  refine ⟨?_, fsign_faddFinite_of_nonneg (by decide) hlow⟩
  rw [faddFinite, fbody_packF64 _ (roundBody_lt _ _)]
  refine roundBody_le_of_le Nat.one_pos ?_
  rw [← htwice]
  generalize fmag fHALF = n at *
  omega

/-! The window. -/

/-- The window angle is computed as the angle of a twiddle factor (R174, R182), so it is finite too. -/
theorem isFinite_windowAngle {i : Nat} (h : i < 512) : isFinite (windowAngle i) = true :=
  isFinite_twiddleAngle (p := i) (by omega)

@[simp] theorem hannWindow_zero : hannWindow 0 = fHALF := rfl

theorem hannWindow_of_pos {i : Nat} (h : 0 < i) :
    hannWindow i = fadd (fmul fNEG_HALF (cosUnit (windowAngle i))) fHALF := if_neg h.ne'

/-- The middle of the frame is at the angle `PI` exactly. -/
theorem windowAngle_middle : windowAngle 256 = fPI := by decide +kernel

/-- Every Hann window value lies in `[+0.0, 1.0]`, whatever cosine the unit returns within its own range (R171). -/
theorem hannWindow_range {i : Nat} (h : i < 512) : inUnitRange (hannWindow i) = true ∧ fsign (hannWindow i) = false := by
  rcases Nat.eq_zero_or_pos i with rfl | hpos
  · rw [hannWindow_zero, inUnitRange_iff_fbody_le]
    decide
  · have hproduct : fbody (fmul fNEG_HALF (cosUnit (windowAngle i))) ≤ fbody fNEG_HALF :=
      fbody_fmul_le_left (by decide) (inUnitRange_cosUnit (isFinite_windowAngle h))
    rw [hannWindow_of_pos hpos]
    exact fadd_half_range (le_of_le_of_eq hproduct (by decide))

/-- Settles O34: the two clauses of the window's definition, the angle of the middle index, and the range. -/
theorem hannWindowRange : Obligations.HannWindowRange := by
  refine ⟨hannWindow_zero, fun i hpos _ => hannWindow_of_pos hpos, ⟨?middle, by decide +kernel⟩, fun i hi => ?range⟩
  case middle => rw [hannWindow_of_pos (by decide), windowAngle_middle]
  case range =>
    obtain ⟨hunit, hsign⟩ := hannWindow_range hi
    obtain ⟨hfinite, habs⟩ := abs_fvalue_le_one hunit
    exact ⟨hfinite, hsign, le_of_abs_le habs⟩

end Sys2Proof.Machine
end

section
/-! 42_window.md R170 to R173: the three forms of `LOAD`. -/

namespace Sys2Proof.Machine

/-- What every `LOAD` does: it succeeds with the windowed sample differences in `XIN` and stage `WINDOWED`, and changes
nothing else (R170). -/
theorem exec_of_perform_load {i : Instr} {w : Window} {s : State} (h : perform i s = performLoad w s) :
    ∃ t, exec i s = .next t ∧
      (∀ n < 512, t.xin n = ⟨windowed w n (ffloat (sampleDifference s.silence (s.smp n))), fzero⟩) ∧
      Succeeded t ∧ t.stage = .windowed ∧ SameZ s t ∧ SameScalars s t ∧ SameBytesOutside 0x2000 8192 s t ∧
      SameHostSide s t := by
  refine ⟨(performLoad w s).report, by rw [exec_eq_report, h], fun n hn => xin_load w s hn, ⟨rfl, rfl⟩, rfl,
    ?registers, ⟨rfl, rfl, rfl, rfl⟩, fun a ha => ?bytes, rfl, rfl, rfl⟩
  case registers => exact (performLoad_writesOnly w s).report.z (by decide)
  case bytes =>
    have hlen : 16 * (windowedFrame w s.silence s.smpAll).length = 8192 := by simp
    exact State.byte_storeCplxs s (a := xinBase) (hlen.symm ▸ ha)

/-- Settles O33: the three forms differ only in the window's value, 0.5 at index 0 of Hann (R171), the raised cosine from
index 1, and the Hamming formula at every index (R172). -/
theorem loadWindowsTheFrame : Obligations.LoadWindowsTheFrame := by
  refine ⟨by decide, by decide, by decide, fun s => ⟨exec_of_perform_load (w := .rect) rfl, ?hann,
    exec_of_perform_load (w := .hamm) rfl⟩⟩
  case hann =>
    obtain ⟨t, hexec, hxin, hframe⟩ := exec_of_perform_load (i := .loadHann) (w := .hann) (s := s) rfl
    refine ⟨t, hexec, hxin 0 (by decide), fun i hi hpos => ?_, hframe⟩
    rw [hxin i hi, windowed, hannWindow_of_pos hpos]
    rfl

end Sys2Proof.Machine
end

section
/-! 43_dft.md R182: the twiddle factor. -/

namespace Sys2Proof.Machine

/-- The sign is applied to the angle of the unreduced product (R182). -/
theorem twiddle_eq (k t : Nat) :
    twiddle k t = ⟨cosUnit (fneg (twiddleAngle (k * t))), sinUnit (fneg (twiddleAngle (k * t)))⟩ := rfl

theorem twiddle_comm (k t : Nat) : twiddle k t = twiddle t k := by rw [twiddle_eq, twiddle_eq, Nat.mul_comm]

/-- The conjugate of the exponential of the positive angle: the cosine is even, and the sine is odd as the angle is finite
(R182). -/
theorem twiddle_eq_conjugate {k t : Nat} (hk : k < 512) (ht : t < 512) :
    twiddle k t = ⟨cosUnit (twiddleAngle (k * t)), fneg (sinUnit (twiddleAngle (k * t)))⟩ := by
  have hproduct : k * t ≤ 2 ^ 18 := (Nat.mul_le_mul hk.le ht.le).trans (by decide)
  obtain ⟨hnan, -⟩ := isFinite_not_special (isFinite_twiddleAngle hproduct)
  rw [twiddle_eq, cosUnit_fneg, sinUnit_fneg hnan]

/-- Settles O36: the symmetry, index 0, and the two forms of the factor. -/
theorem twiddleFactorRules : Obligations.TwiddleFactorRules :=
  ⟨twiddle_comm, fun k => ⟨twiddle_index_zero k, twiddle_bin_zero k⟩,
    fun k t hk ht => ⟨twiddle_eq k t, twiddle_eq_conjugate hk ht⟩⟩

end Sys2Proof.Machine
end

section
/-! 43_dft.md R181, R183: the command `DFT`. -/

namespace Sys2Proof.Machine

/-- What `DFT` does, in every stage: it succeeds with the 512 bins of the frame in `XOUT` and stage `DFT`, and changes
nothing else (R181). -/
theorem exec_dft (s : State) :
    ∃ t, exec .dft s = .next t ∧ (∀ k < 512, t.xout k = dftBin s.xinAll k) ∧ Succeeded t ∧ t.stage = .dft ∧ SameZ s t ∧
      SameScalars s t ∧ SameBytesOutside 0x4000 8192 s t ∧ SameHostSide s t := by
  refine ⟨_, exec_eq_report .dft s, fun k hk => ?bins, ⟨rfl, rfl⟩, rfl, ?registers, ⟨rfl, rfl, rfl, rfl⟩, fun a ha => ?bytes,
    rfl, rfl, rfl⟩
  case bins => exact (xout_dft s hk).trans (dftBin_xinAll s k).symm
  case registers => exact (performDft_writesOnly s).report.z (by decide)
  case bytes =>
    have hlen : 16 * (dftFrame s.xinAll).length = 8192 := by rw [length_dftFrame]
    exact State.byte_storeCplxs s (a := xoutBase) (hlen.symm ▸ ha)

/-- Settles O35: each bin is the model's running sum, with the twiddle factor written out. -/
theorem dftTransformsTheFrame : Obligations.DftTransformsTheFrame := by
  refine ⟨by decide, fun s => ?_⟩
  obtain ⟨t, hexec, hbins, hframe⟩ := exec_dft s
  exact ⟨t, hexec, fun k hk => (hbins k hk).trans (dftBin_xinAll s k), hframe⟩

end Sys2Proof.Machine
end

section
/-! 43_dft.md R181 (b), (c): frames of real samples. An accumulator that starts at `+0.0` never becomes `-0.0`, so the zeros
that the imaginary parts contribute do not show in the sum. -/

namespace Sys2Proof.Machine

/-- Two finite data have one sum in either order: no NaN is drawn. -/
theorem fadd_comm_of_finite {a b : F64} (ha : isFinite a = true) (hb : isFinite b = true) : fadd a b = fadd b a := by
  rw [fadd_of_finite ha hb, fadd_of_finite hb ha, faddFinite, faddFinite, add_comm, Bool.and_comm]

theorem fadd_zero_self : fadd 0#64 0#64 = 0#64 := by decide +kernel

theorem fint_nonpos_of_fsign {x : F64} (h : fsign x = true) : fint x ≤ 0 := by
  rw [fint, if_pos h]
  omega

/-- A sum of finite data is a zero only where the exact sum is: sums do not underflow. -/
theorem isZero_faddFinite_iff (a b : F64) : isZero (faddFinite a b) = true ↔ fint a + fint b = 0 := by
  rw [faddFinite, isZero_iff, fbody_packF64 _ (roundBody_lt _ _)]
  refine ⟨fun hbody => ?_, fun hsum => by rw [hsum, Int.natAbs_zero, roundBody_zero]⟩
  by_contra hsum
  have hone : 1 ≤ roundBody (fint a + fint b).natAbs 1 :=
    le_roundBody_of_le Nat.one_pos (by decide) (by rw [show bodyMag 1 = 1 by decide]; omega)
  omega

/-- What a running sum from `+0.0` of finite data can be: a number, an infinity included, that is not `-0.0`. -/
def SumFromZero (x : F64) : Prop := x = 0#64 ∨ (isNaN x = false ∧ isZero x = false)

theorem sumFromZero_zero : SumFromZero 0#64 := .inl rfl

/-- A zero of either sign added to such a sum changes nothing (R127). -/
theorem SumFromZero.fadd_isZero {x z : F64} (hx : SumFromZero x) (hz : isZero z = true) : fadd x z = x := by
  rcases hx with rfl | ⟨hnan, hzero⟩
  · exact fadd_zero_keeps (.inl rfl) hz
  · exact fadd_isZero_right hnan hzero hz

/-- Such a sum and a finite datum do not cancel to `-0.0`, which takes two negative signs. -/
theorem SumFromZero.signs_of_cancel {x y : F64} (hx : SumFromZero x) (h : fint x + fint y = 0) :
    (fsign x && fsign y) = false := by
  rcases hx with rfl | ⟨-, hzero⟩
  · rfl
  · cases hsx : fsign x with
    | false => rfl
    | true =>
      have hneg : fint x < 0 := (fint_neg_iff hzero).mpr hsx
      cases hsy : fsign y with
      | false => rfl
      | true => have := fint_nonpos_of_fsign hsy; omega

/-- The next running sum is again neither a NaN nor `-0.0`. -/
theorem SumFromZero.fadd_finite {x y : F64} (hx : SumFromZero x) (hy : isFinite y = true) : SumFromZero (fadd x y) := by
  have hnan : isNaN x = false := by
    rcases hx with rfl | ⟨hnan, -⟩
    · decide
    · exact hnan
  rcases isFinite_or_isInf hnan with hfinite | hinf
  · rw [fadd_of_finite hfinite hy]
    by_cases hsum : fint x + fint y = 0
    · left
      rw [faddFinite]
      simp only [hsum, if_true, hx.signs_of_cancel hsum, Int.natAbs_zero, roundBody_zero]
      decide
    · right
      exact ⟨isNaN_packF64_round .., Bool.eq_false_iff.mpr (mt (isZero_faddFinite_iff x y).mp hsum)⟩
  · have hkeep : fadd x y = x := by rw [eq_finf_of_isInf hinf, fadd_finf_left _ hy]
    rwa [hkeep]

/-- Clearing the sign of a zero summand does not show in the sum. -/
theorem SumFromZero.fadd_fadd_zero {x y : F64} (hx : SumFromZero x) (hy : isFinite y = true) :
    fadd x (fadd y 0#64) = fadd x y := by
  cases hzero : isZero y with
  | true =>
    have hsum : isZero (fadd y 0#64) = true := by
      rw [fadd_zero_zero hzero (by decide)]
      exact isZero_packF64_zero _
    rw [hx.fadd_isZero hsum, hx.fadd_isZero hzero]
  | false => rw [fadd_zero_right hy hzero (by decide)]

/-- A real sample times the twiddle factor of an index 0: the sample, a zero sample as `+0.0` (R182). -/
theorem cmul_real_unit {x : F64} (hx : isFinite x = true) :
    cmul ⟨x, 0#64⟩ ⟨fone, 0x8000000000000000#64⟩ = ⟨fadd x 0#64, 0#64⟩ := by
  have hreal : fneg (fmul 0#64 0x8000000000000000#64) = 0#64 := by decide +kernel
  have himag : fadd (fmul x 0x8000000000000000#64) (fmul 0#64 fone) = 0#64 := by
    rw [fmul_one_right (by decide), fmul_zero_right hx (by decide), fadd_zero_zero (isZero_packF64_zero _) (by decide),
      show fsign 0#64 = false by decide, Bool.and_false]
    decide
  simp only [cmul, fsub, fmul_one_right hx, hreal, himag]

/-- Bin 0 over a run of indices with real finite samples. -/
theorem foldl_bin_zero {xs : Nat → Cplx} {is : List Nat} (h : ∀ i ∈ is, (xs i).im = 0#64 ∧ isFinite (xs i).re = true)
    {x : F64} (hx : SumFromZero x) :
    is.foldl (fun acc i => cadd acc (cmul (xs i) (twiddle 0 i))) ⟨x, 0#64⟩ =
      ⟨is.foldl (fun acc i => fadd acc (xs i).re) x, 0#64⟩ := by
  induction is generalizing x with
  | nil => rfl
  | cons i is ih =>
    obtain ⟨him, hre⟩ := h i List.mem_cons_self
    have hterm : cmul (xs i) (twiddle 0 i) = ⟨fadd (xs i).re 0#64, 0#64⟩ := by
      rw [twiddle_bin_zero, ← cmul_real_unit hre, ← him]
    have hstep : cadd ⟨x, 0#64⟩ (cmul (xs i) (twiddle 0 i)) = ⟨fadd x (xs i).re, 0#64⟩ := by
      rw [hterm, cadd, hx.fadd_fadd_zero hre, fadd_zero_self]
    rw [List.foldl_cons, List.foldl_cons, hstep]
    exact ih (fun j hj => h j (List.mem_cons_of_mem _ hj)) (hx.fadd_finite hre)

/-- Settles O38: each product is the sample but for the sign of a zero, which the sum does not show. -/
theorem binZeroIsTheRunningSum : Obligations.BinZeroIsTheRunningSum := by
  intro s hreal
  obtain ⟨t, hexec, hbins, -⟩ := exec_dft s
  refine ⟨t, hexec, ?_⟩
  rw [hbins 0 (by decide), dftBin_xinAll]
  exact foldl_bin_zero (fun i hi => hreal i (List.mem_range.mp hi)) sumFromZero_zero

/-- A zero sample leaves an accumulator of two such sums as it is. -/
theorem cadd_cmul_zero_sample {acc w : Cplx} (hre : SumFromZero acc.re) (him : SumFromZero acc.im)
    (hwre : isFinite w.re = true) (hwim : isFinite w.im = true) : cadd acc (cmul ⟨0#64, 0#64⟩ w) = acc := by
  obtain ⟨hzre, hzim⟩ := cmul_zero_sample hwre hwim
  rw [cadd, hre.fadd_isZero hzre, him.fadd_isZero hzim]

/-- A real sample at index 0 and zeros behind it: index 0 adds the sample, the others add zeros. -/
theorem dftBin_impulse {s : State} {a : F64} {k : Nat} (hk : k < 512) (hfinite : isFinite a = true) (hzero : isZero a = false)
    (hfirst : s.xin 0 = ⟨a, 0#64⟩) (hrest : ∀ i < 512, 0 < i → s.xin i = ⟨0#64, 0#64⟩) : dftBin s.xinAll k = ⟨a, 0#64⟩ := by
  have hstart : cadd czero (cmul (s.xin 0) (twiddle k 0)) = ⟨a, 0#64⟩ := by
    rw [hfirst, twiddle_index_zero, cmul_real_unit hfinite, fadd_zero_right hfinite hzero (by decide), cadd, czero,
      fzero, fadd_comm_of_finite (by decide) hfinite, fadd_zero_right hfinite hzero (by decide), fadd_zero_self]
  rw [dftBin_xinAll, List.range_eq_range', List.range'_succ, List.foldl_cons, hstart]
  refine foldl_keeps fun i hi => ?_
  obtain ⟨hpos, hi⟩ := List.mem_range'_1.mp hi
  obtain ⟨hwre, hwim⟩ := isFinite_twiddle hk hi
  rw [hrest i hi hpos]
  exact cadd_cmul_zero_sample (.inr ⟨(isFinite_not_special hfinite).1, hzero⟩) sumFromZero_zero hwre hwim

/-- Settles O37, bin by bin. -/
theorem impulseTransformsToConstant : Obligations.ImpulseTransformsToConstant := by
  intro s a hfinite hzero hfirst hrest
  obtain ⟨t, hexec, hbins, -⟩ := exec_dft s
  exact ⟨t, hexec, fun k hk => (hbins k hk).trans (dftBin_impulse hk hfinite hzero hfirst hrest)⟩

end Sys2Proof.Machine
end

section
/-! 43_dft.md R181 (f): what is not finite, once in a running sum, stays in it. -/

namespace Sys2Proof.Machine

/-- A running sum has a property at its end that one term brings about and every term keeps. -/
theorem foldl_reaches {α β : Type} {P : β → Prop} {f : β → α → β} {l : List α} {a : α} (ha : a ∈ l)
    (hreach : ∀ b, P (f b a)) (hkeep : ∀ b c, P b → P (f b c)) (b : β) : P (l.foldl f b) := by
  obtain ⟨before, after, rfl⟩ := List.append_of_mem ha
  rw [List.foldl_append, List.foldl_cons]
  exact List.foldlRecOn after f (hreach _) fun b hb c _ => hkeep b c hb

/-- A complex product whose first factor has a NaN part is a NaN in both parts (R124, R152). -/
theorem isNaN_cmul {z : Cplx} (w : Cplx) (h : isNaN z.re = true ∨ isNaN z.im = true) :
    isNaN (cmul z w).re = true ∧ isNaN (cmul z w).im = true := by
  rcases h with h | h
  · exact ⟨isNaN_fsub_left _ (isNaN_fmul_left _ h), isNaN_fadd_left _ (isNaN_fmul_left _ h)⟩
  · exact ⟨isNaN_fsub_right _ (isNaN_fmul_left _ h), isNaN_fadd_right _ (isNaN_fmul_left _ h)⟩

/-- What one summand brings into a sum, in either place, one product brings into both parts of a bin. -/
theorem dftBin_absorbs {P : F64 → Prop} (hleft : ∀ {a : F64} (b), P a → P (fadd a b))
    (hright : ∀ (a : F64) {b}, P b → P (fadd a b)) {s : State} {i k : Nat} (hi : i < 512)
    (hterm : P (cmul (s.xin i) (twiddle k i)).re ∧ P (cmul (s.xin i) (twiddle k i)).im) :
    P (dftBin s.xinAll k).re ∧ P (dftBin s.xinAll k).im := by
  obtain ⟨hre, him⟩ := hterm
  rw [dftBin_xinAll]
  exact foldl_reaches (P := fun acc : Cplx => P acc.re ∧ P acc.im) (List.mem_range.mpr hi)
    (fun _ => ⟨hright _ hre, hright _ him⟩) (fun _ _ ⟨hre, him⟩ => ⟨hleft _ hre, hleft _ him⟩) czero

/-- Settles O39: what is not finite, and what is a NaN, is absorbed by sums and passed on by every complex product. -/
theorem naNInputReachesEveryBin : Obligations.NaNInputReachesEveryBin := by
  intro s i hi hspecial
  obtain ⟨t, hexec, hbins, ⟨hfail, -⟩, -⟩ := exec_dft s
  refine ⟨t, hexec, hfail, fun k hk => ?_, fun hnan k hk => ?_⟩
  · rw [hbins k hk]
    exact dftBin_absorbs (P := (isFinite · = false)) not_finite_fadd_left not_finite_fadd_right hi (not_finite_cmul _ hspecial)
  · rw [hbins k hk]
    exact dftBin_absorbs (P := (isNaN · = true)) isNaN_fadd_left isNaN_fadd_right hi (isNaN_cmul _ hnan)

end Sys2Proof.Machine
end

section
/-! 30_encoding.md R92: the words of the commands with a bin number or a scan range. -/

namespace Sys2Proof

/-- A word of format K: the opcode in bits 7:0, the bin number from bit 8 (R92). -/
theorem encodeK_eq_or (op : Opcode) {k : Nat} (hk : k < 65536) :
    encodeK op k = op.code.setWidth 32 ||| BitVec.ofNat 32 k <<< 8 := by
  rw [← BitVec.setWidth_eq (encodeK op k), encodeK]
  simp only [setWidth_append_eq_or, BitVec.shiftLeft_or_distrib, ← BitVec.shiftLeft_add,
    BitVec.setWidth_ofNat_of_le_of_lt (w := 16) (v := 32) (by decide) hk]
  simp

/-- A word of format R: the opcode in bits 7:0, the lower bound from bit 8, the upper one from bit 18 (R92). -/
theorem encodeR_eq_or (op : Opcode) {lo hi : Nat} (hlo : lo < 1024) (hhi : hi < 1024) :
    encodeR op lo hi = op.code.setWidth 32 ||| BitVec.ofNat 32 lo <<< 8 ||| BitVec.ofNat 32 hi <<< 18 := by
  rw [← BitVec.setWidth_eq (encodeR op lo hi), encodeR]
  simp only [setWidth_append_eq_or, BitVec.shiftLeft_or_distrib, ← BitVec.shiftLeft_add,
    BitVec.setWidth_ofNat_of_le_of_lt (w := 10) (v := 32) (by decide) hlo,
    BitVec.setWidth_ofNat_of_le_of_lt (w := 10) (v := 32) (by decide) hhi]
  simp [BitVec.or_assoc]

end Sys2Proof
end

section
/-! 44_power_peak.md R190, R192: the commands `POWER` and `GETPWR`. -/

namespace Sys2Proof.Machine

/-- `POWER` below stage `DFT` only reports `SEQ` (R190). -/
theorem exec_power_of_stage_lt {s : State} (h : s.stage.code < 2) :
    ∃ t, exec .power s = .next t ∧ FailedWith .seq s t := by
  refine ⟨_, exec_eq_report .power s, ?_⟩
  rw [perform, performPower_seq h, Ended.report_failed]
  exact failedWith_failWith .seq s

/-- What `POWER` does from stage `DFT` on: it succeeds with the powers of the 512 bins in `PWR` and stage `POWER`, and
changes nothing else (R190). -/
theorem exec_power_of_stage_ge {s : State} (h : 2 ≤ s.stage.code) :
    ∃ t, exec .power s = .next t ∧ (∀ k < 512, t.pwr k = binPower (s.xout k)) ∧ Succeeded t ∧ t.stage = .power ∧
      SameZ s t ∧ SameScalars s t ∧ SameBytesOutside 0x1000 4096 s t ∧ SameHostSide s t := by
  refine ⟨((s.storeF64s pwrBase (s.xoutAll.map binPower)).setStage .power).succeed,
    by rw [exec_eq_report, perform, performPower_ran h, Ended.report_ran], fun k hk => pwr_power s hk, ⟨rfl, rfl⟩,
    rfl, fun r => by simp, ⟨rfl, rfl, rfl, rfl⟩, fun a ha => ?bytes, rfl, rfl, rfl⟩
  case bytes =>
    have hlen : 8 * (s.xoutAll.map binPower).length = 4096 := by simp
    exact State.byte_storeF64s s (a := pwrBase) (hlen.symm ▸ ha)

/-- Settles O40: the two ends of `POWER`, the power of a bin written out. -/
theorem powerWritesThePeriodogram : Obligations.PowerWritesThePeriodogram :=
  ⟨by decide, fun _ => exec_power_of_stage_lt, fun _ => exec_power_of_stage_ge⟩

theorem selectedPower_of_lt {k : Nat} (h : k < 512) (s : State) : selectedPower k s = binPower (s.xout k) := by
  rw [selectedPower, binOf, if_pos h]

theorem selectedPower_of_ge {k : Nat} (h : 512 ≤ k) (s : State) : selectedPower k s = 0#64 := by
  rw [selectedPower, binOf, if_neg (Nat.not_lt.mpr h)]
  rfl

/-- What `GETPWR` does, in every stage: it succeeds with the selected power in `RESULT`, and changes nothing else
(R192). -/
theorem exec_getpwr (k : Nat) (s : State) :
    ∃ t, exec (.getpwr k) s = .next t ∧ t.result = selectedPower k s ∧ Succeeded t ∧ t.stage = s.stage ∧ SameZ s t ∧
      t.silence = s.silence ∧ t.peakidx = s.peakidx ∧ t.peakval = s.peakval ∧ SameBytes s t ∧ SameHostSide s t := by
  refine ⟨_, exec_eq_report (.getpwr k) s, rfl, ⟨rfl, rfl⟩, rfl, ?registers, rfl, rfl, rfl, fun _ => rfl, rfl, rfl, rfl⟩
  case registers => exact (exec_writesOnly (exec_eq_report (.getpwr k) s)).z (by simp [regionsWritten])

/-- Settles O42: `POWER` leaves `XOUT` as it is, so a query behind it computes the power of the same bin again. -/
theorem getpwrQueriesOneBin : Obligations.GetpwrQueriesOneBin := by
  refine ⟨fun k hk => ?word, fun k s => ?query, fun k s hk hstage => ?agrees⟩
  case word => exact decode_of_encode_eq ((wellFormed_getpwr k).mpr hk) (encodeK_eq_or .getpwr hk)
  case query =>
    obtain ⟨t, hexec, hresult, hframe⟩ := exec_getpwr k s
    exact ⟨t, hexec, fun hk => hresult.trans (selectedPower_of_lt hk s), fun hk => hresult.trans (selectedPower_of_ge hk s),
      hframe⟩
  case agrees =>
    obtain ⟨t, hpower, hpwr, -⟩ := exec_power_of_stage_ge hstage
    obtain ⟨u, hquery, hresult, -⟩ := exec_getpwr k t
    have hxout : t.xout k = s.xout k := (exec_writesOnly hpower).xout (by simp [regionsWritten]) k hk
    refine ⟨t, u, hpower, hquery, ?_⟩
    rw [hresult, selectedPower_of_lt hk, hxout, hpwr k hk]

end Sys2Proof.Machine
end

section
/-! 44_power_peak.md R191: the sign and the special values of a power. -/

namespace Sys2Proof.Machine

/-- The product of two unsigned data, the second finite and not a zero, is not a NaN and carries no sign (R125). -/
theorem fmul_unsigned {a b : F64} (ha : isNaN a = false) (hsa : fsign a = false) (hb : isFinite b = true)
    (hzb : isZero b = false) (hsb : fsign b = false) : isNaN (fmul a b) = false ∧ fsign (fmul a b) = false := by
  have hnan : isNaN (fmul a b) = false := by
    rcases isFinite_or_isInf ha with hfinite | hinf
    · rw [fmul_of_finite hfinite hb]
      exact isNaN_packF64_round ..
    · rw [eq_finf_of_isInf hinf, fmul_finf_left _ (isFinite_not_special hb).1, hzb]
      exact isNaN_finf _
  exact ⟨hnan, by rw [fsign_fmul hnan, hsa, hsb]; rfl⟩

/-- A NaN part makes the power a NaN (R124). -/
theorem isNaN_binPower_of_isNaN {z : Cplx} (h : isNaN z.re = true ∨ isNaN z.im = true) : isNaN (binPower z) = true := by
  refine isNaN_fmul_left _ ?_
  rcases h with hre | him
  · exact isNaN_fadd_left _ (isNaN_fmul_left _ hre)
  · exact isNaN_fadd_right _ (isNaN_fmul_left _ him)

/-- Without a NaN part the power is not a NaN and carries no sign. -/
theorem binPower_unsigned {z : Cplx} (hre : isNaN z.re = false) (him : isNaN z.im = false) :
    isNaN (binPower z) = false ∧ fsign (binPower z) = false := by
  obtain ⟨hreNan, hreSign⟩ := fmul_self_unsigned hre
  obtain ⟨himNan, himSign⟩ := fmul_self_unsigned him
  obtain ⟨hsumNan, hsumSign⟩ := fadd_unsigned hreNan himNan hreSign himSign
  exact fmul_unsigned hsumNan hsumSign (by decide) (by decide) (by decide)

/-- A square that is a zero is `+0.0`. -/
theorem fmul_self_of_isZero {x : F64} (h : isZero (fmul x x) = true) : fmul x x = 0#64 := by
  have hsign : fsign (fmul x x) = false := by
    rw [fsign_fmul (isZero_not_special h).1, bne_self_eq_false]
  rw [← packF64_fsign_fbody (fmul x x), hsign, (isZero_iff _).mp h]
  rfl

/-- Two squares that are zeros make the power `+0.0`. -/
theorem binPower_of_isZero {z : Cplx} (hre : isZero (fmul z.re z.re) = true) (him : isZero (fmul z.im z.im) = true) :
    binPower z = 0#64 := by
  rw [binPower, normSquared, fmul_self_of_isZero hre, fmul_self_of_isZero him, fadd_zero_self]
  decide +kernel

/-- Without a NaN part an infinite square makes the power `+inf`. -/
theorem binPower_of_isInf {z : Cplx} (hre : isNaN z.re = false) (him : isNaN z.im = false)
    (h : isInf (fmul z.re z.re) = true ∨ isInf (fmul z.im z.im) = true) : binPower z = finf false := by
  obtain ⟨hreNan, hreSign⟩ := fmul_self_unsigned hre
  obtain ⟨himNan, himSign⟩ := fmul_self_unsigned him
  rw [binPower, normSquared, fadd_unsigned_inf hreNan himNan hreSign himSign h]
  decide

/-- Settles O41: with a NaN part the power is a NaN; without one it is not, and carries no sign. -/
theorem powerIsNeverNegative : Obligations.PowerIsNeverNegative := by
  intro z
  by_cases hpart : isNaN z.re = true ∨ isNaN z.im = true
  · have hnan := isNaN_binPower_of_isNaN hpart
    exact ⟨iff_of_true hnan hpart, fun h => absurd hnan (by simp [h]), binPower_of_isZero, binPower_of_isInf⟩
  · obtain ⟨hre, him⟩ : isNaN z.re = false ∧ isNaN z.im = false := by simpa using hpart
    obtain ⟨hnan, hsign⟩ := binPower_unsigned hre him
    exact ⟨iff_of_false (by simp [hnan]) hpart, fun _ => hsign, binPower_of_isZero, binPower_of_isInf⟩

end Sys2Proof.Machine
end

section
/-! 44_power_peak.md R195 to R197: the scan for the first maximum, and the commands `PEAKRE` and `PEAKPW`. -/

namespace Sys2Proof.Machine

/-! The strict comparison on data that may be NaNs (R132). -/

theorem fgt_eq_true_iff {a b : F64} : fgt a b = true ↔ (isNaN a = false ∧ isNaN b = false) ∧ fkey b < fkey a := by
  simp [fgt]

theorem fgt_irrefl (a : F64) : fgt a a = false := by simp [fgt]

/-- Nothing that a datum exceeds, and no NaN, exceeds the datum. -/
theorem not_fgt_of_fgt_or_isNaN {a b : F64} (h : fgt a b = true ∨ isNaN b = true) : fgt b a = false := by
  rw [Bool.eq_false_iff, Ne, fgt_eq_true_iff]
  rintro ⟨⟨hb, -⟩, hlt⟩
  rcases h with h | h
  · have := (fgt_eq_true_iff.mp h).2
    omega
  · rw [hb] at h
    cases h

/-- What exceeds a datum exceeds all that does not exceed it, the NaNs apart. -/
theorem fgt_or_isNaN_of_not_fgt {a b c : F64} (hac : fgt a c = true) (hbc : fgt b c = false) :
    fgt a b = true ∨ isNaN b = true := by
  obtain ⟨⟨ha, hc⟩, hlt⟩ := fgt_eq_true_iff.mp hac
  cases hb : isNaN b with
  | true => exact .inr rfl
  | false =>
    rw [Bool.eq_false_iff, Ne, fgt_iff hb hc] at hbc
    exact .inl ((fgt_iff ha hb).mpr (by omega))

/-! The scan. -/

/-- A step of the scan takes the bin exactly when its value exceeds the best (R195). -/
theorem scanStep_cases (v : Nat → F64) (best : F64 × Nat) (k : Nat) :
    (fgt (v k) best.1 = true ∧ scanStep v best k = (v k, k)) ∨ (fgt (v k) best.1 = false ∧ scanStep v best k = best) := by
  unfold scanStep
  cases h : fgt (v k) best.1 <;> simp

/-- A scan of ascending bins ends with a value that none of them exceeds and that exceeds every one before its bin, the NaNs
apart. -/
theorem foldl_scanStep_isFirstMaximum (v : Nat → F64) {ks : List Nat} (hasc : ks.Pairwise (· < ·)) :
    let best := ks.foldl (scanStep v) (fzero, 0)
    ∀ k ∈ ks, fgt (v k) best.1 = false ∧ (k < best.2 → fgt best.1 (v k) = true ∨ isNaN (v k) = true) := by
  induction ks using List.reverseRecOn with
  | nil => exact nofun
  | append_singleton ks last ih =>
    obtain ⟨hks, -, hbelow⟩ := List.pairwise_append.mp hasc
    have hold := ih hks
    have hindex : (ks.foldl (scanStep v) (fzero, 0)).2 ≤ last := by
      rcases foldl_scanStep v (fzero, 0) ks with hstart | ⟨hmem, -⟩
      · rw [hstart]
        exact Nat.zero_le last
      · exact (hbelow _ hmem last (List.mem_singleton_self last)).le
    rw [List.foldl_concat]
    simp only [List.forall_mem_append, List.forall_mem_singleton]
    rcases scanStep_cases v (ks.foldl (scanStep v) (fzero, 0)) last with ⟨hgt, hstep⟩ | ⟨hle, hstep⟩ <;> rw [hstep]
    · refine ⟨fun k hk => ?_, fgt_irrefl _, fun h => absurd h (Nat.lt_irrefl last)⟩
      have hbeaten := fgt_or_isNaN_of_not_fgt hgt (hold k hk).1
      exact ⟨not_fgt_of_fgt_or_isNaN hbeaten, fun _ => hbeaten⟩
    · exact ⟨hold, hle, fun h => absurd h (Nat.not_lt.mpr hindex)⟩

theorem mem_scanBins {lo hi k : Nat} : k ∈ scanBins lo hi ↔ lo ≤ k ∧ k < min hi 512 := by
  rw [scanBins, List.mem_range'_1]
  omega

/-- The bins of a range are scanned in ascending order (R195). -/
theorem scanBins_ascending (lo hi : Nat) : (scanBins lo hi).Pairwise (· < ·) := List.pairwise_lt_range'

/-- `PEAKVAL` and `PEAKIDX` report the scan of the values `v` over the range (R195): no bin exceeds `+0.0`, or they are the
first maximum and its bin. -/
def PeakFound (v : Nat → F64) (lo hi : Nat) (t : State) : Prop :=
  ((∀ k, lo ≤ k → k < min hi 512 → fgt (v k) 0#64 = false) ∧ t.peakval = 0#64 ∧ t.peakidx = 0#10) ∨
  (lo ≤ t.peakidx.toNat ∧ t.peakidx.toNat < min hi 512 ∧ t.peakval = v t.peakidx.toNat ∧ fgt t.peakval 0#64 = true ∧
    (∀ k, lo ≤ k → k < min hi 512 → fgt (v k) t.peakval = false) ∧
    ∀ k, lo ≤ k → k < t.peakidx.toNat → fgt t.peakval (v k) = true ∨ isNaN (v k) = true)

/-- The result of a scan, delivered to the two registers, is the first maximum: every bin number fits `PEAKIDX`. -/
theorem peakFound_of_scan {v : Nat → F64} {lo hi : Nat} {t : State} (hval : t.peakval = (scan v lo hi).1)
    (hidx : t.peakidx = BitVec.ofNat 10 (scan v lo hi).2) : PeakFound v lo hi t := by
  have hfirst : ∀ k ∈ scanBins lo hi, fgt (v k) (scan v lo hi).1 = false ∧
      (k < (scan v lo hi).2 → fgt (scan v lo hi).1 (v k) = true ∨ isNaN (v k) = true) :=
    foldl_scanStep_isFirstMaximum v (scanBins_ascending lo hi)
  have hnat : t.peakidx.toNat = (scan v lo hi).2 := by
    have := scan_snd_lt v lo hi
    rw [hidx, BitVec.toNat_ofNat, Nat.mod_eq_of_lt (by omega)]
  rcases foldl_scanStep v (fzero, 0) (scanBins lo hi) with hnone | ⟨hmem, hvalue, hpos⟩
  · have hscan : scan v lo hi = (fzero, 0) := hnone
    rw [hscan] at hval hidx hfirst
    exact .inl ⟨fun k hlo hhi => (hfirst k (mem_scanBins.mpr ⟨hlo, hhi⟩)).1, hval, hidx⟩
  · obtain ⟨hlo, hhi⟩ := mem_scanBins.mp hmem
    rw [PeakFound, hval, hnat]
    exact .inr ⟨hlo, hhi, hvalue, hpos, fun k hk hk' => (hfirst k (mem_scanBins.mpr ⟨hk, hk'⟩)).1,
      fun k hk hbefore => (hfirst k (mem_scanBins.mpr ⟨hk, hbefore.trans hhi⟩)).2 hbefore⟩

/-- What both peak finders do: they succeed with the first maximum of the values they scan, and change nothing but the two
peak registers (R195). -/
theorem exec_of_perform_scan {i : Instr} {s : State} {v : Nat → F64} {lo hi : Nat}
    (h : perform i s = .ran (s.setPeak (scan v lo hi))) :
    ∃ t, exec i s = .next t ∧ PeakFound v lo hi t ∧ Succeeded t ∧ t.stage = s.stage ∧ SameZ s t ∧ t.silence = s.silence ∧
      t.result = s.result ∧ SameBytes s t ∧ SameHostSide s t :=
  ⟨(s.setPeak (scan v lo hi)).succeed, by rw [exec_eq_report, h, Ended.report_ran], peakFound_of_scan rfl rfl, ⟨rfl, rfl⟩,
    rfl, fun r => by simp, rfl, rfl, fun _ => rfl, rfl, rfl, rfl⟩

/-- Settles O43: the two commands differ only in the values they scan. -/
theorem peakScanFindsTheFirstMaximum : Obligations.PeakScanFindsTheFirstMaximum := by
  refine ⟨fun lo hlo hi hhi => ⟨?peakre, ?peakpw⟩, fun lo hi s => ⟨exec_of_perform_scan rfl, exec_of_perform_scan rfl⟩⟩
  case peakre => exact decode_of_encode_eq ((wellFormed_peakre lo hi).mpr ⟨hlo, hhi⟩) (encodeR_eq_or .peakre hlo hhi)
  case peakpw => exact decode_of_encode_eq ((wellFormed_peakpw lo hi).mpr ⟨hlo, hhi⟩) (encodeR_eq_or .peakpw hlo hhi)

end Sys2Proof.Machine
end

section
/-! 44_power_peak.md R199: a frame of pure silence has no peak. Its samples are zeros after the window, its bins and powers
zeros after the transform. -/

namespace Sys2Proof.Machine

/-- `FRAME` ends where its three commands end one after the other: the reports between them are overwritten (R232). -/
theorem exec_frame_of_commands {s a b t : State} (hload : exec .loadHann s = .next a) (hdft : exec .dft a = .next b)
    (hpower : exec .power b = .next t) : exec .frame s = .next t := by
  rw [exec_eq_next_iff] at *
  subst hload hdft hpower
  rfl

/-- The window of a zero difference is `+0.0`: no Hann window value is negative or infinite (R171). -/
theorem windowed_hann_zero {i : Nat} (h : i < 512) : windowed .hann i 0#64 = 0#64 := by
  obtain ⟨hunit, hsign⟩ := hannWindow_range h
  rw [windowed, fmul_zero_right (abs_fvalue_le_one hunit).1 (by decide), hsign]
  decide

/-- The transform of a frame of zeros is `+0.0` in both parts of every bin, whatever the cosine and sine units are
(R181). -/
theorem dftBin_of_zero_frame {s : State} {k : Nat} (hk : k < 512) (h : ∀ i < 512, s.xin i = ⟨0#64, 0#64⟩) :
    dftBin s.xinAll k = ⟨0#64, 0#64⟩ := by
  rw [dftBin_xinAll]
  refine foldl_keeps fun i hi => ?_
  have hi : i < 512 := List.mem_range.mp hi
  obtain ⟨hwre, hwim⟩ := isFinite_twiddle hk hi
  rw [h i hi]
  exact cadd_cmul_zero_sample sumFromZero_zero sumFromZero_zero hwre hwim

/-- `FRAME` on a silent frame leaves zeros in `XOUT` and in `PWR` (R199). -/
theorem exec_frame_of_silence {s : State} (h : ∀ i < 512, s.smp i = s.silence) :
    ∃ t, exec .frame s = .next t ∧ ∀ k < 512, t.xout k = ⟨0#64, 0#64⟩ ∧ t.pwr k = 0#64 := by
  obtain ⟨a, hload, hxin, -⟩ := exec_of_perform_load (i := .loadHann) (w := .hann) (s := s) rfl
  obtain ⟨b, hdft, hbins, -, hstage, -⟩ := exec_dft a
  obtain ⟨t, hpower, hpwr, -⟩ := exec_power_of_stage_ge (s := b) (by rw [hstage]; decide)
  have hzero : ∀ i < 512, a.xin i = ⟨0#64, 0#64⟩ := fun i hi => by
    rw [hxin i hi, h i hi, sampleDifference, sub_self, ffloat_zero, windowed_hann_zero hi]
    rfl
  have hxout : ∀ k < 512, b.xout k = ⟨0#64, 0#64⟩ := fun k hk => by rw [hbins k hk, dftBin_of_zero_frame hk hzero]
  refine ⟨t, exec_frame_of_commands hload hdft hpower, fun k hk => ⟨?_, ?_⟩⟩
  · rw [(exec_writesOnly hpower).xout (by simp [regionsWritten]) k hk, hxout k hk]
  · rw [hpwr k hk, hxout k hk]
    exact binPower_of_isZero (by decide +kernel) (by decide +kernel)

/-- A scan of zeros reports no bin. -/
theorem PeakFound.of_zero {v : Nat → F64} {lo hi : Nat} {t : State} (h : PeakFound v lo hi t) (hv : ∀ k < 512, v k = 0#64) :
    t.peakval = 0#64 ∧ t.peakidx = 0#10 := by
  rcases h with ⟨-, hnone⟩ | ⟨-, hhi, hval, hpos, -⟩
  · exact hnone
  · rw [hval, hv _ (by omega), fgt_irrefl] at hpos
    cases hpos

/-- Settles O44: both scans see nothing but `+0.0`. -/
theorem silentFrameHasNoPeak : Obligations.SilentFrameHasNoPeak := by
  intro s hsilent
  obtain ⟨t, hframe, hbuffers⟩ := exec_frame_of_silence hsilent
  refine ⟨t, hframe, fun lo hi => ⟨?_, ?_⟩⟩
  · obtain ⟨u, hexec, hfound, -⟩ := exec_of_perform_scan (i := .peakre lo hi) (s := t) rfl
    exact ⟨u, hexec, hfound.of_zero fun k hk => by rw [(hbuffers k hk).1]⟩
  · obtain ⟨u, hexec, hfound, -⟩ := exec_of_perform_scan (i := .peakpw lo hi) (s := t) rfl
    exact ⟨u, hexec, hfound.of_zero fun k hk => (hbuffers k hk).2⟩

end Sys2Proof.Machine
end

section
/-! 45_mel_dct.md R217, R243, R244: the commands that ask for a stage, or for the Mel/DCT unit, and are refused. -/

namespace Sys2Proof.Machine

/-- A command whose work fails with nothing written only reports the failure (R241). -/
theorem exec_of_perform_failed {i : Instr} {s : State} {c : ErrCode} (h : perform i s = .failed c s) :
    ∃ t, exec i s = .next t ∧ FailedWith c s t :=
  ⟨s.failWith c, by rw [exec_eq_report, h, Ended.report_failed], failedWith_failWith c s⟩

/-- `MELFB` below stage `POWER`: the missing unit is reported before the missing stage (R244). -/
theorem performMelfb_of_stage_lt {s : State} (h : s.stage.code < 3) :
    performMelfb s = .failed (if Config.melPresent then .seq else .unimpl) s := by
  unfold performMelfb
  cases Config.melPresent with
  | false => exact performMelfbWith_unimpl _ _ s
  | true => exact performMelfbWith_seq _ _ h

/-- `DCT` below stage `MEL`: the missing unit is reported before the missing stage (R244). -/
theorem performDct_of_stage_lt {s : State} (h : s.stage.code < 4) :
    performDct s = .failed (if Config.melPresent then .seq else .unimpl) s := by
  unfold performDct
  cases Config.melPresent with
  | false => exact performDctWith_unimpl s
  | true => exact performDctWith_seq h

/-- Settles O55, consumer by consumer. -/
theorem stagePreconditions : Obligations.StagePreconditions := fun _ =>
  ⟨exec_power_of_stage_lt, fun h => exec_of_perform_failed (performMelfb_of_stage_lt h),
    fun h => exec_of_perform_failed (performDct_of_stage_lt h)⟩

end Sys2Proof.Machine
end

section
/-! 45_mel_dct.md R213, R216: the filter table and the zero substitute as configured. -/

namespace Sys2Proof.Machine

theorem legalEdges_iff {es : List Nat} :
    legalEdges es = true ↔ es.length = 28 ∧ es.Pairwise (· < ·) ∧ ∀ e ∈ es, e ≤ 256 := by
  simp [legalEdges, and_assoc]

/-- The table in use is a legal one, whatever the configured one is. -/
theorem legalEdges_melEdges : legalEdges melEdges = true := by
  unfold melEdges
  split
  case isTrue h => exact h
  case isFalse => decide

theorem length_melEdges : melEdges.length = 28 := (legalEdges_iff.mp legalEdges_melEdges).1

theorem melEdges_le {e : Nat} (h : e ∈ melEdges) : e ≤ 256 := by
  obtain ⟨-, -, hle⟩ := legalEdges_iff.mp legalEdges_melEdges
  exact hle e h

/-- Each edge lies below the next. -/
theorem melEdges_lt_succ {j : Nat} (h : j < 27) : melEdges.getD j 0 < melEdges.getD (j + 1) 0 := by
  obtain ⟨hlen, hasc, -⟩ := legalEdges_iff.mp legalEdges_melEdges
  rw [List.getD_eq_getElem _ _ (by omega), List.getD_eq_getElem _ _ (by omega)]
  exact List.pairwise_iff_getElem.mp hasc j (j + 1) _ _ (Nat.lt_succ_self j)

theorem melEdges_getD_le {j : Nat} (h : j < 28) : melEdges.getD j 0 ≤ 256 := by
  have hj : j < melEdges.length := by rwa [length_melEdges]
  rw [List.getD_eq_getElem _ _ hj]
  exact melEdges_le (List.getElem_mem hj)

/-- The substitute in use is not a zero, whatever the configured one is. -/
theorem isZero_melZeroSubst : isZero melZeroSubst = false := by
  unfold melZeroSubst
  split
  case isTrue => decide
  case isFalse h => exact Bool.eq_false_iff.mpr h

/-- A zero of either sign compares equal to `+0.0` (R132). -/
theorem feq_zero_of_isZero {x : F64} (h : isZero x = true) : feq x 0#64 = true :=
  (feq_iff (isZero_not_special h).1 (by decide)).mpr (by rw [fkey_zero h, fkey_zero (by decide)])

/-- Settles O47: a zero energy is replaced by what is not a zero, and every other energy is none itself. -/
theorem melParametersAreLegal : Obligations.MelParametersAreLegal := by
  refine ⟨⟨length_melEdges, fun _ => melEdges_lt_succ, fun _ => melEdges_le⟩, fun e => ?_⟩
  split
  case isTrue => exact isZero_melZeroSubst
  case isFalse h => exact Bool.eq_false_iff.mpr (mt feq_zero_of_isZero h)

end Sys2Proof.Machine
end

section
/-! 45_mel_dct.md R215: the weights of a triangular filter. -/

namespace Sys2Proof.Machine

/-- What passes `inUnitRange` without being a zero or carrying a sign has its value in `(0, 1]`. -/
theorem fvalue_mem_unit {x : F64} (hrange : inUnitRange x = true) (hs : fsign x = false) (hz : isZero x = false) :
    isFinite x = true ∧ 0 < fvalue x ∧ fvalue x ≤ 1 := by
  obtain ⟨hfinite, habs⟩ := abs_fvalue_le_one hrange
  have hbody : fbody x ≠ 0 := fun h => by rw [(isZero_iff x).mpr h] at hz; cases hz
  have hkey : fkey 0#64 < fkey x := by
    rw [fkey_zero (by decide), fkey, hs]
    simpa using Nat.pos_of_ne_zero hbody
  refine ⟨hfinite, ?_, le_of_abs_le habs⟩
  rw [← fvalue_of_isZero (z := 0#64) (by decide)]
  exact fvalue_lt_iff.mpr hkey

/-- The conversion of a positive integer below 2^53: an unsigned finite datum, not a zero, of exactly its magnitude (R128). -/
theorem ffloatNat_of_pos {n : Nat} (h0 : 0 < n) (h : n < 2 ^ 53) :
    isFinite (ffloatNat n) = true ∧ fsign (ffloatNat n) = false ∧ isZero (ffloatNat n) = false ∧
      fmag (ffloatNat n) = n * unitsPerOne := by
  have hn : (n : Int).natAbs < 2 ^ 53 := by rwa [Int.natAbs_natCast]
  have hmag : fmag (ffloatNat n) = n * unitsPerOne := by rw [ffloatNat, fmag_ffloat hn, Int.natAbs_natCast]
  refine ⟨(fvalue_ffloat hn).1, by rw [ffloatNat, fsign_ffloat]; simp, ?_, hmag⟩
  rw [Bool.eq_false_iff, Ne, ← fmag_eq_zero_iff, hmag]
  exact (Nat.mul_pos h0 unitsPerOne_pos).ne'

/-- The quotient of a positive integer by one not below it lies in `(0, 1]` after rounding too: the exact quotient is at least
the smallest subnormal and at most 1.0, and rounding keeps that order. -/
theorem fdiv_ffloatNat_mem_unit {a b : Nat} (ha : 0 < a) (hab : a ≤ b) (hb : b < 2 ^ 53) :
    isFinite (fdiv (ffloatNat a) (ffloatNat b)) = true ∧ 0 < fvalue (fdiv (ffloatNat a) (ffloatNat b)) ∧
      fvalue (fdiv (ffloatNat a) (ffloatNat b)) ≤ 1 := by
  obtain ⟨hfa, hsa, -, hma⟩ := ffloatNat_of_pos ha (hab.trans_lt hb)
  obtain ⟨hfb, hsb, hzb, hmb⟩ := ffloatNat_of_pos (ha.trans_le hab) hb
  have hone : bodyMag (fbody fone) = unitsPerOne := by decide +kernel
  have hpow : ∀ n, 53 ≤ n → 2 ^ 53 ≤ 2 ^ n := fun _ => Nat.pow_le_pow_right Nat.two_pos
  have hbu : b ≤ unitsPerOne := hb.le.trans (hpow 1074 (by decide))
  have hden : 0 < b * unitsPerOne := Nat.mul_pos (ha.trans_le hab) unitsPerOne_pos
  have hlow : 1 ≤ roundBody (a * unitsPerOne * unitsPerOne) (b * unitsPerOne) := by
    refine le_roundBody_of_le hden (by decide) ?_
    rw [show bodyMag 1 = 1 by decide, Nat.one_mul]
    exact Nat.mul_le_mul_right _ (hbu.trans (Nat.le_mul_of_pos_left _ ha))
  have hhigh : roundBody (a * unitsPerOne * unitsPerOne) (b * unitsPerOne) ≤ fbody fone := by
    refine roundBody_le_of_le hden ?_
    rw [hone, Nat.mul_comm]
    exact Nat.mul_le_mul_left _ (Nat.mul_le_mul_right _ hab)
  rw [fdiv_of_finite hfa hfb hzb, hma, hmb, hsa, hsb]
  refine fvalue_mem_unit ?_ (fsign_packF64_round ..) ?_
  · rwa [inUnitRange_iff_fbody_le, fbody_packF64 _ (roundBody_lt _ _)]
  · rw [Bool.eq_false_iff, Ne, isZero_iff, fbody_packF64 _ (roundBody_lt _ _)]
    exact Nat.ne_of_gt hlow

/-! The three pieces of the triangle: the rising side, the centre, the falling side. -/

theorem melWeight_of_lt {c k : Nat} (h : k < c) (l r : Nat) :
    melWeight l c r k = fdiv (ffloatNat (k - l)) (ffloatNat (c - l)) := if_pos h

@[simp] theorem melWeight_centre (l c r : Nat) : melWeight l c r c = fone := by simp [melWeight]

theorem melWeight_of_gt {c k : Nat} (h : c < k) (l r : Nat) :
    melWeight l c r k = fdiv (ffloatNat (r - k)) (ffloatNat (r - c)) := by
  rw [melWeight, if_neg (Nat.not_lt.mpr h.le), if_neg h.ne']

/-- Settles O48, piece by piece. -/
theorem melWeightsLieInUnitInterval : Obligations.MelWeightsLieInUnitInterval := by
  intro l c r k hlc hcr hr hlk hkr
  suffices hunit : isFinite (melWeight l c r k) = true ∧ 0 < fvalue (melWeight l c r k) ∧ fvalue (melWeight l c r k) ≤ 1 by
    obtain ⟨hfinite, hpos, hle⟩ := hunit
    exact ⟨hfinite, hpos, hle, melWeight_centre l c r⟩
  rcases Nat.lt_trichotomy k c with hkc | rfl | hck
  · rw [melWeight_of_lt hkc]
    exact fdiv_ffloatNat_mem_unit (by omega) (by omega) (by omega)
  · rw [melWeight_centre]
    exact fvalue_mem_unit (by decide +kernel) (by decide) (by decide)
  · rw [melWeight_of_gt hck]
    exact fdiv_ffloatNat_mem_unit (by omega) (by omega) (by omega)

end Sys2Proof.Machine
end

section
/-! 45_mel_dct.md R214, R218: the two Mel stages, which store their elements and set their stage, and the commands over
them. -/

namespace Sys2Proof.Machine

theorem sameBytesOutside_storeF64s (s : State) {a len : Nat} {vs : List F64} (h : 8 * vs.length = len) :
    SameBytesOutside a len s (s.storeF64s a vs) := fun _ hx => State.byte_storeF64s s (h.symm ▸ hx)

/-- `MELFB` writes the 208 bytes of `MEL` alone. -/
theorem sameBytesOutside_melfb (edges : List Nat) (subst : F64) (s : State) :
    SameBytesOutside 0x0800 208 s (s.storeF64s melBase (melFrame edges subst s.pwrAll)) :=
  sameBytesOutside_storeF64s s (by rw [length_melFrame])

/-- `DCT` writes the 96 bytes of `MFCC` alone. -/
theorem sameBytesOutside_dct (s : State) :
    SameBytesOutside 0x0900 96 s (s.storeF64s mfccBase (dctFrame s.melAll)) :=
  sameBytesOutside_storeF64s s (by rw [length_dctFrame])

/-- Settles O46: with the unit the stage check alone stands before the store. -/
theorem melStagesCompleteWithTheUnit : Obligations.MelStagesCompleteWithTheUnit :=
  ⟨fun edges subst s h => ⟨_, performMelfbWith_ran edges subst h, rfl, fun _ hm => mel_melfb edges subst s hm,
      sameBytesOutside_melfb edges subst s⟩,
    fun s h => ⟨_, performDctWith_ran h, rfl, fun _ hn => mfcc_dct s hn, sameBytesOutside_dct s⟩⟩

/-- `MELFB` without the Mel/DCT unit only reports `UNIMPL` (R217). -/
theorem exec_melfb_of_absent (hunit : Config.melPresent = false) (s : State) :
    ∃ t, exec .melfb s = .next t ∧ FailedWith .unimpl s t :=
  exec_of_perform_failed (by rw [perform, performMelfb, hunit, performMelfbWith_unimpl])

/-- What `MELFB` does with the Mel/DCT unit from stage `POWER` on: it succeeds with the log energies of the configured filters
in `MEL` and stage `MEL`, and changes nothing else (R214). -/
theorem exec_melfb_of_present {s : State} (hunit : Config.melPresent = true) (h : 3 ≤ s.stage.code) :
    ∃ t, exec .melfb s = .next t ∧ (∀ m < 26, t.mel m = melValue melEdges melZeroSubst s.pwrAll m) ∧ Succeeded t ∧
      t.stage = .mel ∧ SameZ s t ∧ SameScalars s t ∧ SameBytesOutside 0x0800 208 s t ∧ SameHostSide s t :=
  ⟨((s.storeF64s melBase (melFrame melEdges melZeroSubst s.pwrAll)).setStage .mel).succeed,
    by rw [exec_eq_report, perform, performMelfb, hunit, performMelfbWith_ran _ _ h, Ended.report_ran],
    fun _ hm => mel_melfb _ _ s hm, ⟨rfl, rfl⟩, rfl, fun r => by simp, ⟨rfl, rfl, rfl, rfl⟩,
    sameBytesOutside_melfb _ _ s, rfl, rfl, rfl⟩

/-- `DCT` without the Mel/DCT unit only reports `UNIMPL` (R217). -/
theorem exec_dct_of_absent (hunit : Config.melPresent = false) (s : State) :
    ∃ t, exec .dct s = .next t ∧ FailedWith .unimpl s t :=
  exec_of_perform_failed (by rw [perform, performDct, hunit, performDctWith_unimpl])

/-- What `DCT` does with the Mel/DCT unit from stage `MEL` on: it succeeds with the coefficients of the log energies in `MFCC`
and stage `MFCC`, and changes nothing else (R218). -/
theorem exec_dct_of_present {s : State} (hunit : Config.melPresent = true) (h : 4 ≤ s.stage.code) :
    ∃ t, exec .dct s = .next t ∧ (∀ n < 12, t.mfcc n = dctCoefficient s.melAll n) ∧ Succeeded t ∧ t.stage = .mfcc ∧
      SameZ s t ∧ SameScalars s t ∧ SameBytesOutside 0x0900 96 s t ∧ SameHostSide s t :=
  ⟨((s.storeF64s mfccBase (dctFrame s.melAll)).setStage .mfcc).succeed,
    by rw [exec_eq_report, perform, performDct, hunit, performDctWith_ran h, Ended.report_ran],
    fun _ hn => mfcc_dct s hn, ⟨rfl, rfl⟩, rfl, fun r => by simp, ⟨rfl, rfl, rfl, rfl⟩, sameBytesOutside_dct s,
    rfl, rfl, rfl⟩

/-- Settles O49: the model's running sum over the elements of `MEL`, with the angle written out. -/
theorem dctWritesTheCoefficients : Obligations.DctWritesTheCoefficients := by
  refine ⟨by decide, fun s hstage => ?_⟩
  cases hunit : Config.melPresent with
  | false => exact exec_dct_of_absent hunit s
  | true =>
    obtain ⟨t, hexec, hmfcc, hframe⟩ := exec_dct_of_present hunit hstage
    exact ⟨t, hexec, fun n hn => (hmfcc n hn).trans (dctCoefficient_melAll s n), hframe⟩

end Sys2Proof.Machine
end

section
/-! 45_mel_dct.md R215, R216: the command `MELFB` in terms of the elements of `PWR`. Between the edges of a filter no
difference of bin numbers is negative, and no bin lies beyond `PWR`. -/

namespace Sys2Proof.Machine

theorem ffloatNat_sub {a b : Nat} (h : b ≤ a) : ffloatNat (a - b) = ffloat ((a : Int) - b) := by
  rw [ffloatNat, Nat.cast_sub h]

/-- The weight of a bin of the open interval over integer differences (R215). -/
theorem melWeight_eq_of_mem {l c r k : Nat} (hlc : l < c) (hcr : c < r) (hlk : l < k) (hkr : k < r) :
    melWeight l c r k =
      if k < c then fdiv (ffloat ((k : Int) - l)) (ffloat ((c : Int) - l))
      else if k = c then fone else fdiv (ffloat ((r : Int) - k)) (ffloat ((r : Int) - c)) := by
  rw [melWeight, ffloatNat_sub hlk.le, ffloatNat_sub hlc.le, ffloatNat_sub hkr.le, ffloatNat_sub hcr.le]

/-- The energy of a filter over the powers of the state, as a running sum over the bins (R216). -/
theorem melEnergy_pwrAll (s : State) {l c r : Nat} (hlc : l < c) (hcr : c < r) (hr : r ≤ 512) :
    melEnergy l c r s.pwrAll = (List.range' (l + 1) (r - 1 - l)).foldl (fun e k => fadd e (fmul
      (if k < c then fdiv (ffloat ((k : Int) - l)) (ffloat ((c : Int) - l))
      else if k = c then fone else fdiv (ffloat ((r : Int) - k)) (ffloat ((r : Int) - c))) (s.pwr k))) 0#64 := by
  refine List.foldl_ext _ _ _ fun e k hk => ?_
  obtain ⟨hlk, hkr⟩ := List.mem_range'_1.mp hk
  rw [melWeight_eq_of_mem hlc hcr (by omega) (by omega), getD_pwrAll s (by omega)]

/-- Settles O45: the model's log energy of a filter, whose edges are those of a legal table, with the weight written out. -/
theorem melfbWritesTheLogEnergies : Obligations.MelfbWritesTheLogEnergies := by
  refine ⟨by decide, fun s hstage => ?_⟩
  cases hunit : Config.melPresent with
  | false => exact exec_melfb_of_absent hunit s
  | true =>
    obtain ⟨t, hexec, hmel, hframe⟩ := exec_melfb_of_present hunit hstage
    refine ⟨t, hexec, fun m hm => ?_, hframe⟩
    have hr : melEdges.getD (m + 2) 0 ≤ 512 := (melEdges_getD_le (by omega)).trans (by decide)
    rw [hmel m hm, melValue, melEnergy_pwrAll s (melEdges_lt_succ (by omega)) (melEdges_lt_succ (by omega)) hr]
    rfl

end Sys2Proof.Machine
end

section
/-! 46_system_macro.md R230, R231: the commands `NOP` and `SRST`. -/

namespace Sys2Proof.Machine

/-- Settles O50: the work of `NOP` is empty, so its report of success is all that changes. -/
theorem nopOnlyClearsTheReport : Obligations.NopOnlyClearsTheReport := by
  refine ⟨by decide, fun s => ⟨s.succeed, exec_eq_report .nop s, ⟨rfl, rfl⟩, rfl, ?registers, ⟨rfl, rfl, rfl, rfl⟩,
    fun _ => rfl, rfl, rfl, rfl⟩⟩
  case registers => exact s.getZ_succeed

/-- Settles O51: `SRST` writes its five registers and the report of success, and `STATUS` is read from these. -/
theorem softResetKeepsTheBuffers : Obligations.SoftResetKeepsTheBuffers := by
  refine ⟨by decide, fun s => ⟨s.softReset.succeed, exec_eq_report .srst s, statusWord_eq_zero rfl rfl rfl, rfl, ⟨rfl, rfl⟩,
    rfl, rfl, rfl, rfl, fun r => ?register, fun _ => rfl, rfl, rfl, rfl⟩⟩
  case register => rw [State.getZ_succeed, State.getZ_softReset]

end Sys2Proof.Machine
end

section
/-! 46_system_macro.md R232: what `FRAME` does, in terms of the three commands it performs. -/

namespace Sys2Proof.Machine

/-- Nothing but `FAIL`, `ERRCODE`, `STAGE` and the parts a command names is written: the four scalar registers. -/
theorem WritesOnly.sameScalars {ws : List Region} {s t : State} (h : WritesOnly ws s t)
    (hw : ∀ r ∈ [Region.silence, .peakidx, .peakval, .result], r ∉ ws) : SameScalars s t :=
  ⟨h.silence (hw _ (by decide)), h.peakidx (hw _ (by decide)), h.peakval (hw _ (by decide)), h.result (hw _ (by decide))⟩

/-- No command changes the model's own fields. -/
theorem exec_sameHostSide {i : Instr} {s t : State} (h : exec i s = .next t) : SameHostSide s t := by
  rw [exec_eq_next_iff] at h
  exact h ▸ Ended.sameHostSide_report (perform_sameHostSide i s)

/-- Two steps that write within a run each write within it together. -/
theorem SameBytesOutside.trans {base len : Nat} {s t u : State} (h : SameBytesOutside base len s t)
    (k : SameBytesOutside base len t u) : SameBytesOutside base len s u := fun a ha => (k a ha).trans (h a ha)

theorem SameBytesOutside.mono {base len base' len' : Nat} {s t : State} (h : SameBytesOutside base len s t)
    (hlow : base' ≤ base) (hhigh : base + len ≤ base' + len') : SameBytesOutside base' len' s t :=
  fun a ha => h a (by omega)

/-- `FRAME` succeeds in every stage, in the state its three commands end in one after the other, and writes within `PWR`,
`XIN` and `XOUT`: its `DFT` sets the stage its `POWER` asks for (R232). -/
theorem exec_frame (s : State) :
    ∃ a b t, exec .loadHann s = .next a ∧ exec .dft a = .next b ∧ exec .power b = .next t ∧ exec .frame s = .next t ∧
      Succeeded t ∧ t.stage = .power ∧ SameBytesOutside 0x1000 0x5000 s t := by
  obtain ⟨a, hload, -, -, -, -, -, hbytesLoad, -⟩ := exec_of_perform_load (i := .loadHann) (w := .hann) (s := s) rfl
  obtain ⟨b, hdft, -, -, hstageDft, -, -, hbytesDft, -⟩ := exec_dft a
  obtain ⟨t, hpower, -, hok, hstage, -, -, hbytesPower, -⟩ := exec_power_of_stage_ge (s := b) (by rw [hstageDft]; decide)
  refine ⟨a, b, t, hload, hdft, hpower, exec_frame_of_commands hload hdft hpower, hok, hstage, ?_⟩
  exact ((hbytesLoad.mono (by decide) (by decide)).trans (hbytesDft.mono (by decide) (by decide))).trans
    (hbytesPower.mono (by decide) (by decide))

/-- Settles O52: the frame of `FRAME` as a command, and its bytes command by command. -/
theorem frameIsItsThreeCommands : Obligations.FrameIsItsThreeCommands := by
  refine ⟨by decide, fun s => ?_⟩
  obtain ⟨a, b, t, hload, hdft, hpower, hframe, ⟨hfail, herr⟩, hstage, hbytes⟩ := exec_frame s
  have hw := exec_writesOnly hframe
  refine ⟨a, b, t, hload, hdft, hpower, hframe, ?status, hw.z (by decide), hw.sameScalars (by decide),
    exec_sameHostSide hframe, fun x hx => hbytes x hx⟩
  case status =>
    rw [statusWord_of_fields hfail herr hstage]
    decide

/-- The elements of the three buffers after a `FRAME`: the frame windowed by Hann, its transform, its periodogram. Each
command reads what the one before it wrote, and none writes over it (R232). -/
theorem exec_frame_elements (s : State) :
    ∃ t, exec .frame s = .next t ∧
      (∀ n < 512, t.xin n = ⟨windowed .hann n (ffloat (sampleDifference s.silence (s.smp n))), fzero⟩) ∧
      (∀ k < 512, t.xout k = dftBin t.xinAll k) ∧ ∀ k < 512, t.pwr k = binPower (t.xout k) := by
  obtain ⟨a, hload, hxin, -⟩ := exec_of_perform_load (i := .loadHann) (w := .hann) (s := s) rfl
  obtain ⟨b, hdft, hbins, -, hstage, -⟩ := exec_dft a
  obtain ⟨t, hpower, hpwr, -⟩ := exec_power_of_stage_ge (s := b) (by rw [hstage]; decide)
  have hkeepsDft : ∀ n < 512, b.xin n = a.xin n := (exec_writesOnly hdft).xin (by decide)
  have hkeepsPower : ∀ n < 512, t.xin n = b.xin n := (exec_writesOnly hpower).xin (by decide)
  have hxout : ∀ k < 512, t.xout k = b.xout k := (exec_writesOnly hpower).xout (by decide)
  have hkeeps : ∀ n < 512, t.xin n = a.xin n := fun n hn => (hkeepsPower n hn).trans (hkeepsDft n hn)
  have hframe : t.xinAll = a.xinAll := List.map_congr_left fun n hn => hkeeps n (List.mem_range.mp hn)
  refine ⟨t, exec_frame_of_commands hload hdft hpower, fun n hn => (hkeeps n hn).trans (hxin n hn), fun k hk => ?_,
    fun k hk => ?_⟩
  · rw [hxout k hk, hbins k hk, hframe]
  · rw [hpwr k hk, hxout k hk]

end Sys2Proof.Machine
end

section
/-! 46_system_macro.md R233, R234: `MFCC` performs its stages one after the other and ends with the first that fails. -/

namespace Sys2Proof.Machine

/-- A sequence whose second step does not read the report ends as its first step reports, where that failed, else as the
second step reports from there: nothing already written is undone (R234). -/
theorem Ended.report_andThen {f : State → Ended} (hf : ∀ u : State, (f u.succeed).report = (f u).report) (e : Ended) :
    (e.andThen f).report = if e.report.fail = true then e.report else (f e.report).report := by
  cases e with
  | ran u => exact (hf u).symm
  | failed c u => rfl

/-- `MELFB` does not read the report, which it overwrites. -/
theorem report_performMelfb_succeed (u : State) : (performMelfb u.succeed).report = (performMelfb u).report := by
  unfold performMelfb performMelfbWith
  rw [State.succeed_stage]
  split_ifs <;> rfl

/-- `DCT` does not read the report, which it overwrites. -/
theorem report_performDct_succeed (u : State) : (performDct u.succeed).report = (performDct u).report := by
  unfold performDct performDctWith
  rw [State.succeed_stage]
  split_ifs <;> rfl

/-- `MFCC` ends where its `MELFB` failed, else where `DCT` ends from there (R233, R234). -/
theorem exec_mfcc_of_stages {s a b : State} (hframe : exec .frame s = .next a) (hok : a.fail = false)
    (hmelfb : exec .melfb a = .next b) : exec .mfcc s = if b.fail = true then .next b else exec .dct b := by
  simp only [exec_eq_next_iff, perform] at hframe hmelfb
  have hfirst : ((performFrame s).andThen performMelfb).report = b := by
    rw [Ended.report_andThen report_performMelfb_succeed, hframe, if_neg (by simp [hok]), hmelfb]
  have hsecond := Ended.report_andThen report_performDct_succeed ((performFrame s).andThen performMelfb)
  rw [hfirst] at hsecond
  rw [exec_eq_report, exec_eq_report, ← apply_ite Host.Outcome.next]
  exact congrArg Host.Outcome.next hsecond

/-- Without the Mel/DCT unit `MFCC` is a `FRAME` followed by the report `UNIMPL` (R234). -/
theorem exec_mfcc_of_absent (hunit : Config.melPresent = false) {s a : State} (hframe : exec .frame s = .next a)
    (hok : a.fail = false) : ∃ b, exec .melfb a = .next b ∧ exec .mfcc s = .next b ∧ FailedWith .unimpl a b := by
  obtain ⟨b, hmelfb, hfailed⟩ := exec_melfb_of_absent hunit a
  exact ⟨b, hmelfb, by rw [exec_mfcc_of_stages hframe hok hmelfb, if_pos hfailed.1], hfailed⟩

/-- With the Mel/DCT unit every stage of `MFCC` finds the stage it asks for, and `MFCC` succeeds (R233). -/
theorem exec_mfcc_of_present (hunit : Config.melPresent = true) {s a : State} (hframe : exec .frame s = .next a)
    (hok : a.fail = false) (hstage : a.stage = .power) :
    ∃ b t, exec .melfb a = .next b ∧ b.fail = false ∧ exec .dct b = .next t ∧ exec .mfcc s = .next t ∧ Succeeded t ∧
      t.stage = .mfcc ∧ SameBytesOutside 0x0800 208 a b ∧ SameBytesOutside 0x0900 96 b t := by
  obtain ⟨b, hmelfb, -, ⟨hokMelfb, -⟩, hstageMelfb, -, -, hbytesMelfb, -⟩ :=
    exec_melfb_of_present (s := a) hunit (by rw [hstage]; decide)
  obtain ⟨t, hdct, -, hokDct, hstageDct, -, -, hbytesDct, -⟩ :=
    exec_dct_of_present (s := b) hunit (by rw [hstageMelfb]; decide)
  refine ⟨b, t, hmelfb, hokMelfb, hdct, ?_, hokDct, hstageDct, hbytesMelfb, hbytesDct⟩
  rw [exec_mfcc_of_stages hframe hok hmelfb, if_neg (by simp [hokMelfb]), hdct]

/-- Settles O53, without and with the Mel/DCT unit. -/
theorem mfccIsItsStagesFailFast : Obligations.MfccIsItsStagesFailFast := by
  refine ⟨by decide, fun s => ?_⟩
  obtain ⟨-, -, a, -, -, -, hframe, ⟨hok, -⟩, hstage, hbytes⟩ := exec_frame s
  have hkept : ∀ {t}, exec .mfcc s = .next t → SameZ s t ∧ SameScalars s t ∧ SameHostSide s t := fun h =>
    ⟨(exec_writesOnly h).z (by decide), (exec_writesOnly h).sameScalars (by decide), exec_sameHostSide h⟩
  cases hunit : Config.melPresent with
  | false =>
    obtain ⟨b, hmelfb, hmfcc, hfailed⟩ := exec_mfcc_of_absent hunit hframe hok
    have ⟨hfail, herr, hstageFailed, _, _, hbytesFailed, _⟩ := hfailed
    obtain ⟨hz, hscalars, hhost⟩ := hkept hmfcc
    refine ⟨a, b, b, hframe, hmelfb, hmfcc, fun _ => rfl, fun h => absurd (hfail.symm.trans h) nofun, ?status,
      fun _ => hfailed, nofun, hz, hscalars, hhost, fun x hx => (hbytesFailed x).trans (hbytes x (by omega))⟩
    case status =>
      rw [statusWord_of_fields hfail herr (hstageFailed.trans hstage)]
      decide
  | true =>
    obtain ⟨b, t, hmelfb, hokMelfb, hdct, hmfcc, ⟨hfail, herr⟩, hstageDct, hbytesMelfb, hbytesDct⟩ :=
      exec_mfcc_of_present hunit hframe hok hstage
    obtain ⟨hz, hscalars, hhost⟩ := hkept hmfcc
    refine ⟨a, b, t, hframe, hmelfb, hmfcc, fun h => absurd (hokMelfb.symm.trans h) nofun, fun _ => hdct, ?status,
      nofun, fun _ => hokMelfb, hz, hscalars, hhost, fun x hx => ?byte⟩
    case status =>
      rw [statusWord_of_fields hfail herr hstageDct]
      decide
    case byte => rw [hbytesDct x (by omega), hbytesMelfb x (by omega), hbytes x (by omega)]

end Sys2Proof.Machine
end

section
/-! 46_system_macro.md R232, 70_reset_and_hazards.md R264: `FRAME` on a frame with one sample off the silence value. The
halved difference is neither lost to underflow nor infinite, and a real bin has the power of its real part. -/

namespace Sys2Proof.Machine

/-- A product that is not below the smallest positive datum does not underflow: rounding keeps that order. -/
theorem isZero_fmul_of_le {a b : F64} (ha : isFinite a = true) (hb : isFinite b = true)
    (h : unitsPerOne ≤ fmag a * fmag b) : isZero (fmul a b) = false := by
  have hone : 1 ≤ roundBody (fmag a * fmag b) unitsPerOne :=
    le_roundBody_of_le unitsPerOne_pos (by decide) (by rwa [show bodyMag 1 = 1 by decide, one_mul])
  rw [fmul_of_finite ha hb, Bool.eq_false_iff, Ne, isZero_iff, fbody_packF64 _ (roundBody_lt _ _)]
  omega

/-- Half of an integer other than 0 and below 2^53 in magnitude is finite and no zero. -/
theorem fmul_half_ffloat {n : Int} (h0 : n ≠ 0) (h : n.natAbs < 2 ^ 53) :
    isFinite (fmul fHALF (ffloat n)) = true ∧ isZero (fmul fHALF (ffloat n)) = false := by
  have hfinite : isFinite (ffloat n) = true := (fvalue_ffloat h).1
  have hhalf : fmag fHALF ≤ unitsPerOne ∧ 1 ≤ fmag fHALF := by decide +kernel
  have hunit : unitsPerOne ≤ fmag (ffloat n) := by
    rw [fmag_ffloat h]
    exact Nat.le_mul_of_pos_left _ (Int.natAbs_pos.mpr h0)
  constructor
  · have hbody : fbody (fmul fHALF (ffloat n)) ≤ fbody (ffloat n) := by
      refine fbody_fmul_le (by decide) hfinite ?_
      rw [← fmag_eq_bodyMag, mul_comm]
      exact Nat.mul_le_mul_left _ hhalf.1
    exact (isFinite_iff _).mpr (lt_of_le_of_lt hbody ((isFinite_iff _).mp hfinite))
  · exact isZero_fmul_of_le (by decide) hfinite (le_trans hunit (Nat.le_mul_of_pos_left _ hhalf.2))

/-- The difference of two samples that differ is an integer other than 0, below 2^16 in magnitude: it does not wrap
(R133). -/
theorem sampleDifference_bounds {silence sample : BitVec 16} (h : sample ≠ silence) :
    sampleDifference silence sample ≠ 0 ∧ (sampleDifference silence sample).natAbs < 2 ^ 16 := by
  have hne : sample.toInt ≠ silence.toInt := mt BitVec.eq_of_toInt_eq h
  have hsample := And.intro sample.le_toInt sample.toInt_lt
  have hsilence := And.intro silence.le_toInt silence.toInt_lt
  unfold sampleDifference
  omega

/-- A square is a possible running sum from `+0.0`: it carries no sign. -/
theorem sumFromZero_square {x : F64} (h : isNaN x = false) : SumFromZero (fmul x x) := by
  cases hzero : isZero (fmul x x) with
  | true => exact .inl (fmul_self_of_isZero hzero)
  | false => exact .inr ⟨(fmul_self_unsigned h).1, hzero⟩

/-- The power of a bin without an imaginary part: the square of its real part, scaled (R191). -/
theorem binPower_real {x : F64} (h : isNaN x = false) : binPower ⟨x, 0#64⟩ = fmul (fmul x x) fINV_N := by
  have hzero : isZero (fmul 0#64 0#64) = true := by decide +kernel
  rw [binPower, normSquared, (sumFromZero_square h).fadd_isZero hzero]

/-- Settles O54: the windowed frame is an impulse of the halved difference, so every bin is that impulse and every power
that of the bin. -/
theorem frameOfOneSample : Obligations.FrameOfOneSample := by
  intro s hfirst hrest
  obtain ⟨t, hframe, hxin, hxout, hpwr⟩ := exec_frame_elements s
  obtain ⟨hdiff, hbound⟩ := sampleDifference_bounds hfirst
  obtain ⟨hfinite, hzero⟩ := fmul_half_ffloat hdiff (hbound.trans (by decide))
  have himpulse : t.xin 0 = ⟨fmul fHALF (ffloat (sampleDifference s.silence (s.smp 0))), 0#64⟩ := hxin 0 (by decide)
  have hsilent : ∀ i < 512, 0 < i → t.xin i = ⟨0#64, 0#64⟩ := fun i hi hpos => by
    rw [hxin i hi, hrest i hi hpos, sampleDifference, sub_self, ffloat_zero, windowed_hann_zero hi]
    rfl
  have hbin : ∀ k < 512, t.xout k = ⟨fmul fHALF (ffloat (sampleDifference s.silence (s.smp 0))), 0#64⟩ := fun k hk =>
    (hxout k hk).trans (dftBin_impulse hk hfinite hzero himpulse hsilent)
  refine ⟨t, hframe, himpulse, hbin, fun k hk => ?_⟩
  rw [hpwr k hk, hbin k hk, binPower_real (isFinite_not_special hfinite).1]
  rfl

end Sys2Proof.Machine
end

section
/-! 60_exceptions.md R257: the machine with nothing pending. -/

namespace Sys2Proof.Machine

/-- Settles O15: with nothing pending the event performed is none, which answers the state as it is. -/
theorem idleMachineKeepsItsState : Obligations.IdleMachineKeepsItsState :=
  fun _ hidle => step_of_pending_nil hidle

end Sys2Proof.Machine
end
